-- ==== Sys2Proof/Word.lean ====
section
/-! DEFINITION. The word types of the hart (R7, R8, R20, R80) and nothing else. -/

namespace Sys2Proof

/-- A 32-bit register, instruction word or virtual address (`XLEN` = 32, R6, R20). -/
abbrev Word := BitVec 32

/-- The smallest addressable unit of memory (R100). -/
abbrev Byte := BitVec 8

/-- A 64-bit counter or timer register (R70, R86). -/
abbrev DWord := BitVec 64

/-- A 34-bit physical byte address (R80, R100). -/
abbrev PAddr := BitVec 34

/-- The number of a general register, as the 5-bit fields `rd`, `rs1`, `rs2` carry it (R171). -/
abbrev Reg := BitVec 5

/-- A 12-bit CSR address (R26). -/
abbrev CsrAddr := BitVec 12

end Sys2Proof
end

