-- ==== Sys2Proof/Config.lean ====
section
/-! DEFINITION. What an implementation or the platform fixes (the OPEN parameters of R6), what the
outside world does to the hart between two steps (R87, R145), and the free values: constants
without a body for what the spec leaves open. -/

namespace Sys2Proof

/-- The three kinds of access an address is resolved for (R10, R120). -/
inductive Access where
  | fetch
  | load
  | store
  deriving DecidableEq, Repr

/-- What a region of `MEM_MAP` holds (R101, D28). A physical address in no region is vacant. -/
inductive MemKind where
  /-- Main memory: a read gives the last value written (R101). -/
  | ram
  /-- Main memory whose contents `MEM_MAP` declares (R90, D28); what a store to it leaves is open
  (log entry 7). -/
  | rom
  /-- A device other than the three CLINT registers; its behaviour is not in the spec (R520, U27). -/
  | device
  deriving DecidableEq, Repr

/-- One region of `MEM_MAP`: the physical addresses `base ≤ a < base + size`. -/
structure Region where
  base : Nat
  size : Nat
  kind : MemKind
  deriving DecidableEq, Repr

/-- The OPEN parameters of R6. They are held in the state (field `cfg`), which no step changes, so a
statement about every state is a statement about every value of every parameter (log entry 1). -/
structure Params where
  /-- `RD_X0_ILLEGAL` (R178, D3). -/
  rdX0Illegal : Bool
  /-- `PMP_ENTRIES`, 0 to 16 (R71, D18). -/
  pmpEntries : Fin 17
  /-- `MEM_MAP`: the regions that hold something (R101, D28). -/
  memMap : List Region
  /-- The bytes `MEM_MAP` declares as the contents of ROM at reset (R90). -/
  romImage : List Host.Cell
  /-- `RESET_VECTOR` (R90, D10). -/
  resetVector : Word
  /-- `MTIME_ADDR` (R487, D12). -/
  mtimeAddr : PAddr
  /-- `MTIMECMP_ADDR` (R487, D12). -/
  mtimecmpAddr : PAddr
  /-- `MSIP_ADDR` (R488, D12). -/
  msipAddr : PAddr
  /-- `NHARTS` (R525, D11); no rule of one hart reads it. -/
  nharts : Nat
  /-- `HARTID`, the value of `mhartid` (R74). -/
  hartid : Word
  deriving DecidableEq, Repr

/-- What the platform does to the hart between two steps, apart from writes to memory: the levels of
the PLIC's two lines (R486), a store of some hart to `MSIP_ADDR` (R488), how far `mtime` and
`mcycle` advance (R487, R70), and whether a stalled hart wakes spuriously (R324). -/
structure EnvInput where
  /-- `meip_line` at this step. -/
  meip : Bool
  /-- `seip_line` at this step. -/
  seip : Bool
  /-- A new value of `msip_bit` written by another agent, if one wrote it. -/
  msip : Option Bool
  /-- By how much `mtime` has advanced: zero or more (U6). -/
  mtimeInc : Nat
  /-- By how much more than one `mcycle` has advanced (U11: the amount is positive). -/
  mcycleMore : Nat
  /-- A spurious wake-up from `WFI` (U13). -/
  wake : Bool
  deriving DecidableEq, Repr, Inhabited

/-- All that agents outside the hart do between two steps: the platform's part, and the bytes other
agents write to memory (R145 (b)). -/
structure StepInput where
  env : EnvInput
  writes : List (PAddr × Byte)
  deriving DecidableEq, Repr, Inhabited

/-- What a read of physical memory is made for. Two reads of one step differ in it, so a device may
answer each with a value of its own. -/
inductive ReadUse where
  /-- The access itself. -/
  | access (acc : Access)
  /-- The read of a page-table entry at this level, while translating for this access (R132). -/
  | walk (acc : Access) (level : Nat)
  deriving DecidableEq, Repr

/-- FREE VALUE (log entry 4): what the platform does before step number `tick`, where the state lists
no input for it. A statement holds for every behaviour of the platform (R87, U6, U11, U12, U13). -/
opaque Config.env : Nat → EnvInput

/-- FREE VALUE (log entry 6): the byte a device that the spec does not describe gives at step `tick`
to a read of physical address `a` ("a model may take read values as arbitrary", U27). -/
opaque Config.deviceByte (tick : Nat) (use : ReadUse) (a : Nat) : Byte

/-- FREE VALUE (log entry 7): whether a byte stored at step `tick` to a ROM address replaces the byte
there. The spec names ROM (D28, R90) and does not say. -/
opaque Config.romStoreLands (tick : Nat) (a : Nat) : Bool

/-- The parameter values `State.reset` uses (log entry 1, DESIGN CHOICE): the reset vector and the
`mtimecmp` address of the spec's test programs (95_test_vectors.md, Part 3), sixteen PMP entries, the
ratified reading of `rd = x0`, main memory at `0x1000` to `0x1FFFFFF` and from `0x80000000` up. -/
def Params.default : Params where
  rdX0Illegal := false
  pmpEntries := 16
  memMap := [⟨0x80000000, 0x80000000, .ram⟩, ⟨0x1000, 0x1FFF000, .ram⟩]
  romImage := []
  resetVector := 0x80000000#32
  mtimeAddr := 0x0200BFF8#34
  mtimecmpAddr := 0x02004000#34
  msipAddr := 0x02000000#34
  nharts := 1
  hartid := 0#32

end Sys2Proof
end

