-- ==== Sys2Proof/Syntax.lean ====
section
/-! DEFINITION. The instructions of the hart as syntax: one constructor for each of the 51 rows of
spec/opcode_table.json (R187), its operands in the order of the spec's assembler syntax (R183). -/

namespace Sys2Proof

/-- One instruction. Immediates are kept at the width the spec's operand has: `imm20` is bits 31:12 of
a U-format word, `imm12` the 12-bit signed immediate, `off` the signed even byte offset of a branch
(13 bits) or of `JAL` (21 bits). -/
inductive Instr where
  -- upper immediates (R203, R204)
  | lui (rd : Reg) (imm20 : BitVec 20)
  | auipc (rd : Reg) (imm20 : BitVec 20)
  -- jumps and branches (R210 to R218)
  | jal (rd : Reg) (off : BitVec 21)
  | jalr (rd rs1 : Reg) (imm12 : BitVec 12)
  | beq (rs1 rs2 : Reg) (off : BitVec 13)
  | bne (rs1 rs2 : Reg) (off : BitVec 13)
  | blt (rs1 rs2 : Reg) (off : BitVec 13)
  | bge (rs1 rs2 : Reg) (off : BitVec 13)
  | bltu (rs1 rs2 : Reg) (off : BitVec 13)
  | bgeu (rs1 rs2 : Reg) (off : BitVec 13)
  -- loads (R231 to R235)
  | lb (rd rs1 : Reg) (imm12 : BitVec 12)
  | lh (rd rs1 : Reg) (imm12 : BitVec 12)
  | lw (rd rs1 : Reg) (imm12 : BitVec 12)
  | lbu (rd rs1 : Reg) (imm12 : BitVec 12)
  | lhu (rd rs1 : Reg) (imm12 : BitVec 12)
  -- stores (R237 to R239): `rs2` holds the data, `rs1` the base
  | sb (rs2 rs1 : Reg) (imm12 : BitVec 12)
  | sh (rs2 rs1 : Reg) (imm12 : BitVec 12)
  | sw (rs2 rs1 : Reg) (imm12 : BitVec 12)
  -- register-immediate (R251 to R259)
  | addi (rd rs1 : Reg) (imm12 : BitVec 12)
  | slti (rd rs1 : Reg) (imm12 : BitVec 12)
  | sltiu (rd rs1 : Reg) (imm12 : BitVec 12)
  | xori (rd rs1 : Reg) (imm12 : BitVec 12)
  | ori (rd rs1 : Reg) (imm12 : BitVec 12)
  | andi (rd rs1 : Reg) (imm12 : BitVec 12)
  | slli (rd rs1 : Reg) (shamt : BitVec 5)
  | srli (rd rs1 : Reg) (shamt : BitVec 5)
  | srai (rd rs1 : Reg) (shamt : BitVec 5)
  -- register-register (R272 to R281)
  | add (rd rs1 rs2 : Reg)
  | sub (rd rs1 rs2 : Reg)
  | sll (rd rs1 rs2 : Reg)
  | slt (rd rs1 rs2 : Reg)
  | sltu (rd rs1 rs2 : Reg)
  | xor (rd rs1 rs2 : Reg)
  | srl (rd rs1 rs2 : Reg)
  | sra (rd rs1 rs2 : Reg)
  | or (rd rs1 rs2 : Reg)
  | and (rd rs1 rs2 : Reg)
  -- FENCE (R326) keeps its reserved fields, which the decoder ignores (R179)
  | fence (fm pred succ : BitVec 4) (rs1 rd : Reg)
  -- environment call and breakpoint (R290, R291)
  | ecall
  | ebreak
  -- CSR access (R301 to R303, R310 to R312)
  | csrrw (rd : Reg) (csr : CsrAddr) (rs1 : Reg)
  | csrrs (rd : Reg) (csr : CsrAddr) (rs1 : Reg)
  | csrrc (rd : Reg) (csr : CsrAddr) (rs1 : Reg)
  | csrrwi (rd : Reg) (csr : CsrAddr) (uimm : BitVec 5)
  | csrrsi (rd : Reg) (csr : CsrAddr) (uimm : BitVec 5)
  | csrrci (rd : Reg) (csr : CsrAddr) (uimm : BitVec 5)
  -- trap return, wait, translation fence (R321 to R325)
  | uret
  | sret
  | mret
  | wfi
  | sfenceVma (rs1 rs2 : Reg)
  deriving DecidableEq, Repr

end Sys2Proof
end

