-- ==== Sys2Proof/WellFormed.lean ====
section
/-! DEFINITION. Which instruction terms an encoding exists for, and which parameter values R6 admits. -/

namespace Sys2Proof

/-- An instruction term is well formed when its operands are values its encoding can carry. Every
operand has the width of its field; the one further condition is that the byte offsets of `JAL` and
of the branches are even ("13 bits, always even", "21 bits, always even", R172). -/
def Instr.wf : Instr → Bool
  | .jal _ off => !off.getLsbD 0
  | .beq _ _ off => !off.getLsbD 0
  | .bne _ _ off => !off.getLsbD 0
  | .blt _ _ off => !off.getLsbD 0
  | .bge _ _ off => !off.getLsbD 0
  | .bltu _ _ off => !off.getLsbD 0
  | .bgeu _ _ off => !off.getLsbD 0
  | .lui .. | .auipc .. | .jalr .. => true
  | .lb .. | .lh .. | .lw .. | .lbu .. | .lhu .. | .sb .. | .sh .. | .sw .. => true
  | .addi .. | .slti .. | .sltiu .. | .xori .. | .ori .. | .andi .. => true
  | .slli .. | .srli .. | .srai .. => true
  | .add .. | .sub .. | .sll .. | .slt .. | .sltu .. | .xor .. | .srl .. | .sra .. => true
  | .or .. | .and .. => true
  | .fence .. | .ecall | .ebreak => true
  | .csrrw .. | .csrrs .. | .csrrc .. | .csrrwi .. | .csrrsi .. | .csrrci .. => true
  | .uret | .sret | .mret | .wfi | .sfenceVma .. => true

/-- A region lies inside the 34-bit physical address space (R80). -/
def Region.wf (r : Region) : Bool := decide (r.base + r.size ≤ 2 ^ 34)

/-- Two ranges of physical addresses have no address in common. -/
def disjointRanges (a n b m : Nat) : Bool := decide (a + n ≤ b ∨ b + m ≤ a)

/-- The numbers of a list rise strictly. -/
def strictlyRising : List Nat → Bool
  | a :: b :: rest => decide (a < b) && strictlyRising (b :: rest)
  | _ => true

/-- Parameter values a platform can have: an aligned reset vector (R90), regions inside the physical
address space (R80), ROM bytes listed as memory lists them, at least one hart, and hart id 0 where there
is one hart only (R74). DESIGN CHOICE (log entry 12): the addresses of `mtime` and `mtimecmp` are
multiples of 8, that of `msip` is a multiple of 4, and the three registers do not overlap; R6 leaves the
addresses OPEN, and no rule states an alignment. No rule of the machine depends on `Params.wf`. -/
def Params.wf (p : Params) : Bool :=
  decide (p.resetVector.extractLsb' 0 2 = 0#2)
    && p.memMap.all Region.wf
    && strictlyRising (p.romImage.map Prod.fst)
    && p.romImage.all (fun c => decide (c.1 < 2 ^ 34) && decide (c.2 ≠ 0#8))
    && decide (p.mtimeAddr.toNat % 8 = 0) && decide (p.mtimecmpAddr.toNat % 8 = 0)
    && decide (p.msipAddr.toNat % 4 = 0)
    && disjointRanges p.mtimeAddr.toNat 8 p.mtimecmpAddr.toNat 8
    && disjointRanges p.mtimeAddr.toNat 8 p.msipAddr.toNat 4
    && disjointRanges p.mtimecmpAddr.toNat 8 p.msipAddr.toNat 4
    && decide (1 ≤ p.nharts) && (decide (p.nharts ≠ 1) || decide (p.hartid = 0#32))

end Sys2Proof
end

