-- ==== Sys2Proof/Decode.lean ====
section
/-! DEFINITION. Decoding: from the bytes of an instruction to the instruction or a named reason it is
not one (R170 to R179), the encoder written from the same formats (R171 to R174), and the opcode
table itself as masks and matches (R187). All of it is the standard RV32I, Zicsr and privileged
encoding, which the spec supplies from general knowledge. -/

namespace Sys2Proof

/-- Why a word is not an instruction. Every one of them raises `IllegalInstr` (R175 to R177); the
names only say which rule refuses it. -/
inductive DecodeError where
  /-- Fewer than four bytes: not an instruction word at all (R170). -/
  | truncated
  /-- Bits [15:0] are zero: "this is a reserved bit pattern" (R176). -/
  | reservedZero
  /-- Bits [31:0] are one: "this a reserved bit pattern" (R176). -/
  | reservedOnes
  /-- Bits [1:0] are not 11: a 16-bit encoding, not implemented (R176). -/
  | sixteenBit
  /-- A major opcode that no instruction of the table has (R177). -/
  | unknownOpcode
  /-- A reserved `funct3` inside a known major opcode (R173). -/
  | reservedFunct3
  /-- A reserved `funct7`, multiply and divide among them, or a reserved `w[31:25]` of a shift (R173). -/
  | reservedFunct7
  /-- A word of the SYSTEM opcode with `funct3` = 000 that is none of R174's. -/
  | reservedSystem
  deriving DecidableEq, Repr

/-! ## Fields (R171) and immediates (R172) -/

def opcodeOf (w : Word) : BitVec 7 := w.extractLsb' 0 7
def rdOf (w : Word) : Reg := w.extractLsb' 7 5
def funct3Of (w : Word) : BitVec 3 := w.extractLsb' 12 3
def rs1Of (w : Word) : Reg := w.extractLsb' 15 5
def rs2Of (w : Word) : Reg := w.extractLsb' 20 5
def funct7Of (w : Word) : BitVec 7 := w.extractLsb' 25 7

/-- The 12 bits `immI` sign-extends; also the `csr` field. -/
def immIOf (w : Word) : BitVec 12 := w.extractLsb' 20 12
/-- The 12 bits `immS` sign-extends. -/
def immSOf (w : Word) : BitVec 12 := w.extractLsb' 25 7 ++ w.extractLsb' 7 5
/-- The 13 bits `immB` sign-extends. -/
def immBOf (w : Word) : BitVec 13 :=
  w.extractLsb' 31 1 ++ w.extractLsb' 7 1 ++ w.extractLsb' 25 6 ++ w.extractLsb' 8 4 ++ 0#1
/-- Bits 31:12, the upper bits of `immU`. -/
def immUOf (w : Word) : BitVec 20 := w.extractLsb' 12 20
/-- The 21 bits `immJ` sign-extends. -/
def immJOf (w : Word) : BitVec 21 :=
  w.extractLsb' 31 1 ++ w.extractLsb' 12 8 ++ w.extractLsb' 20 1 ++ w.extractLsb' 21 10 ++ 0#1

/-! ## The opcode map (R173, R174) -/

def decodeBranch (w : Word) : Except DecodeError Instr :=
  let f := funct3Of w
  if f = 0b000#3 then .ok (.beq (rs1Of w) (rs2Of w) (immBOf w))
  else if f = 0b001#3 then .ok (.bne (rs1Of w) (rs2Of w) (immBOf w))
  else if f = 0b100#3 then .ok (.blt (rs1Of w) (rs2Of w) (immBOf w))
  else if f = 0b101#3 then .ok (.bge (rs1Of w) (rs2Of w) (immBOf w))
  else if f = 0b110#3 then .ok (.bltu (rs1Of w) (rs2Of w) (immBOf w))
  else if f = 0b111#3 then .ok (.bgeu (rs1Of w) (rs2Of w) (immBOf w))
  else .error .reservedFunct3

def decodeLoad (w : Word) : Except DecodeError Instr :=
  let f := funct3Of w
  if f = 0b000#3 then .ok (.lb (rdOf w) (rs1Of w) (immIOf w))
  else if f = 0b001#3 then .ok (.lh (rdOf w) (rs1Of w) (immIOf w))
  else if f = 0b010#3 then .ok (.lw (rdOf w) (rs1Of w) (immIOf w))
  else if f = 0b100#3 then .ok (.lbu (rdOf w) (rs1Of w) (immIOf w))
  else if f = 0b101#3 then .ok (.lhu (rdOf w) (rs1Of w) (immIOf w))
  else .error .reservedFunct3

def decodeStore (w : Word) : Except DecodeError Instr :=
  let f := funct3Of w
  if f = 0b000#3 then .ok (.sb (rs2Of w) (rs1Of w) (immSOf w))
  else if f = 0b001#3 then .ok (.sh (rs2Of w) (rs1Of w) (immSOf w))
  else if f = 0b010#3 then .ok (.sw (rs2Of w) (rs1Of w) (immSOf w))
  else .error .reservedFunct3

def decodeOpImm (w : Word) : Except DecodeError Instr :=
  let f := funct3Of w
  let g := funct7Of w
  if f = 0b000#3 then .ok (.addi (rdOf w) (rs1Of w) (immIOf w))
  else if f = 0b010#3 then .ok (.slti (rdOf w) (rs1Of w) (immIOf w))
  else if f = 0b011#3 then .ok (.sltiu (rdOf w) (rs1Of w) (immIOf w))
  else if f = 0b100#3 then .ok (.xori (rdOf w) (rs1Of w) (immIOf w))
  else if f = 0b110#3 then .ok (.ori (rdOf w) (rs1Of w) (immIOf w))
  else if f = 0b111#3 then .ok (.andi (rdOf w) (rs1Of w) (immIOf w))
  else if f = 0b001#3 then
    if g = 0b0000000#7 then .ok (.slli (rdOf w) (rs1Of w) (rs2Of w))
    else .error .reservedFunct7
  else
    if g = 0b0000000#7 then .ok (.srli (rdOf w) (rs1Of w) (rs2Of w))
    else if g = 0b0100000#7 then .ok (.srai (rdOf w) (rs1Of w) (rs2Of w))
    else .error .reservedFunct7

def decodeOp (w : Word) : Except DecodeError Instr :=
  let f := funct3Of w
  let g := funct7Of w
  if g = 0b0000000#7 then
    if f = 0b000#3 then .ok (.add (rdOf w) (rs1Of w) (rs2Of w))
    else if f = 0b001#3 then .ok (.sll (rdOf w) (rs1Of w) (rs2Of w))
    else if f = 0b010#3 then .ok (.slt (rdOf w) (rs1Of w) (rs2Of w))
    else if f = 0b011#3 then .ok (.sltu (rdOf w) (rs1Of w) (rs2Of w))
    else if f = 0b100#3 then .ok (.xor (rdOf w) (rs1Of w) (rs2Of w))
    else if f = 0b101#3 then .ok (.srl (rdOf w) (rs1Of w) (rs2Of w))
    else if f = 0b110#3 then .ok (.or (rdOf w) (rs1Of w) (rs2Of w))
    else .ok (.and (rdOf w) (rs1Of w) (rs2Of w))
  else if g = 0b0100000#7 then
    if f = 0b000#3 then .ok (.sub (rdOf w) (rs1Of w) (rs2Of w))
    else if f = 0b101#3 then .ok (.sra (rdOf w) (rs1Of w) (rs2Of w))
    else .error .reservedFunct7
  else .error .reservedFunct7

/-- The SYSTEM opcode (R174): with `funct3` = 000 the whole word selects the instruction. -/
def decodeSystem (w : Word) : Except DecodeError Instr :=
  let f := funct3Of w
  if f = 0b000#3 then
    if w = 0x00000073#32 then .ok .ecall
    else if w = 0x00100073#32 then .ok .ebreak
    else if w = 0x00200073#32 then .ok .uret
    else if w = 0x10200073#32 then .ok .sret
    else if w = 0x30200073#32 then .ok .mret
    else if w = 0x10500073#32 then .ok .wfi
    else if funct7Of w = 0b0001001#7 ∧ rdOf w = 0b00000#5 then .ok (.sfenceVma (rs1Of w) (rs2Of w))
    else .error .reservedSystem
  else if f = 0b001#3 then .ok (.csrrw (rdOf w) (immIOf w) (rs1Of w))
  else if f = 0b010#3 then .ok (.csrrs (rdOf w) (immIOf w) (rs1Of w))
  else if f = 0b011#3 then .ok (.csrrc (rdOf w) (immIOf w) (rs1Of w))
  else if f = 0b101#3 then .ok (.csrrwi (rdOf w) (immIOf w) (rs1Of w))
  else if f = 0b110#3 then .ok (.csrrsi (rdOf w) (immIOf w) (rs1Of w))
  else if f = 0b111#3 then .ok (.csrrci (rdOf w) (immIOf w) (rs1Of w))
  else .error .reservedFunct3

/-- R173: the major opcode, then the fields that select further. -/
def decodeMajor (w : Word) : Except DecodeError Instr :=
  let op := opcodeOf w
  if op = 0b0110111#7 then .ok (.lui (rdOf w) (immUOf w))
  else if op = 0b0010111#7 then .ok (.auipc (rdOf w) (immUOf w))
  else if op = 0b1101111#7 then .ok (.jal (rdOf w) (immJOf w))
  else if op = 0b1100111#7 then
    if funct3Of w = 0b000#3 then .ok (.jalr (rdOf w) (rs1Of w) (immIOf w))
    else .error .reservedFunct3
  else if op = 0b1100011#7 then decodeBranch w
  else if op = 0b0000011#7 then decodeLoad w
  else if op = 0b0100011#7 then decodeStore w
  else if op = 0b0010011#7 then decodeOpImm w
  else if op = 0b0110011#7 then decodeOp w
  else if op = 0b0001111#7 then
    if funct3Of w = 0b000#3 then
      .ok (.fence (w.extractLsb' 28 4) (w.extractLsb' 24 4) (w.extractLsb' 20 4) (rs1Of w) (rdOf w))
    else .error .reservedFunct3
  else if op = 0b1110011#7 then decodeSystem w
  else .error .unknownOpcode

/-- R175 (1) and (2): the reserved patterns of R176, then the opcode map. -/
def decode (w : Word) : Except DecodeError Instr :=
  if w.extractLsb' 0 16 = 0#16 then .error .reservedZero
  else if w = 0xFFFFFFFF#32 then .error .reservedOnes
  else if w.extractLsb' 0 2 ≠ 0b11#2 then .error .sixteenBit
  else decodeMajor w

/-- The word that four bytes in memory order make: little-endian (R102, R170). -/
def wordOfBytes (b0 b1 b2 b3 : Byte) : Word := b3 ++ b2 ++ b1 ++ b0

/-- The decoder on the bytes of an instruction in memory order. Every instruction is four bytes. -/
def decodeBytes : List Byte → Except DecodeError Instr
  | b0 :: b1 :: b2 :: b3 :: _ => decode (wordOfBytes b0 b1 b2 b3)
  | _ => .error .truncated

/-- The four bytes of a word in memory order: the least significant first (R102). -/
def bytesOfWord (w : Word) : List Byte :=
  [w.extractLsb' 0 8, w.extractLsb' 8 8, w.extractLsb' 16 8, w.extractLsb' 24 8]

/-- The word of an instruction whose low `nbits` bits are given; the bits above them are 0. -/
def tableWord (nbits w : Nat) : Word := BitVec.ofNat 32 (w % 2 ^ nbits)

/-- The instruction the decoder reads from the bits of an opcode-table row, laid out in memory order. -/
def decodeTableWord (nbits w : Nat) : Option Instr :=
  match decodeBytes (bytesOfWord (tableWord nbits w)) with
  | .ok i => some i
  | .error _ => none

/-! ## The encoder -/

/-- R format (R171). -/
def encR (f7 : BitVec 7) (rs2 rs1 : Reg) (f3 : BitVec 3) (rd : Reg) (op : BitVec 7) : Word :=
  f7 ++ rs2 ++ rs1 ++ f3 ++ rd ++ op

/-- I format (R171). -/
def encI (imm : BitVec 12) (rs1 : Reg) (f3 : BitVec 3) (rd : Reg) (op : BitVec 7) : Word :=
  imm ++ rs1 ++ f3 ++ rd ++ op

/-- S format (R171). -/
def encS (imm : BitVec 12) (rs2 rs1 : Reg) (f3 : BitVec 3) (op : BitVec 7) : Word :=
  imm.extractLsb' 5 7 ++ rs2 ++ rs1 ++ f3 ++ imm.extractLsb' 0 5 ++ op

/-- B format (R171); bit 0 of the offset has no place in the word. -/
def encB (off : BitVec 13) (rs2 rs1 : Reg) (f3 : BitVec 3) : Word :=
  off.extractLsb' 12 1 ++ off.extractLsb' 5 6 ++ rs2 ++ rs1 ++ f3 ++ off.extractLsb' 1 4
    ++ off.extractLsb' 11 1 ++ 0b1100011#7

/-- U format (R171). -/
def encU (imm : BitVec 20) (rd : Reg) (op : BitVec 7) : Word := imm ++ rd ++ op

/-- J format (R171); bit 0 of the offset has no place in the word. -/
def encJ (off : BitVec 21) (rd : Reg) (op : BitVec 7) : Word :=
  off.extractLsb' 20 1 ++ off.extractLsb' 1 10 ++ off.extractLsb' 11 1 ++ off.extractLsb' 12 8
    ++ rd ++ op

/-- The word of an instruction. -/
def encode : Instr → Word
  | .lui rd imm => encU imm rd 0b0110111#7
  | .auipc rd imm => encU imm rd 0b0010111#7
  | .jal rd off => encJ off rd 0b1101111#7
  | .jalr rd rs1 imm => encI imm rs1 0b000#3 rd 0b1100111#7
  | .beq rs1 rs2 off => encB off rs2 rs1 0b000#3
  | .bne rs1 rs2 off => encB off rs2 rs1 0b001#3
  | .blt rs1 rs2 off => encB off rs2 rs1 0b100#3
  | .bge rs1 rs2 off => encB off rs2 rs1 0b101#3
  | .bltu rs1 rs2 off => encB off rs2 rs1 0b110#3
  | .bgeu rs1 rs2 off => encB off rs2 rs1 0b111#3
  | .lb rd rs1 imm => encI imm rs1 0b000#3 rd 0b0000011#7
  | .lh rd rs1 imm => encI imm rs1 0b001#3 rd 0b0000011#7
  | .lw rd rs1 imm => encI imm rs1 0b010#3 rd 0b0000011#7
  | .lbu rd rs1 imm => encI imm rs1 0b100#3 rd 0b0000011#7
  | .lhu rd rs1 imm => encI imm rs1 0b101#3 rd 0b0000011#7
  | .sb rs2 rs1 imm => encS imm rs2 rs1 0b000#3 0b0100011#7
  | .sh rs2 rs1 imm => encS imm rs2 rs1 0b001#3 0b0100011#7
  | .sw rs2 rs1 imm => encS imm rs2 rs1 0b010#3 0b0100011#7
  | .addi rd rs1 imm => encI imm rs1 0b000#3 rd 0b0010011#7
  | .slti rd rs1 imm => encI imm rs1 0b010#3 rd 0b0010011#7
  | .sltiu rd rs1 imm => encI imm rs1 0b011#3 rd 0b0010011#7
  | .xori rd rs1 imm => encI imm rs1 0b100#3 rd 0b0010011#7
  | .ori rd rs1 imm => encI imm rs1 0b110#3 rd 0b0010011#7
  | .andi rd rs1 imm => encI imm rs1 0b111#3 rd 0b0010011#7
  | .slli rd rs1 sh => encR 0b0000000#7 sh rs1 0b001#3 rd 0b0010011#7
  | .srli rd rs1 sh => encR 0b0000000#7 sh rs1 0b101#3 rd 0b0010011#7
  | .srai rd rs1 sh => encR 0b0100000#7 sh rs1 0b101#3 rd 0b0010011#7
  | .add rd rs1 rs2 => encR 0b0000000#7 rs2 rs1 0b000#3 rd 0b0110011#7
  | .sub rd rs1 rs2 => encR 0b0100000#7 rs2 rs1 0b000#3 rd 0b0110011#7
  | .sll rd rs1 rs2 => encR 0b0000000#7 rs2 rs1 0b001#3 rd 0b0110011#7
  | .slt rd rs1 rs2 => encR 0b0000000#7 rs2 rs1 0b010#3 rd 0b0110011#7
  | .sltu rd rs1 rs2 => encR 0b0000000#7 rs2 rs1 0b011#3 rd 0b0110011#7
  | .xor rd rs1 rs2 => encR 0b0000000#7 rs2 rs1 0b100#3 rd 0b0110011#7
  | .srl rd rs1 rs2 => encR 0b0000000#7 rs2 rs1 0b101#3 rd 0b0110011#7
  | .sra rd rs1 rs2 => encR 0b0100000#7 rs2 rs1 0b101#3 rd 0b0110011#7
  | .or rd rs1 rs2 => encR 0b0000000#7 rs2 rs1 0b110#3 rd 0b0110011#7
  | .and rd rs1 rs2 => encR 0b0000000#7 rs2 rs1 0b111#3 rd 0b0110011#7
  | .fence fm pred succ rs1 rd => encI (fm ++ pred ++ succ) rs1 0b000#3 rd 0b0001111#7
  | .ecall => 0x00000073#32
  | .ebreak => 0x00100073#32
  | .csrrw rd csr rs1 => encI csr rs1 0b001#3 rd 0b1110011#7
  | .csrrs rd csr rs1 => encI csr rs1 0b010#3 rd 0b1110011#7
  | .csrrc rd csr rs1 => encI csr rs1 0b011#3 rd 0b1110011#7
  | .csrrwi rd csr uimm => encI csr uimm 0b101#3 rd 0b1110011#7
  | .csrrsi rd csr uimm => encI csr uimm 0b110#3 rd 0b1110011#7
  | .csrrci rd csr uimm => encI csr uimm 0b111#3 rd 0b1110011#7
  | .uret => 0x00200073#32
  | .sret => 0x10200073#32
  | .mret => 0x30200073#32
  | .wfi => 0x10500073#32
  | .sfenceVma rs1 rs2 => encR 0b0001001#7 rs2 rs1 0b000#3 0b00000#5 0b1110011#7

/-! ## The opcode table -/

/-- One row of spec/opcode_table.json: a word is this instruction exactly when `(w & mask) = pattern`
(R187). -/
structure OpcodeRow where
  mnemonic : String
  pattern : Word
  mask : Word
  deriving DecidableEq, Repr

/-- A word matches a row (R175 (2)). -/
def OpcodeRow.matchesWord (r : OpcodeRow) (w : Word) : Bool := decide (w &&& r.mask = r.pattern)

/-- The rows of the base instructions, in the table's order. -/
def opcodeRowsBase : List OpcodeRow := [
  ⟨"LUI", 0x00000037, 0x0000007F⟩, ⟨"AUIPC", 0x00000017, 0x0000007F⟩,
  ⟨"JAL", 0x0000006F, 0x0000007F⟩, ⟨"JALR", 0x00000067, 0x0000707F⟩,
  ⟨"BEQ", 0x00000063, 0x0000707F⟩, ⟨"BNE", 0x00001063, 0x0000707F⟩,
  ⟨"BLT", 0x00004063, 0x0000707F⟩, ⟨"BGE", 0x00005063, 0x0000707F⟩,
  ⟨"BLTU", 0x00006063, 0x0000707F⟩, ⟨"BGEU", 0x00007063, 0x0000707F⟩,
  ⟨"LB", 0x00000003, 0x0000707F⟩, ⟨"LH", 0x00001003, 0x0000707F⟩,
  ⟨"LW", 0x00002003, 0x0000707F⟩, ⟨"LBU", 0x00004003, 0x0000707F⟩,
  ⟨"LHU", 0x00005003, 0x0000707F⟩,
  ⟨"SB", 0x00000023, 0x0000707F⟩, ⟨"SH", 0x00001023, 0x0000707F⟩,
  ⟨"SW", 0x00002023, 0x0000707F⟩]

/-- The rows of the register-immediate and register-register instructions. -/
def opcodeRowsInteger : List OpcodeRow := [
  ⟨"ADDI", 0x00000013, 0x0000707F⟩, ⟨"SLTI", 0x00002013, 0x0000707F⟩,
  ⟨"SLTIU", 0x00003013, 0x0000707F⟩, ⟨"XORI", 0x00004013, 0x0000707F⟩,
  ⟨"ORI", 0x00006013, 0x0000707F⟩, ⟨"ANDI", 0x00007013, 0x0000707F⟩,
  ⟨"SLLI", 0x00001013, 0xFE00707F⟩, ⟨"SRLI", 0x00005013, 0xFE00707F⟩,
  ⟨"SRAI", 0x40005013, 0xFE00707F⟩,
  ⟨"ADD", 0x00000033, 0xFE00707F⟩, ⟨"SUB", 0x40000033, 0xFE00707F⟩,
  ⟨"SLL", 0x00001033, 0xFE00707F⟩, ⟨"SLT", 0x00002033, 0xFE00707F⟩,
  ⟨"SLTU", 0x00003033, 0xFE00707F⟩, ⟨"XOR", 0x00004033, 0xFE00707F⟩,
  ⟨"SRL", 0x00005033, 0xFE00707F⟩, ⟨"SRA", 0x40005033, 0xFE00707F⟩,
  ⟨"OR", 0x00006033, 0xFE00707F⟩, ⟨"AND", 0x00007033, 0xFE00707F⟩]

/-- The rows of `FENCE` and the system instructions. -/
def opcodeRowsSystem : List OpcodeRow := [
  ⟨"FENCE", 0x0000000F, 0x0000707F⟩,
  ⟨"ECALL", 0x00000073, 0xFFFFFFFF⟩, ⟨"EBREAK", 0x00100073, 0xFFFFFFFF⟩,
  ⟨"CSRRW", 0x00001073, 0x0000707F⟩, ⟨"CSRRS", 0x00002073, 0x0000707F⟩,
  ⟨"CSRRC", 0x00003073, 0x0000707F⟩, ⟨"CSRRWI", 0x00005073, 0x0000707F⟩,
  ⟨"CSRRSI", 0x00006073, 0x0000707F⟩, ⟨"CSRRCI", 0x00007073, 0x0000707F⟩,
  ⟨"URET", 0x00200073, 0xFFFFFFFF⟩, ⟨"SRET", 0x10200073, 0xFFFFFFFF⟩,
  ⟨"MRET", 0x30200073, 0xFFFFFFFF⟩, ⟨"WFI", 0x10500073, 0xFFFFFFFF⟩,
  ⟨"SFENCE.VMA", 0x12000073, 0xFE007FFF⟩]

/-- The opcode table: 51 rows (R187). -/
def opcodeRows : List OpcodeRow := opcodeRowsBase ++ opcodeRowsInteger ++ opcodeRowsSystem

/-- The mnemonic of an instruction, as the table spells it. -/
def mnemonicOf : Instr → String
  | .lui .. => "LUI"
  | .auipc .. => "AUIPC"
  | .jal .. => "JAL"
  | .jalr .. => "JALR"
  | .beq .. => "BEQ"
  | .bne .. => "BNE"
  | .blt .. => "BLT"
  | .bge .. => "BGE"
  | .bltu .. => "BLTU"
  | .bgeu .. => "BGEU"
  | .lb .. => "LB"
  | .lh .. => "LH"
  | .lw .. => "LW"
  | .lbu .. => "LBU"
  | .lhu .. => "LHU"
  | .sb .. => "SB"
  | .sh .. => "SH"
  | .sw .. => "SW"
  | .addi .. => "ADDI"
  | .slti .. => "SLTI"
  | .sltiu .. => "SLTIU"
  | .xori .. => "XORI"
  | .ori .. => "ORI"
  | .andi .. => "ANDI"
  | .slli .. => "SLLI"
  | .srli .. => "SRLI"
  | .srai .. => "SRAI"
  | .add .. => "ADD"
  | .sub .. => "SUB"
  | .sll .. => "SLL"
  | .slt .. => "SLT"
  | .sltu .. => "SLTU"
  | .xor .. => "XOR"
  | .srl .. => "SRL"
  | .sra .. => "SRA"
  | .or .. => "OR"
  | .and .. => "AND"
  | .fence .. => "FENCE"
  | .ecall => "ECALL"
  | .ebreak => "EBREAK"
  | .csrrw .. => "CSRRW"
  | .csrrs .. => "CSRRS"
  | .csrrc .. => "CSRRC"
  | .csrrwi .. => "CSRRWI"
  | .csrrsi .. => "CSRRSI"
  | .csrrci .. => "CSRRCI"
  | .uret => "URET"
  | .sret => "SRET"
  | .mret => "MRET"
  | .wfi => "WFI"
  | .sfenceVma .. => "SFENCE.VMA"

end Sys2Proof
end

