-- ==== Sys2Proof/Machine/State.lean ====
section
/-! DEFINITION. The state of the hart as plain data: everything 10_state.md gives it, the parameters it
runs with, and the four bookkeeping fields of the model itself (`stored`, `msipStored`, `inputs`,
`tick`). -/

namespace Sys2Proof.Machine

/-- The privilege modes the hart has (R23, R400): user, supervisor, machine. The encoding `10` is never
held, so it has no constructor. -/
inductive Priv where
  | U
  | S
  | M
  deriving DecidableEq, Repr

/-- The synchronous exceptions, by the short names of R401. -/
inductive Exc where
  | instrAddrMisaligned
  | instrAccessFault
  | illegalInstr
  | breakpoint
  | loadAddrMisaligned
  | loadAccessFault
  | storeAddrMisaligned
  | storeAccessFault
  | ecallFromU
  | ecallFromS
  | ecallFromM
  | instrPageFault
  | loadPageFault
  | storePageFault
  deriving DecidableEq, Repr

/-- The nine interrupts (R481): user, supervisor and machine software, timer and external. -/
inductive Interrupt where
  | userSoftware
  | supervisorSoftware
  | machineSoftware
  | userTimer
  | supervisorTimer
  | machineTimer
  | userExternal
  | supervisorExternal
  | machineExternal
  deriving DecidableEq, Repr

/-- What a trap is taken for: the inputs `is_interrupt` and `code` of R420. -/
inductive Cause where
  | exception (e : Exc)
  | interrupt (i : Interrupt)
  deriving DecidableEq, Repr

/-- An exception on its way to being taken: `raise E(tval)` of R11. -/
structure Raised where
  exc : Exc
  tval : Word
  deriving DecidableEq, Repr

/-- The writable fields of `mstatus` (R40). `SD`, `XS`, `FS` and the reserved bits are hardwired to zero
(R41, R28) and hold no state; `MPP` is a mode the hart has (R44). -/
structure Mstatus where
  tsr : Bool
  tw : Bool
  tvm : Bool
  mxr : Bool
  sum : Bool
  mprv : Bool
  mpp : Priv
  spp : Bool
  mpie : Bool
  spie : Bool
  upie : Bool
  mie : Bool
  sie : Bool
  uie : Bool
  deriving DecidableEq, Repr

/-- A trap-vector register (R54): `BASE` in bits 31:2, and `MODE`, which is direct or vectored. -/
structure Tvec where
  base : BitVec 30
  vectored : Bool
  deriving DecidableEq, Repr

/-- The address-matching mode of a PMP entry, field `A` (R71). -/
inductive PmpMode where
  | off
  | tor
  | na4
  | napot
  deriving DecidableEq, Repr

/-- The 8-bit configuration of a PMP entry (R71, Figure 21); bits 6:5 are hardwired to zero. -/
structure PmpCfg where
  l : Bool
  a : PmpMode
  x : Bool
  w : Bool
  r : Bool
  deriving DecidableEq, Repr

/-- Main memory: the listed bytes, in rising order of physical address; an address that is not listed
reads as `Memory.unlisted` (log entry 3). -/
abbrev Memory := List Host.Cell

/-- The state of the hart and its platform. -/
structure State where
  /-- The parameters of R6; no step changes them. -/
  cfg : Params
  /-- The general registers `x0` to `x31` (R20). The slot of `x0` is never read and never written. -/
  x : Vector Word 32
  /-- The program counter (R22). -/
  pc : Word
  /-- The current privilege mode (R23). -/
  priv : Priv
  /-- `mstatus`, of which `sstatus` and `ustatus` are views (R40 to R53). -/
  mstatus : Mstatus
  /-- `mtvec`, `stvec`, `utvec` (R54). -/
  mtvec : Tvec
  stvec : Tvec
  utvec : Tvec
  /-- `mepc`, `sepc`, `uepc` (R55). -/
  mepc : Word
  sepc : Word
  uepc : Word
  /-- `mcause`, `scause`, `ucause` (R56). -/
  mcause : Word
  scause : Word
  ucause : Word
  /-- `mtval`, `stval`, `utval` (R57). -/
  mtval : Word
  stval : Word
  utval : Word
  /-- `medeleg`, `mideleg`, `sedeleg`, `sideleg` (R60 to R63). -/
  medeleg : Word
  mideleg : Word
  sedeleg : Word
  sideleg : Word
  /-- `mie`, of which `sie` and `uie` are views (R64, R66, R67). -/
  mie : Word
  /-- The software-written bits of `mip` (R65, R489): `seip_sw` in bit 9, then `UEIP` 8, `STIP` 5,
  `UTIP` 4, `SSIP` 1, `USIP` 0. -/
  mipSw : Word
  /-- `satp` (R68). -/
  satp : Word
  /-- `mcounteren`, `scounteren` (R69). -/
  mcounteren : Word
  scounteren : Word
  /-- `mcycle` and `minstret`, 64 bits each (R70). -/
  mcycle : DWord
  minstret : DWord
  /-- The configuration of each PMP entry: `pmpcfg0` to `pmpcfg3` (R71). -/
  pmpcfg : Vector PmpCfg 16
  /-- `pmpaddr0` to `pmpaddr15` (R72). -/
  pmpaddr : Vector Word 16
  /-- `mscratch`, `sscratch`, `uscratch` (R73). -/
  mscratch : Word
  sscratch : Word
  uscratch : Word
  /-- The `WFI` stall (R85). -/
  wfiStalled : Bool
  /-- The platform timer and its comparator (R86). -/
  mtime : DWord
  mtimecmp : DWord
  /-- The PLIC's lines and the CLINT's software-interrupt bit, as this step samples them (R87, R503). -/
  meipLine : Bool
  seipLine : Bool
  msipBit : Bool
  /-- Main memory (R100, R101). -/
  mem : Memory
  /-- MODEL'S OWN: the physical addresses stored to since loading, rising (R148, log entry 8). -/
  stored : List Nat
  /-- MODEL'S OWN: another hart has stored to `msip` since loading, as an input of the platform said
  (R148, R488, log entry 8). -/
  msipStored : Bool
  /-- MODEL'S OWN: what agents outside the hart will do before the coming steps; after the listed
  inputs the platform is free (log entry 4). -/
  inputs : List StepInput
  /-- MODEL'S OWN: the number of steps so far, which the free values are drawn by. -/
  tick : Nat
  deriving DecidableEq, Repr

/-- Why a step could stop the machine for good. Nothing does: every condition the spec describes as an
error is an exception the hart takes, and "there is no double-fault mechanism, no fault-in-handler
state and no shutdown condition" (R432). So no constructor, and no step raises one (safe). -/
inductive Fault where
  deriving DecidableEq, Repr

/-- Why the model gives a step no meaning. -/
inductive Refusal where
  /-- Raised by an arm of `exec` whose instruction has no meaning yet. Safe: nothing follows from it. -/
  | notModelled (mnemonic : String)
  /-- Raised by the fetch of a word one of whose bytes was stored to since it was loaded: "a model
  should refuse such a fetch" (R148, R562, D21). Safe: nothing follows from it. -/
  | fetchOfStoredBytes
  deriving DecidableEq, Repr

/-- The outcome of an instruction or a step. -/
abbrev Out := Host.Outcome State Fault Refusal

/-- `mstatus` after reset: `MIE` and `MPRV` are 0 (R90); the other fields are unspecified there and
zero here, `MPP` = 00 (log entry 2). -/
def Mstatus.reset : Mstatus where
  tsr := false
  tw := false
  tvm := false
  mxr := false
  sum := false
  mprv := false
  mpp := .U
  spp := false
  mpie := false
  spie := false
  upie := false
  mie := false
  sie := false
  uie := false

/-- The machine right after reset with parameters `p` (R90, R540): M-mode, `pc` at the reset vector,
`mcause` 0, every PMP entry OFF and unlocked, no stall, memory holding what ROM declares. Every value
R90 leaves unspecified is zero (log entry 2). -/
def State.resetWith (p : Params) : State where
  cfg := p
  x := Vector.replicate 32 0#32
  pc := p.resetVector
  priv := .M
  mstatus := Mstatus.reset
  mtvec := ⟨0#30, false⟩
  stvec := ⟨0#30, false⟩
  utvec := ⟨0#30, false⟩
  mepc := 0#32
  sepc := 0#32
  uepc := 0#32
  mcause := 0#32
  scause := 0#32
  ucause := 0#32
  mtval := 0#32
  stval := 0#32
  utval := 0#32
  medeleg := 0#32
  mideleg := 0#32
  sedeleg := 0#32
  sideleg := 0#32
  mie := 0#32
  mipSw := 0#32
  satp := 0#32
  mcounteren := 0#32
  scounteren := 0#32
  mcycle := 0#64
  minstret := 0#64
  pmpcfg := Vector.replicate 16 ⟨false, .off, false, false, false⟩
  pmpaddr := Vector.replicate 16 0#32
  mscratch := 0#32
  sscratch := 0#32
  uscratch := 0#32
  wfiStalled := false
  mtime := 0#64
  mtimecmp := 0#64
  meipLine := false
  seipLine := false
  msipBit := false
  mem := p.romImage
  stored := []
  msipStored := false
  inputs := []
  tick := 0

/-- The machine right after reset, with the default parameters. -/
def State.reset : State := State.resetWith Params.default

end Sys2Proof.Machine
end

