-- ==== Sys2Proof/Machine/Flags.lean ====
section
/-! DEFINITION. The hart has no condition codes (R24): what takes their place are the comparisons of the
branches and of the set-less-than instructions, and the fields of `mstatus` and of the other
registers that are read and written as words (R28). -/

namespace Sys2Proof.Machine

/-! ## Comparisons (R8, R271) -/

/-- `a <s b`. -/
def ltSigned (a b : Word) : Bool := a.slt b

/-- `a <u b`. -/
def ltUnsigned (a b : Word) : Bool := a.ult b

/-- 1 or 0, as the set-less-than instructions write it (R252). -/
def boolWord (b : Bool) : Word := if b then 1#32 else 0#32

/-! ## Privilege modes (R23) -/

/-- The encoding of a mode: `00` U, `01` S, `11` M. -/
def Priv.encoding : Priv → BitVec 2
  | .U => 0b00#2
  | .S => 0b01#2
  | .M => 0b11#2

/-- The mode an encoding stands for; `10` is reserved. -/
def Priv.ofEncoding (b : BitVec 2) : Option Priv :=
  if b = 0b00#2 then some .U
  else if b = 0b01#2 then some .S
  else if b = 0b11#2 then some .M
  else none

/-- `p < q`, comparing the encodings as unsigned numbers (R9). -/
def Priv.below (p q : Priv) : Bool := p.encoding.ult q.encoding

/-! ## `mstatus` as a word (R40) -/

/-- The word a read of `mstatus` gives: `SD` 31, `TSR` 22, `TW` 21, `TVM` 20, `MXR` 19, `SUM` 18,
`MPRV` 17, `XS` 16:15, `FS` 14:13, `MPP` 12:11, `SPP` 8, `MPIE` 7, `SPIE` 5, `UPIE` 4, `MIE` 3,
`SIE` 1, `UIE` 0; `SD`, `XS`, `FS` and every other bit read 0 (R41, R28). -/
def Mstatus.toWord (m : Mstatus) : Word :=
  0#9 ++ BitVec.ofBool m.tsr ++ BitVec.ofBool m.tw ++ BitVec.ofBool m.tvm ++ BitVec.ofBool m.mxr
    ++ BitVec.ofBool m.sum ++ BitVec.ofBool m.mprv ++ 0#4 ++ m.mpp.encoding ++ 0#2
    ++ BitVec.ofBool m.spp ++ BitVec.ofBool m.mpie ++ 0#1 ++ BitVec.ofBool m.spie
    ++ BitVec.ofBool m.upie ++ BitVec.ofBool m.mie ++ 0#1 ++ BitVec.ofBool m.sie
    ++ BitVec.ofBool m.uie

/-- A write of the word `v` to `mstatus`: every writable field takes its bit, and `MPP` keeps its
value where `v` holds the reserved `10` (R44, D32). -/
def Mstatus.write (m : Mstatus) (v : Word) : Mstatus where
  tsr := v.getLsbD 22
  tw := v.getLsbD 21
  tvm := v.getLsbD 20
  mxr := v.getLsbD 19
  sum := v.getLsbD 18
  mprv := v.getLsbD 17
  mpp := (Priv.ofEncoding (v.extractLsb' 11 2)).getD m.mpp
  spp := v.getLsbD 8
  mpie := v.getLsbD 7
  spie := v.getLsbD 5
  upie := v.getLsbD 4
  mie := v.getLsbD 3
  sie := v.getLsbD 1
  uie := v.getLsbD 0

/-- The bits of `mstatus` that `sstatus` shows (R52): `MXR`, `SUM`, `SPP`, `SPIE`, `UPIE`, `SIE`, `UIE`. -/
def sstatusMask : Word := 0x000C0133#32

/-- The bits of `mstatus` that `ustatus` shows (R53): `UPIE`, `UIE`. -/
def ustatusMask : Word := 0x00000011#32

/-- `old` with the bits of `mask` taken from `v`: a write through a view (R52, R66). -/
def maskedWrite (mask old v : Word) : Word := (old &&& ~~~mask) ||| (v &&& mask)

/-! ## `xtvec` as a word (R54) -/

/-- The word a read of a trap-vector register gives: `BASE` in 31:2, `MODE` in 1:0. -/
def Tvec.toWord (t : Tvec) : Word := t.base ++ 0#1 ++ BitVec.ofBool t.vectored

/-- A write of `v`: `MODE` 0 is direct, 1 vectored; a reserved `MODE` leaves the register (R54, D23). -/
def Tvec.write (t : Tvec) (v : Word) : Tvec :=
  if v.getLsbD 1 then t else ⟨v.extractLsb' 2 30, v.getLsbD 0⟩

/-- The base address `{BASE, 00}`. -/
def Tvec.baseAddress (t : Tvec) : Word := t.base ++ 0#2

/-! ## PMP configuration as a byte (R71) -/

/-- The encoding of field `A`: OFF, TOR, NA4, NAPOT. -/
def PmpMode.encoding : PmpMode → BitVec 2
  | .off => 0b00#2
  | .tor => 0b01#2
  | .na4 => 0b10#2
  | .napot => 0b11#2

/-- The mode a value of field `A` stands for. -/
def PmpMode.ofEncoding (b : BitVec 2) : PmpMode :=
  if b = 0b00#2 then .off
  else if b = 0b01#2 then .tor
  else if b = 0b10#2 then .na4
  else .napot

/-- The byte of an entry: `L` 7, zero 6:5, `A` 4:3, `X` 2, `W` 1, `R` 0. -/
def PmpCfg.toByte (c : PmpCfg) : Byte :=
  BitVec.ofBool c.l ++ 0#2 ++ c.a.encoding ++ BitVec.ofBool c.x ++ BitVec.ofBool c.w
    ++ BitVec.ofBool c.r

/-- The configuration a written byte leaves; bits 6:5 are dropped, `R` = 0 with `W` = 1 is kept (U10). -/
def PmpCfg.ofByte (b : Byte) : PmpCfg where
  l := b.getLsbD 7
  a := PmpMode.ofEncoding (b.extractLsb' 3 2)
  x := b.getLsbD 2
  w := b.getLsbD 1
  r := b.getLsbD 0

/-! ## Writable masks (R55, R60 to R69) -/

/-- `MEDELEG_MASK`: codes 0 to 9, 12, 13, 15 (R60). -/
def medelegMask : Word := 0x0000B3FF#32
/-- `MIDELEG_MASK`: codes 0, 1, 4, 5, 8, 9 (R61). -/
def midelegMask : Word := 0x00000333#32
/-- `SEDELEG_MASK`: codes 0 to 8, 12, 13, 15 (R62). -/
def sedelegMask : Word := 0x0000B1FF#32
/-- `SIDELEG_MASK`: codes 0, 4, 8 (R63). -/
def sidelegMask : Word := 0x00000111#32
/-- The nine implemented bits of `mie` and `mip` (R64, R65). -/
def mieMask : Word := 0x00000BBB#32
/-- The bits of `mip` a CSR write from M-mode changes (R65). -/
def mipWriteMask : Word := 0x00000333#32
/-- The bits of `mip` a write through `sip` may change, where delegated: `SSIP`, `UEIP`, `UTIP`, `USIP` (R66). -/
def sipWriteMask : Word := 0x00000113#32
/-- The bit of `mip` a write through `uip` may change, where delegated: `USIP` (R67). -/
def uipWriteMask : Word := 0x00000001#32
/-- `satp`: `MODE` 31 and `PPN` 21:0; `ASID` is hardwired to 0 (R68). -/
def satpMask : Word := 0x803FFFFF#32
/-- `CY`, `TM`, `IR` of `mcounteren` and `scounteren` (R69). -/
def counterenMask : Word := 0x00000007#32
/-- `xepc`: bits 1:0 are hardwired to 00 (R55). -/
def epcMask : Word := 0xFFFFFFFC#32

/-! ## Hardwired bits, as every reader of a register sees it

The masked registers are read through these, so a bit the spec hardwires to 0 is 0 for the rules
that use the register as well as for the instruction that reads it (log entry 15). -/

def State.medelegBits (s : State) : Word := s.medeleg &&& medelegMask
def State.midelegBits (s : State) : Word := s.mideleg &&& midelegMask
def State.sedelegBits (s : State) : Word := s.sedeleg &&& sedelegMask
def State.sidelegBits (s : State) : Word := s.sideleg &&& sidelegMask
def State.mieBits (s : State) : Word := s.mie &&& mieMask
def State.satpBits (s : State) : Word := s.satp &&& satpMask
def State.mcounterenBits (s : State) : Word := s.mcounteren &&& counterenMask
def State.scounterenBits (s : State) : Word := s.scounteren &&& counterenMask

end Sys2Proof.Machine
end

