-- ==== Sys2Proof/Machine/Operands.lean ====
section
/-! DEFINITION. Operand forms: the immediates as 32-bit values (R172), the effective address of a load or
store, the targets of jumps and branches, and the shift amounts. -/

namespace Sys2Proof.Machine

/-- `immI` and `immS`: 12 bits, sign-extended (R172). -/
def imm12Word (imm : BitVec 12) : Word := imm.signExtend 32

/-- `immU`: 20 bits in 31:12, the low twelve zero (R172). -/
def imm20Word (imm : BitVec 20) : Word := imm ++ 0#12

/-- `immB`: a 13-bit byte offset, sign-extended (R172). -/
def offset13Word (off : BitVec 13) : Word := off.signExtend 32

/-- `immJ`: a 21-bit byte offset, sign-extended (R172). -/
def offset21Word (off : BitVec 21) : Word := off.signExtend 32

/-- `uimm`: 5 bits, zero-extended (R172). -/
def uimmWord (uimm : BitVec 5) : Word := uimm.setWidth 32

/-- `x[rs1] + imm` modulo 2^32: the address of a load or a store (R230, R236). -/
def effectiveAddress (base : Word) (imm : BitVec 12) : Word := base + imm12Word imm

/-- The target of `JALR`: the sum with bit 0 cleared (R211). -/
def jalrTarget (base : Word) (imm : BitVec 12) : Word := (base + imm12Word imm) &&& 0xFFFFFFFE#32

/-- A jump or branch target is aligned: `target[1:0] = 00` (R105). -/
def targetAligned (t : Word) : Bool := decide (t.extractLsb' 0 2 = 0#2)

/-- The shift amount a register holds: its low five bits (R271). -/
def shiftAmount (v : Word) : Nat := (v.extractLsb' 0 5).toNat

end Sys2Proof.Machine
end

