-- ==== Sys2Proof/Machine/Memory.lean ====
section
/-! DEFINITION. Physical memory: the canonical list of bytes, the classification of physical addresses by
`MEM_MAP` and the CLINT's registers, and the raw accesses `PhysRead` and `PhysWrite` (R100 to R102,
R110 to R112, R487, R488). -/

namespace Sys2Proof.Machine

/-! ## The canonical list -/

/-- What a byte of main memory that nothing has written reads as: the spec leaves memory unspecified
after reset (R90), the model takes zero (log entry 3, DESIGN CHOICE). -/
def Memory.unlisted : Byte := 0#8

/-- The byte at a physical address. -/
def Memory.read : Memory → Nat → Byte
  | [], _ => Memory.unlisted
  | (k, b) :: rest, a => if k = a then b else Memory.read rest a

/-- The memory with the byte at `a` set to `b`. A byte equal to `unlisted` is not listed. -/
def Memory.write : Memory → Nat → Byte → Memory
  | [], a, b => if b = Memory.unlisted then [] else [(a, b)]
  | (k, c) :: rest, a, b =>
    if a < k then (if b = Memory.unlisted then (k, c) :: rest else (a, b) :: (k, c) :: rest)
    else if a = k then (if b = Memory.unlisted then rest else (a, b) :: rest)
    else (k, c) :: Memory.write rest a b

/-- The canonical form: addresses strictly rising and inside the 34-bit space, no listed byte equal to
what an unlisted one reads as. -/
def Memory.wf (m : Memory) : Bool :=
  strictlyRising (m.map Prod.fst)
    && m.all (fun c => decide (c.1 < 2 ^ 34) && decide (c.2 ≠ Memory.unlisted))

/-- A rising list of addresses with `a` put in its place, once. -/
def addAddress : List Nat → Nat → List Nat
  | [], a => [a]
  | k :: rest, a =>
    if a < k then a :: k :: rest
    else if a = k then k :: rest
    else k :: addAddress rest a

/-! ## What stands at a physical address -/

/-- What a physical address leads to: byte `off` of a CLINT register, main memory, ROM, another device,
or nothing (R101). -/
inductive Place where
  | msip (off : Nat)
  | mtimecmp (off : Nat)
  | mtime (off : Nat)
  | ram
  | rom
  | device
  | vacant
  deriving DecidableEq, Repr

/-- A byte of the CLINT's `msip`. -/
def Place.isMsip : Place → Bool
  | .msip _ => true
  | _ => false

/-- The kind of the first region of `MEM_MAP` that holds the address. -/
def regionAt (regions : List Region) (a : Nat) : Place :=
  match regions.find? (fun r => decide (r.base ≤ a) && decide (a < r.base + r.size)) with
  | none => .vacant
  | some r =>
    match r.kind with
    | .ram => .ram
    | .rom => .rom
    | .device => .device

/-- The classification of R101: the CLINT's registers at their parameter addresses, then `MEM_MAP`
(log entry 12). -/
def placeOf (p : Params) (a : Nat) : Place :=
  if p.msipAddr.toNat ≤ a ∧ a < p.msipAddr.toNat + 4 then .msip (a - p.msipAddr.toNat)
  else if p.mtimecmpAddr.toNat ≤ a ∧ a < p.mtimecmpAddr.toNat + 8 then
    .mtimecmp (a - p.mtimecmpAddr.toNat)
  else if p.mtimeAddr.toNat ≤ a ∧ a < p.mtimeAddr.toNat + 8 then .mtime (a - p.mtimeAddr.toNat)
  else regionAt p.memMap a

/-! ## Access widths (R110) -/

/-- How many bytes an access moves. -/
inductive Width where
  | byte
  | half
  | word
  deriving DecidableEq, Repr

/-- 1, 2 or 4. -/
def Width.bytes : Width → Nat
  | .byte => 1
  | .half => 2
  | .word => 4

/-- The physical addresses of an access, lowest first. -/
def accessAddresses (w : Width) (pa : PAddr) : List Nat :=
  (List.range w.bytes).map (fun i => pa.toNat + i)

/-- No byte of the access is vacant (R101). -/
def accessPresent (p : Params) (w : Width) (pa : PAddr) : Bool :=
  (accessAddresses w pa).all (fun a => decide (placeOf p a ≠ .vacant))

/-! ## One byte -/

/-- Byte `off` of a 64-bit register held little-endian (R487). -/
def dwordByte (d : DWord) (off : Nat) : Byte := d.extractLsb' (8 * off) 8

/-- A 64-bit register with byte `off` set. -/
def setDwordByte (d : DWord) (off : Nat) (b : Byte) : DWord :=
  (d &&& ~~~(0xFF#64 <<< (8 * off))) ||| (b.setWidth 64 <<< (8 * off))

/-- The byte at a physical address, read for `use`. A device the spec does not describe gives a free
value (U27, log entry 6). A vacant byte is never read: the access faults first (R101). -/
def physReadByte (s : State) (use : ReadUse) (a : Nat) : Byte :=
  match placeOf s.cfg a with
  | .msip off => if off = 0 then (BitVec.ofBool s.msipBit).setWidth 8 else 0#8
  | .mtimecmp off => dwordByte s.mtimecmp off
  | .mtime off => dwordByte s.mtime off
  | .ram => s.mem.read a
  | .rom => s.mem.read a
  | .device => Config.deviceByte s.tick use a
  | .vacant => Config.deviceByte s.tick use a

/-- The state with the byte at a physical address marked as stored to (R148). -/
def markStored (s : State) (a : Nat) : State := { s with stored := addAddress s.stored a }

/-- The state with a byte of main memory written. -/
def writeMainMemory (s : State) (a : Nat) (b : Byte) : State := { s with mem := s.mem.write a b }

/-- What a byte stored at a physical address changes there. Only bit 0 of `msip` is held (R488). What a
device the spec does not describe does with it is outside the state (log entry 6); whether a byte of
ROM changes is a free value (log entry 7). -/
def storeByte (s : State) (a : Nat) (b : Byte) : State :=
  match placeOf s.cfg a with
  | .msip off => if off = 0 then { s with msipBit := b.getLsbD 0 } else s
  | .mtimecmp off => { s with mtimecmp := setDwordByte s.mtimecmp off b }
  | .mtime off => { s with mtime := setDwordByte s.mtime off b }
  | .ram => writeMainMemory s a b
  | .rom =>
    writeMainMemory s a (if Config.romStoreLands s.tick a then b else s.mem.read a)
  | .device => s
  | .vacant => s

/-- The state after a byte is stored at a physical address and the byte is marked as stored to, whatever
stands there (R148, log entry 8); a vacant address holds nothing to store to. -/
def physWriteByte (s : State) (a : Nat) (b : Byte) : State :=
  match placeOf s.cfg a with
  | .vacant => s
  | _ => markStored (storeByte s a b) a

/-! ## `PhysRead` and `PhysWrite`, little-endian (R101, R102) -/

/-- The value of the bytes of an access, in the low bits of a word. -/
def physRead (s : State) (use : ReadUse) (w : Width) (pa : PAddr) : Word :=
  let byteAt := fun i => physReadByte s use (pa.toNat + i)
  match w with
  | .byte => (byteAt 0).setWidth 32
  | .half => (byteAt 1 ++ byteAt 0).setWidth 32
  | .word => byteAt 3 ++ byteAt 2 ++ byteAt 1 ++ byteAt 0

/-- The state after the low bytes of `v` are stored, the lowest at `pa`. -/
def physWrite (s : State) (w : Width) (pa : PAddr) (v : Word) : State :=
  match w with
  | .byte => physWriteByte s pa.toNat (v.extractLsb' 0 8)
  | .half =>
    physWriteByte (physWriteByte s pa.toNat (v.extractLsb' 0 8)) (pa.toNat + 1) (v.extractLsb' 8 8)
  | .word =>
    physWriteByte
      (physWriteByte
        (physWriteByte (physWriteByte s pa.toNat (v.extractLsb' 0 8)) (pa.toNat + 1)
          (v.extractLsb' 8 8))
        (pa.toNat + 2) (v.extractLsb' 16 8))
      (pa.toNat + 3) (v.extractLsb' 24 8)

end Sys2Proof.Machine
end

