-- ==== Sys2Proof/Machine/Pmp.lean ====
section
/-! DEFINITION. Physical memory protection: the entries, the region of each, and the permission check
(R71, R72, R121 to R125). -/

namespace Sys2Proof.Machine

/-- An entry that matches nothing and permits nothing. -/
def PmpCfg.none : PmpCfg := ⟨false, .off, false, false, false⟩

/-- The configuration of entry `i`; an entry at or above `PMP_ENTRIES` reads as zero (R71). -/
def State.pmpCfgAt (s : State) (i : Nat) : PmpCfg :=
  if i < s.cfg.pmpEntries.val then s.pmpcfg.toList.getD i PmpCfg.none else PmpCfg.none

/-- The address register of entry `i`; at or above `PMP_ENTRIES` it reads as zero (R71). -/
def State.pmpAddrAt (s : State) (i : Nat) : Word :=
  if i < s.cfg.pmpEntries.val then s.pmpaddr.toList.getD i 0#32 else 0#32

/-- The number of consecutive 1 bits at the low end, looking at `fuel` bits from bit `i` up. -/
def trailingOnesFrom (v : Word) (i : Nat) : Nat → Nat
  | 0 => 0
  | fuel + 1 => if v.getLsbD i then trailingOnesFrom v (i + 1) fuel + 1 else 0

/-- The number of consecutive 1 bits at the low end: 0 to 32 (R122). -/
def trailingOnes (v : Word) : Nat := trailingOnesFrom v 0 32

/-- The word address of an access: `pa >> 2` (R122). -/
def wordAddress (pa : PAddr) : Word := pa.extractLsb' 2 32

/-- Entry `i` matches the access at `pa` (R122). -/
def pmpMatches (s : State) (i : Nat) (pa : PAddr) : Bool :=
  let w := wordAddress pa
  let addr := s.pmpAddrAt i
  match (s.pmpCfgAt i).a with
  | .off => false
  | .tor =>
    let prev := if i = 0 then 0#32 else s.pmpAddrAt (i - 1)
    prev.ule w && w.ult addr
  | .na4 => decide (w = addr)
  | .napot =>
    let t := trailingOnes addr
    decide (w >>> (t + 1) = addr >>> (t + 1))

/-- The lowest-numbered entry that matches: the one that decides (R122). -/
def pmpDecides (s : State) (pa : PAddr) : Option Nat :=
  (List.range s.cfg.pmpEntries.val).find? (fun i => pmpMatches s i pa)

/-- The permission bit of a configuration for a kind of access. -/
def PmpCfg.permits (c : PmpCfg) : Access → Bool
  | .fetch => c.x
  | .load => c.r
  | .store => c.w

/-- `pmp_ok(pa, acc, p)` (R123). -/
def pmpOk (s : State) (pa : PAddr) (acc : Access) (p : Priv) : Bool :=
  if s.cfg.pmpEntries.val = 0 then true
  else
    match pmpDecides s pa with
    | some i =>
      if !(s.pmpCfgAt i).l && decide (p = .M) then true else (s.pmpCfgAt i).permits acc
    | none => decide (p = .M)

/-- The configuration byte of entry `i` after a write: a locked entry, and one that does not exist,
keep what they hold (R71, R125). -/
def State.writePmpCfg (s : State) (i : Nat) (b : Byte) : State :=
  if h : i < 16 then
    if i < s.cfg.pmpEntries.val && !(s.pmpCfgAt i).l then
      { s with pmpcfg := s.pmpcfg.set i (PmpCfg.ofByte b) h }
    else s
  else s

/-- A write to `pmpaddr_i`: ignored when entry `i` does not exist or is locked, and when entry `i + 1`
is locked with `A` = TOR (R72). -/
def State.writePmpAddr (s : State) (i : Nat) (v : Word) : State :=
  if h : i < 16 then
    if i < s.cfg.pmpEntries.val && !(s.pmpCfgAt i).l
        && !((s.pmpCfgAt (i + 1)).l && decide ((s.pmpCfgAt (i + 1)).a = .tor)) then
      { s with pmpaddr := s.pmpaddr.set i v h }
    else s
  else s

/-- The word `pmpcfg_k` reads as: entries `4k` to `4k + 3`, the lowest in the low byte (R71). -/
def State.pmpCfgWord (s : State) (k : Nat) : Word :=
  (s.pmpCfgAt (4 * k + 3)).toByte ++ (s.pmpCfgAt (4 * k + 2)).toByte
    ++ (s.pmpCfgAt (4 * k + 1)).toByte ++ (s.pmpCfgAt (4 * k)).toByte

/-- A write of `v` to `pmpcfg_k`: each of its four fields on its own (R71). -/
def State.writePmpCfgWord (s : State) (k : Nat) (v : Word) : State :=
  (((s.writePmpCfg (4 * k) (v.extractLsb' 0 8)).writePmpCfg (4 * k + 1) (v.extractLsb' 8 8)).writePmpCfg
    (4 * k + 2) (v.extractLsb' 16 8)).writePmpCfg (4 * k + 3) (v.extractLsb' 24 8)

end Sys2Proof.Machine
end

