-- ==== Sys2Proof/Machine/Translate.lean ====
section
/-! DEFINITION. Sv32 address translation (R130 to R137): the page-table entry, the walk, the leaf checks. -/

namespace Sys2Proof.Machine

/-! ## Which exception an access raises (R104, R124, R132) -/

/-- `PageFault_acc`: 12, 13 or 15. -/
def pageFaultOf : Access → Exc
  | .fetch => .instrPageFault
  | .load => .loadPageFault
  | .store => .storePageFault

/-- `AccessFault_acc`: 1, 5 or 7. -/
def accessFaultOf : Access → Exc
  | .fetch => .instrAccessFault
  | .load => .loadAccessFault
  | .store => .storeAccessFault

/-! ## The page-table entry (R131) -/

def pteV (pte : Word) : Bool := pte.getLsbD 0
def pteR (pte : Word) : Bool := pte.getLsbD 1
def pteW (pte : Word) : Bool := pte.getLsbD 2
def pteX (pte : Word) : Bool := pte.getLsbD 3
def pteU (pte : Word) : Bool := pte.getLsbD 4
def pteA (pte : Word) : Bool := pte.getLsbD 6
def pteD (pte : Word) : Bool := pte.getLsbD 7
/-- `PPN0`, bits 19:10. -/
def ptePpn0 (pte : Word) : BitVec 10 := pte.extractLsb' 10 10
/-- `PPN1`, bits 31:20. -/
def ptePpn1 (pte : Word) : BitVec 12 := pte.extractLsb' 20 12
/-- `{PPN1, PPN0}`, bits 31:10. -/
def ptePpn (pte : Word) : BitVec 22 := pte.extractLsb' 10 22

/-- A PTE that the walk refuses at once: "PTE.V = 0, or PTE.R = 0 and PTE.W = 1" (R135 (2)). -/
def pteInvalid (pte : Word) : Bool := !pteV pte || (!pteR pte && pteW pte)

/-- A valid PTE that ends the walk: `R` = 1 or `X` = 1 (R131). -/
def pteLeaf (pte : Word) : Bool := pteR pte || pteX pte

/-! ## `satp` (R68) -/

/-- `satp.MODE` = 1: Sv32. -/
def State.satpMode (s : State) : Bool := s.satpBits.getLsbD 31

/-- `satp.PPN`. -/
def State.satpPpn (s : State) : BitVec 22 := s.satpBits.extractLsb' 0 22

/-! ## The walk (R132) -/

/-- The page-number field of a virtual address for a level: `VPN1` for level 1, `VPN0` for level 0. -/
def vpnOf (level : Nat) (va : Word) : BitVec 10 :=
  if level = 0 then va.extractLsb' 12 10 else va.extractLsb' 22 10

/-- `a + 4 * VPN`, with `a` the start of the page table on page `ppn`. -/
def pteAddress (ppn : BitVec 22) (level : Nat) (va : Word) : PAddr := ppn ++ vpnOf level va ++ 0#2

/-- `leaf_perm_ok(pte, acc, p)` (R134). -/
def leafPermOk (s : State) (pte : Word) (acc : Access) (p : Priv) : Bool :=
  if decide (p = .U) && !pteU pte then false
  else if decide (p = .S) && pteU pte && decide (acc = .fetch) then false
  else if decide (p = .S) && pteU pte && !s.mstatus.sum then false
  else
    match acc with
    | .fetch => pteX pte
    | .load => if s.mstatus.mxr then pteR pte || pteX pte else pteR pte
    | .store => pteW pte

/-- The leaf checks of R132 in their order, then the physical address. -/
def leafAddress (s : State) (va : Word) (acc : Access) (p : Priv) (level : Nat) (pte : Word) :
    Except Raised PAddr :=
  if !leafPermOk s pte acc p then .error ⟨pageFaultOf acc, va⟩
  else if level = 1 ∧ ptePpn0 pte ≠ 0#10 then .error ⟨pageFaultOf acc, va⟩
  else if !pteA pte || (decide (acc = .store) && !pteD pte) then .error ⟨pageFaultOf acc, va⟩
  else if level = 1 then .ok (ptePpn1 pte ++ va.extractLsb' 12 10 ++ va.extractLsb' 0 12)
  else .ok (ptePpn pte ++ va.extractLsb' 0 12)

/-- The read of one page-table entry, which PMP checks as a load at privilege S (R137). -/
def readPte (s : State) (va : Word) (acc : Access) (level : Nat) (ppn : BitVec 22) :
    Except Raised Word :=
  let at' := pteAddress ppn level va
  if pmpOk s at' .load .S && accessPresent s.cfg .word at' then
    .ok (physRead s (.walk acc level) .word at')
  else .error ⟨accessFaultOf acc, va⟩

/-- The walk from the page table on page `ppn`, at `level` and the levels below it. -/
def walkFrom (s : State) (va : Word) (acc : Access) (p : Priv) :
    Nat → BitVec 22 → Except Raised PAddr
  | 0, ppn =>
    match readPte s va acc 0 ppn with
    | .error e => .error e
    | .ok pte =>
      if pteInvalid pte then .error ⟨pageFaultOf acc, va⟩
      else if pteLeaf pte then leafAddress s va acc p 0 pte
      else .error ⟨pageFaultOf acc, va⟩
  | level + 1, ppn =>
    match readPte s va acc (level + 1) ppn with
    | .error e => .error e
    | .ok pte =>
      if pteInvalid pte then .error ⟨pageFaultOf acc, va⟩
      else if pteLeaf pte then leafAddress s va acc p (level + 1) pte
      else walkFrom s va acc p level (ptePpn pte)

/-- `translate(va, acc, p)`: two levels, from the root table of `satp` (R132). -/
def translateSv32 (s : State) (va : Word) (acc : Access) (p : Priv) : Except Raised PAddr :=
  walkFrom s va acc p 1 s.satpPpn

end Sys2Proof.Machine
end

