-- ==== Sys2Proof/Machine/Ops.lean ====
section
/-! DEFINITION. The named operations the meanings are written with: general registers, the composite memory
accesses of R140 and R141, the end of an instruction that completes, taking a trap (R420) and
returning from one (R320). -/

namespace Sys2Proof.Machine

/-! ## General registers (R20) -/

/-- `x[r]`: `x0` reads as 0. -/
def State.readX (s : State) (r : Reg) : Word := if r = 0#5 then 0#32 else s.x[r.toNat]'r.isLt

/-- `x[r] <- v`: a write to `x0` is discarded. -/
def State.writeX (s : State) (r : Reg) (v : Word) : State :=
  if r = 0#5 then s else { s with x := s.x.set r.toNat v r.isLt }

/-! ## The end of an instruction (R12 (6), R22, R70) -/

/-- One more instruction completed: `minstret` counts it. -/
def State.retire (s : State) : State := { s with minstret := s.minstret + 1#64 }

/-- `pc <- t`. -/
def State.setPc (s : State) (t : Word) : State := { s with pc := t }

/-- The instruction completes and the next one follows it. -/
def complete (s : State) : Out := .next ((s.setPc (s.pc + 4#32)).retire)

/-- The instruction completes and execution goes on at `t`. -/
def completeAt (t : Word) (s : State) : Out := .next ((s.setPc t).retire)

/-! ## Causes (R401, R481) -/

/-- The exception codes of R401. -/
def Exc.code : Exc → Nat
  | .instrAddrMisaligned => 0
  | .instrAccessFault => 1
  | .illegalInstr => 2
  | .breakpoint => 3
  | .loadAddrMisaligned => 4
  | .loadAccessFault => 5
  | .storeAddrMisaligned => 6
  | .storeAccessFault => 7
  | .ecallFromU => 8
  | .ecallFromS => 9
  | .ecallFromM => 11
  | .instrPageFault => 12
  | .loadPageFault => 13
  | .storePageFault => 15

/-- The interrupt codes of R481. -/
def Interrupt.code : Interrupt → Nat
  | .userSoftware => 0
  | .supervisorSoftware => 1
  | .machineSoftware => 3
  | .userTimer => 4
  | .supervisorTimer => 5
  | .machineTimer => 7
  | .userExternal => 8
  | .supervisorExternal => 9
  | .machineExternal => 11

/-- The code of a cause. -/
def Cause.code : Cause → Nat
  | .exception e => e.code
  | .interrupt i => i.code

/-- `is_interrupt`. -/
def Cause.isInterrupt : Cause → Bool
  | .exception _ => false
  | .interrupt _ => true

/-- The value of `xcause`: `{is_interrupt, code[30:0]}` (R56, R420). -/
def Cause.word (c : Cause) : Word := BitVec.ofBool c.isInterrupt ++ BitVec.ofNat 31 c.code

/-! ## Taking a trap (R413, R420 to R425) -/

/-- The delegation registers that count for a cause: `dm` and `ds` of R413. -/
def delegatedByM (s : State) (c : Cause) : Bool :=
  match c with
  | .exception _ => s.medelegBits.getLsbD c.code
  | .interrupt _ => s.midelegBits.getLsbD c.code

def delegatedByS (s : State) (c : Cause) : Bool :=
  match c with
  | .exception _ => s.sedelegBits.getLsbD c.code
  | .interrupt _ => s.sidelegBits.getLsbD c.code

/-- `target_mode(is_interrupt, c)`: the mode whose handler takes the trap (R413). -/
def targetMode (s : State) (c : Cause) : Priv :=
  match s.priv with
  | .M => .M
  | .S => if delegatedByM s c then .S else .M
  | .U => if delegatedByM s c then (if delegatedByS s c then .U else .S) else .M

/-- The trap-vector register of a mode. -/
def State.tvecOf (s : State) : Priv → Tvec
  | .M => s.mtvec
  | .S => s.stvec
  | .U => s.utvec

/-- `trap_vector(x, is_interrupt, code)` (R425): `BASE`, or for an interrupt in vectored mode
`BASE + 4 * code`. -/
def trapVector (s : State) (x : Priv) (c : Cause) : Word :=
  let t := s.tvecOf x
  if c.isInterrupt && t.vectored then t.baseAddress + BitVec.ofNat 32 (4 * c.code)
  else t.baseAddress

/-- Trap entry (R420), one atomic action: `xepc`, `xcause`, `xtval` of the handler's mode are written,
`xIE` moves to `xPIE` and is cleared, the old mode goes to `xPP`, `priv` becomes the handler's mode,
`pc` the handler's address, and a `WFI` stall ends. -/
def trapEntry (c : Cause) (epc tval : Word) (s : State) : State :=
  match targetMode s c with
  | .M =>
    { s with
      mepc := epc, mcause := c.word, mtval := tval,
      mstatus := { s.mstatus with mpie := s.mstatus.mie, mie := false, mpp := s.priv },
      priv := .M, pc := trapVector s .M c, wfiStalled := false }
  | .S =>
    { s with
      sepc := epc, scause := c.word, stval := tval,
      mstatus :=
        { s.mstatus with spie := s.mstatus.sie, sie := false, spp := decide (s.priv = .S) },
      priv := .S, pc := trapVector s .S c, wfiStalled := false }
  | .U =>
    { s with
      uepc := epc, ucause := c.word, utval := tval,
      mstatus := { s.mstatus with upie := s.mstatus.uie, uie := false },
      priv := .U, pc := trapVector s .U c, wfiStalled := false }

/-- The current instruction raises an exception: nothing of it takes effect but the trap entry, with
`epc` the instruction's own address (R11, R404, R422). -/
def raise (e : Exc) (tval : Word) (s : State) : Out := .next (trapEntry (.exception e) s.pc tval s)

/-- The same for an exception an operation answered. -/
def raiseRaised (r : Raised) (s : State) : Out := raise r.exc r.tval s

/-- `IllegalInstr`, which records the instruction's word `w` (R182). -/
def raiseIllegal (w : Word) (s : State) : Out := raise .illegalInstr w s

/-! ## Returning from a trap (R320 to R323) -/

/-- `xepc` as it reads: bits 1:0 are 00 (R55). -/
def State.epcOf (s : State) : Priv → Word
  | .M => s.mepc &&& epcMask
  | .S => s.sepc &&& epcMask
  | .U => s.uepc &&& epcMask

/-- What `xRET` does to the state (R321, R322, R323): `pc` from `xepc`, `xIE` from `xPIE`, `xPIE` to 1,
`priv` from `xPP`, `xPP` to U; the restored mode of `URET` is always U. -/
def trapReturn (x : Priv) (s : State) : State :=
  match x with
  | .M =>
    { s with
      pc := s.epcOf .M,
      mstatus := { s.mstatus with mie := s.mstatus.mpie, mpie := true, mpp := .U },
      priv := s.mstatus.mpp }
  | .S =>
    { s with
      pc := s.epcOf .S,
      mstatus := { s.mstatus with sie := s.mstatus.spie, spie := true, spp := false },
      priv := if s.mstatus.spp then .S else .U }
  | .U =>
    { s with
      pc := s.epcOf .U,
      mstatus := { s.mstatus with uie := s.mstatus.upie, upie := true },
      priv := .U }

/-! ## Memory accesses (R120, R130, R140, R141) -/

/-- `eff_priv(acc)` (R120). -/
def effPriv (s : State) : Access → Priv
  | .fetch => s.priv
  | .load => if s.mstatus.mprv then s.mstatus.mpp else s.priv
  | .store => if s.mstatus.mprv then s.mstatus.mpp else s.priv

/-- The exception of a misaligned data access (R104); a fetch is never misaligned (R107). -/
def misalignedOf : Access → Option Exc
  | .fetch => none
  | .load => some .loadAddrMisaligned
  | .store => some .storeAddrMisaligned

/-- The physical address before protection: Sv32 where it applies, else the virtual address extended
with zeros (R130). -/
def physicalAddress (s : State) (acc : Access) (va : Word) : Except Raised PAddr :=
  if s.satpMode && decide (effPriv s acc ≠ .M) then translateSv32 s va acc (effPriv s acc)
  else .ok (va.setWidth 34)

/-- Translation, then PMP and `MEM_MAP` (R140, R141). -/
def checkedAddress (s : State) (acc : Access) (w : Width) (va : Word) : Except Raised PAddr :=
  match physicalAddress s acc va with
  | .error e => .error e
  | .ok pa =>
    if accessPresent s.cfg w pa && pmpOk s pa acc (effPriv s acc) then .ok pa
    else .error ⟨accessFaultOf acc, va⟩

/-- The physical address of an access, or the one exception it raises: alignment first, then
translation, then PMP and `MEM_MAP` (R140 to R142). -/
def resolve (s : State) (acc : Access) (w : Width) (va : Word) : Except Raised PAddr :=
  match misalignedOf acc with
  | some e => if va.toNat % w.bytes = 0 then checkedAddress s acc w va else .error ⟨e, va⟩
  | none => checkedAddress s acc w va

/-- `MemRead(va, n, acc)` (R140). -/
def memRead (s : State) (acc : Access) (w : Width) (va : Word) : Except Raised Word :=
  match resolve s acc w va with
  | .error e => .error e
  | .ok pa => .ok (physRead s (.access acc) w pa)

/-- `MemWrite(va, n, v)` (R141). -/
def memWrite (s : State) (w : Width) (va v : Word) : Except Raised State :=
  match resolve s .store w va with
  | .error e => .error e
  | .ok pa => .ok (physWrite s w pa v)

/-! ## The `rd = x0` rule (R178, R202) -/

/-- `RD_X0_ILLEGAL` holds and the destination is `x0`. -/
def rdX0Trap (s : State) (rd : Reg) : Bool := s.cfg.rdX0Illegal && decide (rd = 0#5)

/-- The end of every instruction whose one effect is `x[rd] <- v`: illegal by R178 where that rule
applies (`w` is the instruction's word), else the write and the next instruction. -/
def writeResult (w : Word) (rd : Reg) (v : Word) (s : State) : Out :=
  if rdX0Trap s rd then raiseIllegal w s else complete (s.writeX rd v)

end Sys2Proof.Machine
end

