-- ==== Sys2Proof/Machine/Interrupts.lean ====
section
/-! DEFINITION. Interrupts: the pending bits (R65, R486 to R489), the enables (R495, R496), which interrupt
is taken (R500, R501), what the platform does before a step (R12 (1)), and waking from `WFI` (R324). -/

namespace Sys2Proof.Machine

/-! ## Pending (R65) -/

/-- Bit `i` of `mip`, as read and as used to select an interrupt: `MEIP` is the PLIC's line, `MTIP` the
comparison `mtime >=u mtimecmp`, `MSIP` the CLINT's bit, `SEIP` the software bit or the PLIC's
line, the other five the software bits. -/
def mipBit (s : State) : Interrupt → Bool
  | .machineExternal => s.meipLine
  | .machineTimer => s.mtimecmp.ule s.mtime
  | .machineSoftware => s.msipBit
  | .supervisorExternal => s.mipSw.getLsbD 9 || s.seipLine
  | .supervisorSoftware => s.mipSw.getLsbD 1
  | .supervisorTimer => s.mipSw.getLsbD 5
  | .userExternal => s.mipSw.getLsbD 8
  | .userSoftware => s.mipSw.getLsbD 0
  | .userTimer => s.mipSw.getLsbD 4

/-- The word a read of `mip` gives. -/
def mipWord (s : State) : Word :=
  0#20 ++ BitVec.ofBool (mipBit s .machineExternal) ++ 0#1
    ++ BitVec.ofBool (mipBit s .supervisorExternal) ++ BitVec.ofBool (mipBit s .userExternal)
    ++ BitVec.ofBool (mipBit s .machineTimer) ++ 0#1 ++ BitVec.ofBool (mipBit s .supervisorTimer)
    ++ BitVec.ofBool (mipBit s .userTimer) ++ BitVec.ofBool (mipBit s .machineSoftware) ++ 0#1
    ++ BitVec.ofBool (mipBit s .supervisorSoftware) ++ BitVec.ofBool (mipBit s .userSoftware)

/-- Interrupt `i` is locally enabled and pending (R495). -/
def pendingEnabled (s : State) (i : Interrupt) : Bool := s.mieBits.getLsbD i.code && mipBit s i

/-! ## Enables and selection (R496, R500, R501) -/

/-- `m_en`. -/
def machineEnabled (s : State) : Bool :=
  match s.priv with
  | .M => s.mstatus.mie
  | .S => true
  | .U => true

/-- `s_en`. -/
def supervisorEnabled (s : State) : Bool :=
  match s.priv with
  | .M => false
  | .S => s.mstatus.sie
  | .U => true

/-- `u_en`. -/
def userEnabled (s : State) : Bool :=
  match s.priv with
  | .M => false
  | .S => false
  | .U => s.mstatus.uie

/-- The mode an interrupt is destined for: M unless `mideleg` delegates it, then S unless `sideleg`
does (R500). -/
def destination (s : State) (i : Interrupt) : Priv :=
  if s.midelegBits.getLsbD i.code then
    if s.sidelegBits.getLsbD i.code then .U else .S
  else .M

/-- Table 4, highest first: codes 11, 3, 7, 9, 1, 5, 8, 0, 4 (R501). -/
def interruptOrder : List Interrupt :=
  [.machineExternal, .machineSoftware, .machineTimer, .supervisorExternal, .supervisorSoftware,
    .supervisorTimer, .userExternal, .userSoftware, .userTimer]

/-- `highest` of the pending, enabled interrupts destined for mode `x`. -/
def highest (s : State) (x : Priv) : Option Interrupt :=
  interruptOrder.find? (fun i => pendingEnabled s i && decide (destination s i = x))

/-- Whether interrupts destined for mode `x` are globally enabled (R496). -/
def globallyEnabled (s : State) : Priv → Bool
  | .M => machineEnabled s
  | .S => supervisorEnabled s
  | .U => userEnabled s

/-- The interrupt a destination mode offers, if it is globally enabled. -/
def offered (s : State) (x : Priv) : Option Interrupt :=
  if globallyEnabled s x then highest s x else none

/-- The interrupt check (R500): the highest destination mode first, Table 4's order within it. -/
def interruptTaken (s : State) : Option Interrupt :=
  match offered s .M with
  | some i => some i
  | none =>
    match offered s .S with
    | some i => some i
    | none => offered s .U

/-- Taking an interrupt: trap entry with `epc = pc` and `tval = 0` (R500, R424). -/
def takeInterrupt (i : Interrupt) (s : State) : State := trapEntry (.interrupt i) s.pc 0#32 s

/-! ## The platform before a step (R12 (1), R70, R486 to R488, R503) -/

/-- What agents outside the hart do before the next step: the first listed input, or the free
behaviour of the platform where none is listed (log entries 4 and 5). -/
def nextInput (s : State) : StepInput :=
  match s.inputs with
  | i :: _ => i
  | [] => ⟨Config.env s.tick, []⟩

/-- The bytes other agents write, in order (R145 (b)). -/
def agentWrites (ws : List (PAddr × Byte)) (s : State) : State :=
  ws.foldl (fun t w => physWriteByte t w.1.toNat w.2) s

/-- The state after the platform has sampled its lines, advanced its timers and let the other agents
write. -/
def platform (s : State) : State :=
  let i := nextInput s
  agentWrites i.writes
    { s with
      inputs := s.inputs.tail, tick := s.tick + 1,
      meipLine := i.env.meip, seipLine := i.env.seip, msipBit := i.env.msip.getD s.msipBit,
      msipStored := s.msipStored || i.env.msip.isSome,
      mtime := s.mtime + BitVec.ofNat 64 i.env.mtimeInc,
      mcycle := s.mcycle + BitVec.ofNat 64 (i.env.mcycleMore + 1) }

/-! ## `WFI` (R324) -/

/-- `(mip & mie) != 0`: what wakes a stalled hart, whatever the global enables and delegation say. -/
def wakeRequested (s : State) : Bool := interruptOrder.any (pendingEnabled s)

end Sys2Proof.Machine
end

