-- ==== Sys2Proof/Machine/Cycle.lean ====
section
/-! DEFINITION. What a step is made of besides the meaning of an instruction (R12): fetching, decoding, the
stages in order, and placing a word where the next fetch reads it. -/

namespace Sys2Proof.Machine

/-- What the fetch of stage (3) gives. -/
inductive Fetched where
  /-- The 32-bit word at `pc`. -/
  | word (w : Word)
  /-- The fetch raised (R200). -/
  | raised (r : Raised)
  /-- A byte of the word was stored to since it was loaded (R148). -/
  | stale
  deriving DecidableEq, Repr

/-- The byte at a physical address was stored to since it was loaded, by this hart or by another agent; a
store of another hart to `msip` that came as an input is remembered apart (R148, log entry 8). -/
def byteStoredTo (s : State) (a : Nat) : Bool :=
  s.stored.contains a || ((placeOf s.cfg a).isMsip && s.msipStored)

/-- A byte of the access was stored to since it was loaded. -/
def storedTo (s : State) (w : Width) (pa : PAddr) : Bool :=
  (accessAddresses w pa).any (byteStoredTo s)

/-- `MemRead(pc, 4, Fetch)` (R140, R200), refusing bytes stored to (R148). -/
def fetch (s : State) : Fetched :=
  match resolve s .fetch .word s.pc with
  | .error r => .raised r
  | .ok pa =>
    if storedTo s .word pa then .stale else .word (physRead s (.access .fetch) .word pa)

/-- Stages (3) to (5) of R12: fetch, decode, and the instruction's rule, which `run` gives. A word that
is no instruction raises `IllegalInstr` (R175). -/
def fetchDecodeRun (run : Instr → State → Out) (s : State) : Out :=
  match fetch s with
  | .raised r => raiseRaised r s
  | .stale => .refused .fetchOfStoredBytes
  | .word w =>
    match decode w with
    | .ok i => run i s
    | .error _ => raiseIllegal w s

/-- Stages (2) to (5): an enabled pending interrupt is taken instead of an instruction (R407, R500). -/
def runUnstalled (run : Instr → State → Out) (s : State) : Out :=
  match interruptTaken s with
  | some i => .next (takeInterrupt i s)
  | none => fetchDecodeRun run s

/-- One step (R12): the platform, the wake-up decision of a stalled hart (R324), then the interrupt
check and the instruction. A hart that stays stalled ends the step there. -/
def stepWith (run : Instr → State → Out) (s : State) : Out :=
  let t := platform s
  if t.wfiStalled then
    if wakeRequested t || (nextInput s).env.wake then runUnstalled run { t with wfiStalled := false }
    else .next t
  else runUnstalled run t

/-- The physical address the next fetch reads, where the fetch address resolves; else the virtual one. -/
def fetchPlace (s : State) : PAddr :=
  match resolve s .fetch .word s.pc with
  | .ok pa => pa
  | .error _ => s.pc.setWidth 34

/-- The state with a word loaded from outside where the next fetch reads, its bytes not marked as stored
to, and the hart not stalled. -/
def loadAtFetch (s : State) (w : Word) : State :=
  let a := (fetchPlace s).toNat
  { s with
    mem := (((s.mem.write a (w.extractLsb' 0 8)).write (a + 1) (w.extractLsb' 8 8)).write (a + 2)
      (w.extractLsb' 16 8)).write (a + 3) (w.extractLsb' 24 8),
    stored := s.stored.filter (fun k => decide (k < a ∨ a + 4 ≤ k)),
    wfiStalled := false }

end Sys2Proof.Machine
end

