-- ==== Sys2Proof/Machine/Csr.lean ====
section
/-! DEFINITION. The CSR space (R26): which register an address names, what a read gives, what a write leaves,
and the access checks (R300, R304 to R309, R313). -/

namespace Sys2Proof.Machine

/-- The CSRs of R26, by name. The debug CSRs hold no state and are not among them (R75). -/
inductive Csr where
  | ustatus | uie | utvec | uscratch | uepc | ucause | utval | uip
  | cycle | time | instret | cycleh | timeh | instreth
  | sstatus | sedeleg | sideleg | sie | stvec | scounteren | sscratch | sepc | scause | stval | sip
  | satp
  | mvendorid | marchid | mimpid | mhartid
  | mstatus | misa | medeleg | mideleg | mie | mtvec | mcounteren | mscratch | mepc | mcause | mtval
  | mip
  | pmpcfg (k : Fin 4)
  | pmpaddr (i : Fin 16)
  | mcycle | minstret | mcycleh | minstreth
  deriving DecidableEq, Repr

/-! ## Addresses (R26) -/

/-- The user-level rows of R26. -/
def csrUser (a : CsrAddr) : Option Csr :=
  if a = 0x000#12 then some .ustatus
  else if a = 0x004#12 then some .uie
  else if a = 0x005#12 then some .utvec
  else if a = 0x040#12 then some .uscratch
  else if a = 0x041#12 then some .uepc
  else if a = 0x042#12 then some .ucause
  else if a = 0x043#12 then some .utval
  else if a = 0x044#12 then some .uip
  else if a = 0xC00#12 then some .cycle
  else if a = 0xC01#12 then some .time
  else if a = 0xC02#12 then some .instret
  else if a = 0xC80#12 then some .cycleh
  else if a = 0xC81#12 then some .timeh
  else if a = 0xC82#12 then some .instreth
  else none

/-- The supervisor-level rows. -/
def csrSupervisor (a : CsrAddr) : Option Csr :=
  if a = 0x100#12 then some .sstatus
  else if a = 0x102#12 then some .sedeleg
  else if a = 0x103#12 then some .sideleg
  else if a = 0x104#12 then some .sie
  else if a = 0x105#12 then some .stvec
  else if a = 0x106#12 then some .scounteren
  else if a = 0x140#12 then some .sscratch
  else if a = 0x141#12 then some .sepc
  else if a = 0x142#12 then some .scause
  else if a = 0x143#12 then some .stval
  else if a = 0x144#12 then some .sip
  else if a = 0x180#12 then some .satp
  else none

/-- The machine-level rows, but for PMP. -/
def csrMachine (a : CsrAddr) : Option Csr :=
  if a = 0xF11#12 then some .mvendorid
  else if a = 0xF12#12 then some .marchid
  else if a = 0xF13#12 then some .mimpid
  else if a = 0xF14#12 then some .mhartid
  else if a = 0x300#12 then some .mstatus
  else if a = 0x301#12 then some .misa
  else if a = 0x302#12 then some .medeleg
  else if a = 0x303#12 then some .mideleg
  else if a = 0x304#12 then some .mie
  else if a = 0x305#12 then some .mtvec
  else if a = 0x306#12 then some .mcounteren
  else if a = 0x340#12 then some .mscratch
  else if a = 0x341#12 then some .mepc
  else if a = 0x342#12 then some .mcause
  else if a = 0x343#12 then some .mtval
  else if a = 0x344#12 then some .mip
  else if a = 0xB00#12 then some .mcycle
  else if a = 0xB02#12 then some .minstret
  else if a = 0xB80#12 then some .mcycleh
  else if a = 0xB82#12 then some .minstreth
  else none

/-- The PMP rows: `pmpcfg0` to `pmpcfg3` at 0x3A0, `pmpaddr0` to `pmpaddr15` at 0x3B0. -/
def csrPmp (a : CsrAddr) : Option Csr :=
  if a.extractLsb' 2 10 = 0x0E8#10 then some (.pmpcfg (a.extractLsb' 0 2).toFin)
  else if a.extractLsb' 4 8 = 0x3B#8 then some (.pmpaddr (a.extractLsb' 0 4).toFin)
  else none

/-- The CSR an address names, whatever `PMP_ENTRIES` is. -/
def csrOfAddr (a : CsrAddr) : Option Csr :=
  match csrUser a with
  | some c => some c
  | none =>
    match csrSupervisor a with
    | some c => some c
    | none =>
      match csrMachine a with
      | some c => some c
      | none => csrPmp a

/-- The address of a CSR (R26). -/
def Csr.addr : Csr → CsrAddr
  | .ustatus => 0x000#12
  | .uie => 0x004#12
  | .utvec => 0x005#12
  | .uscratch => 0x040#12
  | .uepc => 0x041#12
  | .ucause => 0x042#12
  | .utval => 0x043#12
  | .uip => 0x044#12
  | .cycle => 0xC00#12
  | .time => 0xC01#12
  | .instret => 0xC02#12
  | .cycleh => 0xC80#12
  | .timeh => 0xC81#12
  | .instreth => 0xC82#12
  | .sstatus => 0x100#12
  | .sedeleg => 0x102#12
  | .sideleg => 0x103#12
  | .sie => 0x104#12
  | .stvec => 0x105#12
  | .scounteren => 0x106#12
  | .sscratch => 0x140#12
  | .sepc => 0x141#12
  | .scause => 0x142#12
  | .stval => 0x143#12
  | .sip => 0x144#12
  | .satp => 0x180#12
  | .mvendorid => 0xF11#12
  | .marchid => 0xF12#12
  | .mimpid => 0xF13#12
  | .mhartid => 0xF14#12
  | .mstatus => 0x300#12
  | .misa => 0x301#12
  | .medeleg => 0x302#12
  | .mideleg => 0x303#12
  | .mie => 0x304#12
  | .mtvec => 0x305#12
  | .mcounteren => 0x306#12
  | .mscratch => 0x340#12
  | .mepc => 0x341#12
  | .mcause => 0x342#12
  | .mtval => 0x343#12
  | .mip => 0x344#12
  | .pmpcfg k => 0x3A0#12 + BitVec.ofNat 12 k.val
  | .pmpaddr i => 0x3B0#12 + BitVec.ofNat 12 i.val
  | .mcycle => 0xB00#12
  | .minstret => 0xB02#12
  | .mcycleh => 0xB80#12
  | .minstreth => 0xB82#12

/-- Whether this hart has the CSR: "the `pmpcfg`/`pmpaddr` rows exist only for the entries below
`PMP_ENTRIES`" (R26). A `pmpcfg` register exists when the first of its four entries does (log entry 9). -/
def Csr.existsOn (p : Params) : Csr → Bool
  | .pmpcfg k => decide (4 * k.val < p.pmpEntries.val)
  | .pmpaddr i => decide (i.val < p.pmpEntries.val)
  | _ => true

/-- The CSR an address names on this hart (R26, R305). -/
def csrAt (p : Params) (a : CsrAddr) : Option Csr :=
  match csrOfAddr a with
  | none => none
  | some c => if c.existsOn p then some c else none

/-! ## Reads -/

/-- `misa`: `MXL` = 1 and the extension bits `I`, `N`, `S`, `U` (R74). -/
def misaValue : Word := 0x40142100#32

/-- The low and the high word of a 64-bit counter (R70). -/
def lowWord (d : DWord) : Word := d.extractLsb' 0 32
def highWord (d : DWord) : Word := d.extractLsb' 32 32

/-- What a read of a CSR gives, through the register's own view (R52, R53, R55, R60 to R74). -/
def csrRead (s : State) : Csr → Word
  | .ustatus => s.mstatus.toWord &&& ustatusMask
  | .uie => s.mieBits &&& s.midelegBits &&& s.sidelegBits
  | .utvec => s.utvec.toWord
  | .uscratch => s.uscratch
  | .uepc => s.epcOf .U
  | .ucause => s.ucause
  | .utval => s.utval
  | .uip => mipWord s &&& s.midelegBits &&& s.sidelegBits
  | .cycle => lowWord s.mcycle
  | .time => lowWord s.mtime
  | .instret => lowWord s.minstret
  | .cycleh => highWord s.mcycle
  | .timeh => highWord s.mtime
  | .instreth => highWord s.minstret
  | .sstatus => s.mstatus.toWord &&& sstatusMask
  | .sedeleg => s.sedelegBits
  | .sideleg => s.sidelegBits
  | .sie => s.mieBits &&& s.midelegBits
  | .stvec => s.stvec.toWord
  | .scounteren => s.scounterenBits
  | .sscratch => s.sscratch
  | .sepc => s.epcOf .S
  | .scause => s.scause
  | .stval => s.stval
  | .sip => mipWord s &&& s.midelegBits
  | .satp => s.satpBits
  | .mvendorid => 0#32
  | .marchid => 0#32
  | .mimpid => 0#32
  | .mhartid => s.cfg.hartid
  | .mstatus => s.mstatus.toWord
  | .misa => misaValue
  | .medeleg => s.medelegBits
  | .mideleg => s.midelegBits
  | .mie => s.mieBits
  | .mtvec => s.mtvec.toWord
  | .mcounteren => s.mcounterenBits
  | .mscratch => s.mscratch
  | .mepc => s.epcOf .M
  | .mcause => s.mcause
  | .mtval => s.mtval
  | .mip => mipWord s
  | .pmpcfg k => s.pmpCfgWord k.val
  | .pmpaddr i => s.pmpAddrAt i.val
  | .mcycle => lowWord s.mcycle
  | .minstret => lowWord s.minstret
  | .mcycleh => highWord s.mcycle
  | .minstreth => highWord s.minstret

/-- The value a set or clear instruction computes its new value from: what a read gives, but for `mip`,
whose `SEIP` is then `seip_sw` alone, so that the PLIC's line is never latched (R65, D27). -/
def csrModifyBase (s : State) (c : Csr) : Word :=
  match c with
  | .mip => (mipWord s &&& ~~~(0x200#32)) ||| (s.mipSw &&& 0x200#32)
  | _ => csrRead s c

/-! ## Writes (R313) -/

/-- A write of `v` to the low or the high word of a 64-bit counter. -/
def withLowWord (d : DWord) (v : Word) : DWord := highWord d ++ v
def withHighWord (d : DWord) (v : Word) : DWord := v ++ lowWord d

/-- The state after a write of `v`, through the register's own write rule (R44, R52 to R57, R60 to R73).
None of the drops raises anything; a read-only register is never written (R304). -/
def csrWrite (v : Word) (s : State) : Csr → State
  | .ustatus =>
    { s with mstatus := s.mstatus.write (maskedWrite ustatusMask s.mstatus.toWord v) }
  | .uie => { s with mie := maskedWrite (s.midelegBits &&& s.sidelegBits) s.mieBits v &&& mieMask }
  | .utvec => { s with utvec := s.utvec.write v }
  | .uscratch => { s with uscratch := v }
  | .uepc => { s with uepc := v &&& epcMask }
  | .ucause => { s with ucause := v }
  | .utval => { s with utval := v }
  | .uip =>
    { s with mipSw := maskedWrite (uipWriteMask &&& s.midelegBits &&& s.sidelegBits) s.mipSw v }
  | .cycle => s
  | .time => s
  | .instret => s
  | .cycleh => s
  | .timeh => s
  | .instreth => s
  | .sstatus =>
    { s with mstatus := s.mstatus.write (maskedWrite sstatusMask s.mstatus.toWord v) }
  | .sedeleg => { s with sedeleg := v &&& sedelegMask }
  | .sideleg => { s with sideleg := v &&& sidelegMask }
  | .sie => { s with mie := maskedWrite s.midelegBits s.mieBits v &&& mieMask }
  | .stvec => { s with stvec := s.stvec.write v }
  | .scounteren => { s with scounteren := v &&& counterenMask }
  | .sscratch => { s with sscratch := v }
  | .sepc => { s with sepc := v &&& epcMask }
  | .scause => { s with scause := v }
  | .stval => { s with stval := v }
  | .sip => { s with mipSw := maskedWrite (sipWriteMask &&& s.midelegBits) s.mipSw v }
  | .satp => { s with satp := v &&& satpMask }
  | .mvendorid => s
  | .marchid => s
  | .mimpid => s
  | .mhartid => s
  | .mstatus => { s with mstatus := s.mstatus.write v }
  | .misa => s
  | .medeleg => { s with medeleg := v &&& medelegMask }
  | .mideleg => { s with mideleg := v &&& midelegMask }
  | .mie => { s with mie := v &&& mieMask }
  | .mtvec => { s with mtvec := s.mtvec.write v }
  | .mcounteren => { s with mcounteren := v &&& counterenMask }
  | .mscratch => { s with mscratch := v }
  | .mepc => { s with mepc := v &&& epcMask }
  | .mcause => { s with mcause := v }
  | .mtval => { s with mtval := v }
  | .mip => { s with mipSw := v &&& mipWriteMask }
  | .pmpcfg k => s.writePmpCfgWord k.val v
  | .pmpaddr i => s.writePmpAddr i.val v
  | .mcycle => { s with mcycle := withLowWord s.mcycle v }
  | .minstret => { s with minstret := withLowWord s.minstret v }
  | .mcycleh => { s with mcycle := withHighWord s.mcycle v }
  | .minstreth => { s with minstret := withHighWord s.minstret v }

/-! ## Access checks (R304 to R309) -/

/-- `addr[11:10] = 11`: read-only (R27). -/
def csrReadOnly (a : CsrAddr) : Bool := decide (a.extractLsb' 10 2 = 0b11#2)

/-- `priv >= addr[9:8]` (R27, R306). -/
def csrPrivileged (p : Priv) (a : CsrAddr) : Bool := (a.extractLsb' 8 2).ule p.encoding

/-- The bit of `mcounteren` and `scounteren` that gates a counter: `CY` 0, `TM` 1, `IR` 2 (R69). -/
def counterGate : Csr → Option Nat
  | .cycle => some 0
  | .cycleh => some 0
  | .time => some 1
  | .timeh => some 1
  | .instret => some 2
  | .instreth => some 2
  | _ => none

/-- A counter may be read in the current mode: always in M, else with the bit of `mcounteren` set, and
in U with that of `scounteren` set too (R308). -/
def counterReadable (s : State) (c : Csr) : Bool :=
  match counterGate c with
  | none => true
  | some b =>
    match s.priv with
    | .M => true
    | .S => s.mcounterenBits.getLsbD b
    | .U => s.mcounterenBits.getLsbD b && s.scounterenBits.getLsbD b

/-- `satp` may be accessed: not in S-mode under `TVM` (R309). -/
def satpAccessible (s : State) (c : Csr) : Bool :=
  !(decide (c = .satp) && decide (s.priv = .S) && s.mstatus.tvm)

/-- `check_access(csr, does_write)` (R300): the CSR an access reaches, or `none` where it is illegal. -/
def csrAccess (s : State) (a : CsrAddr) (doesWrite : Bool) : Option Csr :=
  match csrAt s.cfg a with
  | none => none
  | some c =>
    if csrPrivileged s.priv a && !(doesWrite && csrReadOnly a) && counterReadable s c
        && satpAccessible s c then some c
    else none

/-! ## One CSR instruction (R300) -/

/-- What a CSR instruction writes back: the new value is computed from the base value and the
operand. -/
inductive CsrOp where
  | write
  | set
  | clear
  deriving DecidableEq, Repr

/-- `new(old, operand)`. -/
def CsrOp.newValue (op : CsrOp) (base operand : Word) : Word :=
  match op with
  | .write => operand
  | .set => base ||| operand
  | .clear => base &&& ~~~operand

/-- The write half of a CSR instruction. -/
def csrUpdate (op : CsrOp) (c : Csr) (operand : Word) (doesWrite : Bool) (s : State) : State :=
  if doesWrite then csrWrite (op.newValue (csrModifyBase s c) operand) s c else s

/-- A CSR whose write replaces the count of completed instructions: the instruction that writes it
does not also increment it (R70, log entry 10). -/
def Csr.isInstret : Csr → Bool
  | .minstret => true
  | .minstreth => true
  | _ => false

/-- The end of a CSR instruction: the next instruction, counted unless it wrote the counter. -/
def completeCsr (c : Csr) (doesWrite : Bool) (s : State) : Out :=
  if doesWrite && c.isInstret then .next (s.setPc (s.pc + 4#32)) else complete s

/-- R300: the access check, the old value, the write, then `x[rd]` (where the instruction reads the
CSR; a write to `x0` is discarded, which is `does_read` = false of `CSRRW` and `CSRRWI`: no CSR of
this hart has a read effect). `w` is the instruction's word. -/
def csrInstr (w : Word) (op : CsrOp) (rd : Reg) (a : CsrAddr) (operand : Word) (doesWrite : Bool)
    (s : State) : Out :=
  match csrAccess s a doesWrite with
  | none => raiseIllegal w s
  | some c => completeCsr c doesWrite ((csrUpdate op c operand doesWrite s).writeX rd (csrRead s c))

end Sys2Proof.Machine
end

