-- ==== Sys2Proof/Machine/CsrInstr.lean ====
section
/-! DEFINITION. Family 6: the CSR access instructions (R301 to R303, R310 to R312). -/

namespace Sys2Proof.Machine

/-- The four CSR instructions the `rd = x0` rule covers (R178): `CSRRS`, `CSRRC` and their immediate
forms, which write the CSR only when their source field is not 0. -/
def csrModify (w : Word) (op : CsrOp) (rd : Reg) (a : CsrAddr) (operand : Word) (source : BitVec 5)
    (s : State) : Out :=
  if rdX0Trap s rd then raiseIllegal w s
  else csrInstr w op rd a operand (decide (source ≠ 0#5)) s

/-- R301. -/
def execCsrrw (rd : Reg) (csr : CsrAddr) (rs1 : Reg) (s : State) : Out :=
  csrInstr (encode (.csrrw rd csr rs1)) .write rd csr (s.readX rs1) true s

/-- R302: the write depends on the register number, not on its value. -/
def execCsrrs (rd : Reg) (csr : CsrAddr) (rs1 : Reg) (s : State) : Out :=
  csrModify (encode (.csrrs rd csr rs1)) .set rd csr (s.readX rs1) rs1 s

/-- R303. -/
def execCsrrc (rd : Reg) (csr : CsrAddr) (rs1 : Reg) (s : State) : Out :=
  csrModify (encode (.csrrc rd csr rs1)) .clear rd csr (s.readX rs1) rs1 s

/-- R310. -/
def execCsrrwi (rd : Reg) (csr : CsrAddr) (uimm : BitVec 5) (s : State) : Out :=
  csrInstr (encode (.csrrwi rd csr uimm)) .write rd csr (uimmWord uimm) true s

/-- R311. -/
def execCsrrsi (rd : Reg) (csr : CsrAddr) (uimm : BitVec 5) (s : State) : Out :=
  csrModify (encode (.csrrsi rd csr uimm)) .set rd csr (uimmWord uimm) uimm s

/-- R312. -/
def execCsrrci (rd : Reg) (csr : CsrAddr) (uimm : BitVec 5) (s : State) : Out :=
  csrModify (encode (.csrrci rd csr uimm)) .clear rd csr (uimmWord uimm) uimm s

end Sys2Proof.Machine
end

