-- ==== Sys2Proof/Machine/Environment.lean ====
section
/-! DEFINITION. Family 5: `ECALL` and `EBREAK` (R290, R291). Both always take an exception; neither counts in
`minstret`. -/

namespace Sys2Proof.Machine

/-- The environment-call exception of a mode: 8, 9 or 11. -/
def ecallExc : Priv → Exc
  | .U => .ecallFromU
  | .S => .ecallFromS
  | .M => .ecallFromM

/-- R290: the exception is chosen by `priv`, never by `MPRV`. -/
def execEcall (s : State) : Out := raise (ecallExc s.priv) 0#32 s

/-- R291. -/
def execEbreak (s : State) : Out := raise .breakpoint 0#32 s

end Sys2Proof.Machine
end

