-- ==== Sys2Proof/Machine/IntegerImmediate.lean ====
section
/-! DEFINITION. Family 3: integer register-immediate instructions (R250 to R259). All arithmetic is modulo
2^32 and none of them raises anything from its computation. -/

namespace Sys2Proof.Machine

/-- R251. -/
def execAddi (rd rs1 : Reg) (imm12 : BitVec 12) (s : State) : Out :=
  writeResult (encode (.addi rd rs1 imm12)) rd (s.readX rs1 + imm12Word imm12) s

/-- R252. -/
def execSlti (rd rs1 : Reg) (imm12 : BitVec 12) (s : State) : Out :=
  writeResult (encode (.slti rd rs1 imm12)) rd (boolWord (ltSigned (s.readX rs1) (imm12Word imm12))) s

/-- R253: the immediate is sign-extended, then compared unsigned. -/
def execSltiu (rd rs1 : Reg) (imm12 : BitVec 12) (s : State) : Out :=
  writeResult (encode (.sltiu rd rs1 imm12)) rd (boolWord (ltUnsigned (s.readX rs1) (imm12Word imm12))) s

/-- R254. -/
def execXori (rd rs1 : Reg) (imm12 : BitVec 12) (s : State) : Out :=
  writeResult (encode (.xori rd rs1 imm12)) rd (s.readX rs1 ^^^ imm12Word imm12) s

/-- R255. -/
def execOri (rd rs1 : Reg) (imm12 : BitVec 12) (s : State) : Out :=
  writeResult (encode (.ori rd rs1 imm12)) rd (s.readX rs1 ||| imm12Word imm12) s

/-- R256. -/
def execAndi (rd rs1 : Reg) (imm12 : BitVec 12) (s : State) : Out :=
  writeResult (encode (.andi rd rs1 imm12)) rd (s.readX rs1 &&& imm12Word imm12) s

/-- R257. -/
def execSlli (rd rs1 : Reg) (shamt : BitVec 5) (s : State) : Out :=
  writeResult (encode (.slli rd rs1 shamt)) rd (s.readX rs1 <<< shamt.toNat) s

/-- R258. -/
def execSrli (rd rs1 : Reg) (shamt : BitVec 5) (s : State) : Out :=
  writeResult (encode (.srli rd rs1 shamt)) rd (s.readX rs1 >>> shamt.toNat) s

/-- R259. -/
def execSrai (rd rs1 : Reg) (shamt : BitVec 5) (s : State) : Out :=
  writeResult (encode (.srai rd rs1 shamt)) rd ((s.readX rs1).sshiftRight shamt.toNat) s

end Sys2Proof.Machine
end

