-- ==== Sys2Proof/Machine/IntegerRegister.lean ====
section
/-! DEFINITION. Family 4: integer register-register instructions (R270 to R281). -/

namespace Sys2Proof.Machine

/-- R272. -/
def execAdd (rd rs1 rs2 : Reg) (s : State) : Out :=
  writeResult (encode (.add rd rs1 rs2)) rd (s.readX rs1 + s.readX rs2) s

/-- R273. -/
def execSub (rd rs1 rs2 : Reg) (s : State) : Out :=
  writeResult (encode (.sub rd rs1 rs2)) rd (s.readX rs1 - s.readX rs2) s

/-- R274: the low five bits of `x[rs2]` count. -/
def execSll (rd rs1 rs2 : Reg) (s : State) : Out :=
  writeResult (encode (.sll rd rs1 rs2)) rd (s.readX rs1 <<< shiftAmount (s.readX rs2)) s

/-- R275. -/
def execSlt (rd rs1 rs2 : Reg) (s : State) : Out :=
  writeResult (encode (.slt rd rs1 rs2)) rd (boolWord (ltSigned (s.readX rs1) (s.readX rs2))) s

/-- R276. -/
def execSltu (rd rs1 rs2 : Reg) (s : State) : Out :=
  writeResult (encode (.sltu rd rs1 rs2)) rd (boolWord (ltUnsigned (s.readX rs1) (s.readX rs2))) s

/-- R277. -/
def execXor (rd rs1 rs2 : Reg) (s : State) : Out :=
  writeResult (encode (.xor rd rs1 rs2)) rd (s.readX rs1 ^^^ s.readX rs2) s

/-- R278. -/
def execSrl (rd rs1 rs2 : Reg) (s : State) : Out :=
  writeResult (encode (.srl rd rs1 rs2)) rd (s.readX rs1 >>> shiftAmount (s.readX rs2)) s

/-- R279. -/
def execSra (rd rs1 rs2 : Reg) (s : State) : Out :=
  writeResult (encode (.sra rd rs1 rs2)) rd ((s.readX rs1).sshiftRight (shiftAmount (s.readX rs2))) s

/-- R280. -/
def execOr (rd rs1 rs2 : Reg) (s : State) : Out :=
  writeResult (encode (.or rd rs1 rs2)) rd (s.readX rs1 ||| s.readX rs2) s

/-- R281. -/
def execAnd (rd rs1 rs2 : Reg) (s : State) : Out :=
  writeResult (encode (.and rd rs1 rs2)) rd (s.readX rs1 &&& s.readX rs2) s

end Sys2Proof.Machine
end

