-- ==== Sys2Proof/Machine/Jumps.lean ====
section
/-! DEFINITION. Family 1: jumps and conditional branches (R210 to R218). -/

namespace Sys2Proof.Machine

/-- A jump to `t` that links: misaligned targets raise, with `rd` not written and `pc` not changed
(R105); else `x[rd] <- pc + 4`, `pc <- t`. -/
def jumpAndLink (rd : Reg) (t : Word) (s : State) : Out :=
  if targetAligned t then completeAt t (s.writeX rd (s.pc + 4#32))
  else raise .instrAddrMisaligned t s

/-- R212: a branch whose condition is `taken`. -/
def branch (taken : Bool) (off : BitVec 13) (s : State) : Out :=
  if taken then
    if targetAligned (s.pc + offset13Word off) then completeAt (s.pc + offset13Word off) s
    else raise .instrAddrMisaligned (s.pc + offset13Word off) s
  else complete s

/-- R210. -/
def execJal (rd : Reg) (off : BitVec 21) (s : State) : Out :=
  jumpAndLink rd (s.pc + offset21Word off) s

/-- R211: the target is formed from the old value of `rs1`. -/
def execJalr (rd rs1 : Reg) (imm12 : BitVec 12) (s : State) : Out :=
  jumpAndLink rd (jalrTarget (s.readX rs1) imm12) s

/-- R213. -/
def execBeq (rs1 rs2 : Reg) (off : BitVec 13) (s : State) : Out :=
  branch (decide (s.readX rs1 = s.readX rs2)) off s

/-- R214. -/
def execBne (rs1 rs2 : Reg) (off : BitVec 13) (s : State) : Out :=
  branch (decide (s.readX rs1 ≠ s.readX rs2)) off s

/-- R215. -/
def execBlt (rs1 rs2 : Reg) (off : BitVec 13) (s : State) : Out :=
  branch (ltSigned (s.readX rs1) (s.readX rs2)) off s

/-- R216. -/
def execBge (rs1 rs2 : Reg) (off : BitVec 13) (s : State) : Out :=
  branch (!ltSigned (s.readX rs1) (s.readX rs2)) off s

/-- R217. -/
def execBltu (rs1 rs2 : Reg) (off : BitVec 13) (s : State) : Out :=
  branch (ltUnsigned (s.readX rs1) (s.readX rs2)) off s

/-- R218. -/
def execBgeu (rs1 rs2 : Reg) (off : BitVec 13) (s : State) : Out :=
  branch (!ltUnsigned (s.readX rs1) (s.readX rs2)) off s

end Sys2Proof.Machine
end

