-- ==== Sys2Proof/Machine/LoadStore.lean ====
section
/-! DEFINITION. Family 2: loads and stores (R230 to R239). -/

namespace Sys2Proof.Machine

/-- R230: the `rd = x0` rule at decode, then the access, then `x[rd] <- ext(v)`. `word` is the
instruction's word. -/
def load (word : Word) (w : Width) (ext : Word → Word) (rd rs1 : Reg) (imm12 : BitVec 12)
    (s : State) : Out :=
  if rdX0Trap s rd then raiseIllegal word s
  else
    match memRead s .load w (effectiveAddress (s.readX rs1) imm12) with
    | .error r => raiseRaised r s
    | .ok v => complete (s.writeX rd (ext v))

/-- R236: the access stores the low bytes of `x[rs2]`. -/
def store (w : Width) (rs2 rs1 : Reg) (imm12 : BitVec 12) (s : State) : Out :=
  match memWrite s w (effectiveAddress (s.readX rs1) imm12) (s.readX rs2) with
  | .error r => raiseRaised r s
  | .ok t => complete t

/-- The low byte, sign-extended (R231). -/
def signByte (v : Word) : Word := (v.extractLsb' 0 8).signExtend 32
/-- The low halfword, sign-extended (R232). -/
def signHalf (v : Word) : Word := (v.extractLsb' 0 16).signExtend 32
/-- The low byte, zero-extended (R234). -/
def zeroByte (v : Word) : Word := (v.extractLsb' 0 8).setWidth 32
/-- The low halfword, zero-extended (R235). -/
def zeroHalf (v : Word) : Word := (v.extractLsb' 0 16).setWidth 32

/-- R231. -/
def execLb (rd rs1 : Reg) (imm12 : BitVec 12) (s : State) : Out :=
  load (encode (.lb rd rs1 imm12)) .byte signByte rd rs1 imm12 s

/-- R232. -/
def execLh (rd rs1 : Reg) (imm12 : BitVec 12) (s : State) : Out :=
  load (encode (.lh rd rs1 imm12)) .half signHalf rd rs1 imm12 s

/-- R233. -/
def execLw (rd rs1 : Reg) (imm12 : BitVec 12) (s : State) : Out :=
  load (encode (.lw rd rs1 imm12)) .word id rd rs1 imm12 s

/-- R234. -/
def execLbu (rd rs1 : Reg) (imm12 : BitVec 12) (s : State) : Out :=
  load (encode (.lbu rd rs1 imm12)) .byte zeroByte rd rs1 imm12 s

/-- R235. -/
def execLhu (rd rs1 : Reg) (imm12 : BitVec 12) (s : State) : Out :=
  load (encode (.lhu rd rs1 imm12)) .half zeroHalf rd rs1 imm12 s

/-- R237. -/
def execSb (rs2 rs1 : Reg) (imm12 : BitVec 12) (s : State) : Out := store .byte rs2 rs1 imm12 s

/-- R238. -/
def execSh (rs2 rs1 : Reg) (imm12 : BitVec 12) (s : State) : Out := store .half rs2 rs1 imm12 s

/-- R239. -/
def execSw (rs2 rs1 : Reg) (imm12 : BitVec 12) (s : State) : Out := store .word rs2 rs1 imm12 s

end Sys2Proof.Machine
end

