-- ==== Sys2Proof/Machine/Privileged.lean ====
section
/-! DEFINITION. Family 7: trap return, wait and fences (R320 to R327). -/

namespace Sys2Proof.Machine

/-- An `xRET` that may be executed: its state changes happen together, and it counts as completed. -/
def returnFrom (x : Priv) (s : State) : Out := .next ((trapReturn x s).retire)

/-- R321: legal in M-mode only. -/
def execMret (s : State) : Out :=
  match s.priv with
  | .M => returnFrom .M s
  | .S => raiseIllegal (encode .mret) s
  | .U => raiseIllegal (encode .mret) s

/-- R322: legal in M-mode, and in S-mode unless `TSR` = 1. -/
def execSret (s : State) : Out :=
  match s.priv with
  | .M => returnFrom .S s
  | .S => if s.mstatus.tsr then raiseIllegal (encode .sret) s else returnFrom .S s
  | .U => raiseIllegal (encode .sret) s

/-- R323: legal in every mode. -/
def execUret (s : State) : Out := returnFrom .U s

/-- R324: illegal below M when `TW` = 1 (the time limit is zero, D14), else the hart stalls with `pc`
already at the next instruction; it counts as completed when it is executed. -/
def execWfi (s : State) : Out :=
  if decide (s.priv ≠ .M) && s.mstatus.tw then raiseIllegal (encode .wfi) s
  else complete { s with wfiStalled := true }

/-- R325: illegal in U-mode, and in S-mode when `TVM` = 1; else nothing changes, since every access
walks the tables in memory (R88). -/
def execSfenceVma (rs1 rs2 : Reg) (s : State) : Out :=
  match s.priv with
  | .M => complete s
  | .S => if s.mstatus.tvm then raiseIllegal (encode (.sfenceVma rs1 rs2)) s else complete s
  | .U => raiseIllegal (encode (.sfenceVma rs1 rs2)) s

/-- R326: with one hart and a sequential memory (R145), only the next instruction. Its fields select
what other agents may observe, and are not read here. -/
def execFence (s : State) : Out := complete s

end Sys2Proof.Machine
end

