-- ==== Sys2Proof/Machine/UpperImmediate.lean ====
section
/-! DEFINITION. Family 0: `LUI` and `AUIPC` (R203, R204). -/

namespace Sys2Proof.Machine

/-- R203: `x[rd] <- immU`. -/
def execLui (rd : Reg) (imm20 : BitVec 20) (s : State) : Out :=
  writeResult (encode (.lui rd imm20)) rd (imm20Word imm20) s

/-- R204: `x[rd] <- pc + immU`. -/
def execAuipc (rd : Reg) (imm20 : BitVec 20) (s : State) : Out :=
  writeResult (encode (.auipc rd imm20)) rd (s.pc + imm20Word imm20) s

end Sys2Proof.Machine
end

