-- ==== Sys2Proof/Machine/Step.lean ====
section
/-! DEFINITION. One step of the machine, and the placing of a word for its next fetch. Everything they do
stands in Machine/Cycle.lean. -/

namespace Sys2Proof.Machine

/-- One step of the hart (R12). -/
def step : State → Host.Outcome State Fault Refusal := stepWith exec

/-- The state with the instruction whose low `nbits` bits are `w` (the bits above them 0) where the next
step fetches. -/
def State.withFetchWord (s : State) (nbits w : Nat) : State := loadAtFetch s (tableWord nbits w)

end Sys2Proof.Machine
end

