-- ==== Sys2Proof/Safety.lean ====
section
/-! DEFINITION. What a safe state and a safe run are, in the terms the statements use: the invariant of the
hart's state, what R90 says of the state after reset, and the shapes of what one instruction may do. -/

namespace Sys2Proof.Machine

/-! ## The invariant -/

/-- Two low zero bits: an instruction address (R22, R55). -/
def wordAligned (a : Word) : Bool := decide (a.extractLsb' 0 2 = 0#2)

/-- Every bit of `v` outside `mask` is 0. -/
def within (mask v : Word) : Bool := decide (v &&& mask = v)

/-- The instruction addresses the hart holds are aligned (R22, R55). -/
def State.addressesAligned (s : State) : Bool :=
  wordAligned s.pc && wordAligned s.mepc && wordAligned s.sepc && wordAligned s.uepc

/-- The bits the spec hardwires to 0 are 0 where they are stored (R60 to R65, R68, R69). -/
def State.hardwiredZero (s : State) : Bool :=
  within medelegMask s.medeleg && within midelegMask s.mideleg && within sedelegMask s.sedeleg
    && within sidelegMask s.sideleg && within mieMask s.mie && within mipWriteMask s.mipSw
    && within satpMask s.satp && within counterenMask s.mcounteren
    && within counterenMask s.scounteren

/-- Main memory and the record of what was stored to are in their canonical forms. -/
def State.memoryCanonical (s : State) : Bool :=
  Memory.wf s.mem && strictlyRising s.stored && s.stored.all (fun a => decide (a < 2 ^ 34))

/-- The invariant of the hart: parameters a platform can have, aligned instruction addresses, hardwired
bits at zero, memory in canonical form. -/
def State.wf (s : State) : Bool :=
  s.cfg.wf && s.addressesAligned && s.hardwiredZero && s.memoryCanonical

/-! ## After reset (R90) -/

/-- A state the hart can be in right after reset: what R90 states a value for has it, and everything it
leaves unspecified is as it may be. Of memory only the bytes of ROM are stated; main memory holds
anything, a loaded program among it. Nothing was stored to since that load (R148). -/
structure State.AfterReset (s : State) : Prop where
  mode : s.priv = .M
  address : s.pc = s.cfg.resetVector
  interruptsOff : s.mstatus.mie = false
  ownPrivilege : s.mstatus.mprv = false
  cause : s.mcause = 0#32
  protectionOff : ∀ i, (s.pmpCfgAt i).a = .off ∧ (s.pmpCfgAt i).l = false
  running : s.wfiStalled = false
  rom : ∀ a, placeOf s.cfg a = .rom → s.mem.read a = Memory.read s.cfg.romImage a
  nothingStored : s.stored = [] ∧ s.msipStored = false

/-! ## When a step runs -/

/-- The state in which a step looks for an interrupt and fetches: after the platform, not stalled (R12). -/
def awake (s : State) : State := { platform s with wfiStalled := false }

/-- The step goes on past the wake-up decision: the hart is not stalled, or a locally enabled interrupt is
pending, or it wakes spuriously (R324). -/
def State.runs (s : State) : Prop :=
  s.wfiStalled = false ∨ mipWord (platform s) &&& csrRead (platform s) .mie ≠ 0#32 ∨
    (nextInput s).env.wake = true

/-! ## What an instruction did -/

/-- The instruction that led from `s` to `t` wrote `v` to `x[rd]` (nothing, where `rd` is `x0`), went on
at `nextPc`, was counted, and did nothing else (R20, R22, R70). -/
structure CompletedWith (s t : State) (rd : Reg) (v nextPc : Word) : Prop where
  result : rd ≠ 0#5 → t.readX rd = v
  zero : t.readX 0#5 = 0#32
  otherRegisters : ∀ r, r ≠ rd → t.readX r = s.readX r
  nextAddress : t.pc = nextPc
  counted : t.minstret = s.minstret + 1#64
  memoryKept : ∀ use a, physReadByte t use a = physReadByte s use a
  nothingElse : t = { s with x := t.x, pc := t.pc, minstret := t.minstret }

/-- The instruction that led from `s` to `t` went on at `nextPc`, was counted, and did nothing else. -/
def CompletedOnly (s t : State) (nextPc : Word) : Prop :=
  t = { s with pc := nextPc, minstret := s.minstret + 1#64 }

/-- `a` is one of the bytes of an access of width `w` at `pa`. -/
def InAccess (w : Width) (pa : PAddr) (a : Nat) : Prop := pa.toNat ≤ a ∧ a < pa.toNat + w.bytes

/-- A byte at this place reads back as it was stored: main memory and the two timer registers. -/
def Place.storesBytes : Place → Bool
  | .ram => true
  | .mtimecmp _ => true
  | .mtime _ => true
  | _ => false

/-- Byte `i` of a word, the least significant first (R102). -/
def byteOf (v : Word) (i : Nat) : Byte := v.extractLsb' (8 * i) 8

/-- The store that led from `s` to `t` put the low bytes of `v` at the physical address `pa`, went on with
the next instruction, was counted, and did nothing else: every byte outside the access reads as
before, and so does every register (R101, R102, R236). What a store to ROM and to a device leaves, which
bytes are marked, and what a narrow store to a CLINT register does are the model's choice (log entries
6, 7, 8 and 12). -/
structure StoredAt (s t : State) (w : Width) (pa : PAddr) (v : Word) : Prop where
  bytes : ∀ use i, i < w.bytes → (placeOf s.cfg (pa.toNat + i)).storesBytes = true →
    physReadByte t use (pa.toNat + i) = byteOf v i
  romBytes : ∀ use i, i < w.bytes → placeOf s.cfg (pa.toNat + i) = .rom →
    physReadByte t use (pa.toNat + i) = byteOf v i ∨
      physReadByte t use (pa.toNat + i) = physReadByte s use (pa.toNat + i)
  softwareInterrupt : ∀ i, i < w.bytes → placeOf s.cfg (pa.toNat + i) = .msip 0 →
    t.msipBit = (byteOf v i).getLsbD 0
  otherBytes : ∀ use a, ¬ InAccess w pa a → physReadByte t use a = physReadByte s use a
  otherMemory : ∀ a, ¬ InAccess w pa a → t.mem.read a = s.mem.read a
  marked : ∀ a, a ∈ t.stored ↔ a ∈ s.stored ∨ InAccess w pa a
  msipKept : (∀ i, i < w.bytes → placeOf s.cfg (pa.toNat + i) ≠ .msip 0) → t.msipBit = s.msipBit
  mtimecmpKept : (∀ i off, i < w.bytes → placeOf s.cfg (pa.toNat + i) ≠ .mtimecmp off) →
    t.mtimecmp = s.mtimecmp
  mtimeKept : (∀ i off, i < w.bytes → placeOf s.cfg (pa.toNat + i) ≠ .mtime off) →
    t.mtime = s.mtime
  registers : ∀ r, t.readX r = s.readX r
  nextAddress : t.pc = s.pc + 4#32
  counted : t.minstret = s.minstret + 1#64
  nothingElse : t =
    { s with
      mem := t.mem, stored := t.stored, msipBit := t.msipBit, mtimecmp := t.mtimecmp,
      mtime := t.mtime, pc := t.pc, minstret := t.minstret }

/-- The trap entry of R420 that leads from `s` to `t`, into mode `x`, said register by register. -/
structure TrapEntered (s t : State) (x : Priv) (c : Cause) (epc tval : Word) : Prop where
  mode : t.priv = x
  handler : t.pc = trapVector s x c
  awake : t.wfiStalled = false
  machine : x = .M → t.mepc = epc ∧ t.mcause = c.word ∧ t.mtval = tval ∧
    t.mstatus = { s.mstatus with mpie := s.mstatus.mie, mie := false, mpp := s.priv }
  machineKept : x ≠ .M → t.mepc = s.mepc ∧ t.mcause = s.mcause ∧ t.mtval = s.mtval ∧
    t.mstatus.mie = s.mstatus.mie ∧ t.mstatus.mpie = s.mstatus.mpie ∧ t.mstatus.mpp = s.mstatus.mpp
  supervisor : x = .S → t.sepc = epc ∧ t.scause = c.word ∧ t.stval = tval ∧
    t.mstatus =
      { s.mstatus with spie := s.mstatus.sie, sie := false, spp := decide (s.priv = .S) }
  supervisorKept : x ≠ .S → t.sepc = s.sepc ∧ t.scause = s.scause ∧ t.stval = s.stval ∧
    t.mstatus.sie = s.mstatus.sie ∧ t.mstatus.spie = s.mstatus.spie ∧ t.mstatus.spp = s.mstatus.spp
  user : x = .U → t.uepc = epc ∧ t.ucause = c.word ∧ t.utval = tval ∧
    t.mstatus = { s.mstatus with upie := s.mstatus.uie, uie := false }
  userKept : x ≠ .U → t.uepc = s.uepc ∧ t.ucause = s.ucause ∧ t.utval = s.utval ∧
    t.mstatus.uie = s.mstatus.uie ∧ t.mstatus.upie = s.mstatus.upie
  nothingElse : t =
    { s with
      mepc := t.mepc, sepc := t.sepc, uepc := t.uepc, mcause := t.mcause, scause := t.scause,
      ucause := t.ucause, mtval := t.mtval, stval := t.stval, utval := t.utval,
      mstatus := t.mstatus, priv := t.priv, pc := t.pc, wfiStalled := t.wfiStalled }

/-- A safe outcome: the hart goes on. A fault would stop it, a refusal gives the step no meaning. -/
def Out.goesOn : Out → Bool
  | .next _ => true
  | .fault _ => false
  | .refused _ => false

/-- The instruction raised exception `e` with value `tval`: a trap entry and nothing else (R11, R404). -/
def RaisedBy (out : Out) (s : State) (e : Exc) (tval : Word) : Prop :=
  out = .next (trapEntry (.exception e) s.pc tval s)

/-- What a conditional branch to `target` may answer: the next instruction where the condition does not
hold, whatever the target is; the target where it holds; the exception where it holds and the
target is misaligned (R105, R212). -/
def BranchOutcome (out : Out) (s : State) (cond : Prop) (target : Word) : Prop :=
  (¬ cond → ∃ t, out = .next t ∧ CompletedOnly s t (s.pc + 4#32)) ∧
    (cond → target.extractLsb' 0 2 = 0#2 → ∃ t, out = .next t ∧ CompletedOnly s t target) ∧
    (cond → target.extractLsb' 0 2 ≠ 0#2 → RaisedBy out s .instrAddrMisaligned target)

/-- What a jump that links may answer (R105, R210, R211). -/
def JumpOutcome (out : Out) (s : State) (rd : Reg) (target : Word) : Prop :=
  (target.extractLsb' 0 2 = 0#2 →
      ∃ t, out = .next t ∧ CompletedWith s t rd (s.pc + 4#32) target) ∧
    (target.extractLsb' 0 2 ≠ 0#2 → RaisedBy out s .instrAddrMisaligned target)

/-- The instruction is one of the thirty that R178 covers, and its destination is `x0`. -/
def setsX0 : Instr → Bool
  | .lui rd _ | .auipc rd _ => decide (rd = 0#5)
  | .lb rd _ _ | .lh rd _ _ | .lw rd _ _ | .lbu rd _ _ | .lhu rd _ _ => decide (rd = 0#5)
  | .addi rd _ _ | .slti rd _ _ | .sltiu rd _ _ | .xori rd _ _ | .ori rd _ _ | .andi rd _ _ =>
    decide (rd = 0#5)
  | .slli rd _ _ | .srli rd _ _ | .srai rd _ _ => decide (rd = 0#5)
  | .add rd _ _ | .sub rd _ _ | .sll rd _ _ | .slt rd _ _ | .sltu rd _ _ => decide (rd = 0#5)
  | .xor rd _ _ | .srl rd _ _ | .sra rd _ _ | .or rd _ _ | .and rd _ _ => decide (rd = 0#5)
  | .csrrs rd _ _ | .csrrc rd _ _ | .csrrsi rd _ _ | .csrrci rd _ _ => decide (rd = 0#5)
  | .jal .. | .jalr .. | .beq .. | .bne .. | .blt .. | .bge .. | .bltu .. | .bgeu .. => false
  | .sb .. | .sh .. | .sw .. | .fence .. | .ecall | .ebreak => false
  | .csrrw .. | .csrrwi .. | .uret | .sret | .mret | .wfi | .sfenceVma .. => false

/-- `t` differs from `s` at most in the state that holds the CSR `c` (R52, R53, R66, R67, R70). -/
def Csr.changesOnly (c : Csr) (s t : State) : Prop :=
  match c with
  | .ustatus | .sstatus | .mstatus => t = { s with mstatus := t.mstatus }
  | .uie | .sie | .mie => t = { s with mie := t.mie }
  | .uip | .sip | .mip => t = { s with mipSw := t.mipSw }
  | .utvec => t = { s with utvec := t.utvec }
  | .stvec => t = { s with stvec := t.stvec }
  | .mtvec => t = { s with mtvec := t.mtvec }
  | .uscratch => t = { s with uscratch := t.uscratch }
  | .sscratch => t = { s with sscratch := t.sscratch }
  | .mscratch => t = { s with mscratch := t.mscratch }
  | .uepc => t = { s with uepc := t.uepc }
  | .sepc => t = { s with sepc := t.sepc }
  | .mepc => t = { s with mepc := t.mepc }
  | .ucause => t = { s with ucause := t.ucause }
  | .scause => t = { s with scause := t.scause }
  | .mcause => t = { s with mcause := t.mcause }
  | .utval => t = { s with utval := t.utval }
  | .stval => t = { s with stval := t.stval }
  | .mtval => t = { s with mtval := t.mtval }
  | .sedeleg => t = { s with sedeleg := t.sedeleg }
  | .sideleg => t = { s with sideleg := t.sideleg }
  | .medeleg => t = { s with medeleg := t.medeleg }
  | .mideleg => t = { s with mideleg := t.mideleg }
  | .scounteren => t = { s with scounteren := t.scounteren }
  | .mcounteren => t = { s with mcounteren := t.mcounteren }
  | .satp => t = { s with satp := t.satp }
  | .pmpcfg _ => t = { s with pmpcfg := t.pmpcfg }
  | .pmpaddr _ => t = { s with pmpaddr := t.pmpaddr }
  | .mcycle | .mcycleh => t = { s with mcycle := t.mcycle }
  | .minstret | .minstreth => t = { s with minstret := t.minstret }
  | .misa | .mvendorid | .marchid | .mimpid | .mhartid => t = s
  | .cycle | .cycleh | .time | .timeh | .instret | .instreth => t = s

/-- A CSR instruction led from `s` to `t`: `x[rd]` holds what the CSR read as before, the state that holds
the CSR is as in `u`, the program counter is at the next instruction, the instruction is counted
unless it wrote `minstret` (R70) or `minstreth` (the model's reading, log entry 10), and nothing else
changed (R300). -/
structure CsrCompleted (s t u : State) (rd : Reg) (c : Csr) (wrote : Bool) : Prop where
  result : rd ≠ 0#5 → t.readX rd = csrRead s c
  zero : t.readX 0#5 = 0#32
  otherRegisters : ∀ r, r ≠ rd → t.readX r = s.readX r
  nextAddress : t.pc = s.pc + 4#32
  counted : t.minstret = if wrote && c.isInstret then u.minstret else s.minstret + 1#64
  memoryKept : ∀ use a, physReadByte t use a = physReadByte s use a
  nothingElse : t = { u with x := t.x, pc := t.pc, minstret := t.minstret }

/-! ## What a mode cannot change -/

/-- The registers only machine mode may write, but for `mie`, `mip` and the counters, are in `t` what they
were in `s`. -/
structure MachineKept (s t : State) : Prop where
  cfg : t.cfg = s.cfg
  statusFields : t.mstatus.tsr = s.mstatus.tsr ∧ t.mstatus.tw = s.mstatus.tw ∧
    t.mstatus.tvm = s.mstatus.tvm ∧ t.mstatus.mprv = s.mstatus.mprv ∧ t.mstatus.mpp = s.mstatus.mpp ∧
    t.mstatus.mpie = s.mstatus.mpie ∧ t.mstatus.mie = s.mstatus.mie
  trapRegisters : t.mtvec = s.mtvec ∧ t.mepc = s.mepc ∧ t.mcause = s.mcause ∧ t.mtval = s.mtval
  delegation : t.medeleg = s.medeleg ∧ t.mideleg = s.mideleg
  counters : t.mcounteren = s.mcounteren
  scratch : t.mscratch = s.mscratch
  protection : t.pmpcfg = s.pmpcfg ∧ t.pmpaddr = s.pmpaddr

/-- The registers only supervisor and machine mode may write, but for `sie` and `sip`, are in `t` what they
were in `s`. -/
structure SupervisorKept (s t : State) : Prop where
  statusFields : t.mstatus.mxr = s.mstatus.mxr ∧ t.mstatus.sum = s.mstatus.sum ∧
    t.mstatus.spp = s.mstatus.spp ∧ t.mstatus.spie = s.mstatus.spie ∧ t.mstatus.sie = s.mstatus.sie
  trapRegisters : t.stvec = s.stvec ∧ t.sepc = s.sepc ∧ t.scause = s.scause ∧ t.stval = s.stval
  delegation : t.sedeleg = s.sedeleg ∧ t.sideleg = s.sideleg
  counters : t.scounteren = s.scounteren
  scratch : t.sscratch = s.sscratch
  translation : t.satp = s.satp

end Sys2Proof.Machine
end

