-- ==== Sys2Proof/Certificates/Slice0/Obligations.lean ====
section
/-! DEFINITION. The statements for the provers. Each docstring names the rule of spec/ it formalises; a
statement that rests on a choice of the model says so and names the log entry. -/

open Sys2Proof Sys2Proof.Machine

/-! ## Encoding -/

/-- R171 to R174: decoding the word of a well-formed instruction gives the instruction back, with every
operand at every value its field can hold. -/
def Obligations.DecodeEncode : Prop := ∀ i : Instr, i.wf = true → decode (encode i) = .ok i

/-- R171 to R174: a word that decodes is the word of what it decodes to; no bit of it is dropped. -/
def Obligations.EncodeDecode : Prop :=
  ∀ (w : Word) (i : Instr), decode w = .ok i → encode i = w ∧ i.wf = true

/-- R175 (2), R187: a word decodes to an instruction exactly when it matches that instruction's row of the
opcode table, and it matches at most one row. -/
def Obligations.DecodesByTable : Prop :=
  (∀ (w : Word), ∀ r ∈ opcodeRows, r.matchesWord w = true ↔
      ∃ i, decode w = .ok i ∧ mnemonicOf i = r.mnemonic) ∧
    (∀ (w : Word), ∀ r ∈ opcodeRows, ∀ q ∈ opcodeRows, r.matchesWord w = true →
      q.matchesWord w = true → r = q)

/-- R171 to R174: words written out from the formats decode to the instructions they stand for (the
examples of R203, R210, R213, R233, R239, R259, R273, R301, R311, R325, R326). -/
def Obligations.SampleWordsDecode : Prop :=
  decode 0x12345537#32 = .ok (.lui 10#5 0x12345#20) ∧
    decode 0xFF9FF06F#32 = .ok (.jal 0#5 0x1FFFF8#21) ∧
    decode 0x00B50463#32 = .ok (.beq 10#5 11#5 8#13) ∧
    decode 0x00812503#32 = .ok (.lw 10#5 2#5 8#12) ∧
    decode 0xFEA12E23#32 = .ok (.sw 10#5 2#5 0xFFC#12) ∧
    decode 0x4045D513#32 = .ok (.srai 10#5 11#5 4#5) ∧
    decode 0x40C58533#32 = .ok (.sub 10#5 11#5 12#5) ∧
    decode 0x30529073#32 = .ok (.csrrw 0#5 0x305#12 5#5) ∧
    decode 0x30046E73#32 = .ok (.csrrsi 28#5 0x300#12 8#5) ∧
    decode 0x12B50073#32 = .ok (.sfenceVma 10#5 11#5) ∧
    decode 0x0330000F#32 = .ok (.fence 0#4 3#4 3#4 0#5 0#5)

/-- R176: a word whose low half is zero, the word of all ones, and every word whose two low bits are not
11 raise `IllegalInstr`, with the word as value. -/
def Obligations.ReservedPatternsIllegal : Prop :=
  ∀ (s : State) (w : Word), fetch s = .word w →
    (w.extractLsb' 0 16 = 0#16 ∨ w = 0xFFFFFFFF#32 ∨ w.extractLsb' 0 2 ≠ 0b11#2) →
    fetchDecodeRun exec s = .next (trapEntry (.exception .illegalInstr) s.pc w s)

/-- R177: a word that matches no row of the opcode table raises `IllegalInstr` with the word as value; the
multiply and divide encodings, the atomic, floating-point and custom opcodes the rule lists,
`FENCE.I`, and every major opcode but the eleven in use match no row. -/
def Obligations.UnlistedWordsIllegal : Prop :=
  (∀ (s : State) (w : Word), fetch s = .word w → (∀ r ∈ opcodeRows, r.matchesWord w = false) →
      fetchDecodeRun exec s = .next (trapEntry (.exception .illegalInstr) s.pc w s)) ∧
    (∀ w : Word,
      ((w.extractLsb' 0 7 = 0b0110011#7 ∧ w.extractLsb' 25 7 = 0b0000001#7) ∨
        (w.extractLsb' 0 7 = 0b0001111#7 ∧ w.extractLsb' 12 3 = 0b001#3) ∨
        w.extractLsb' 0 7 ∈ [0b0101111#7, 0b0000111#7, 0b0100111#7, 0b1000011#7, 0b1000111#7,
          0b1001011#7, 0b1001111#7, 0b1010011#7, 0b0001011#7, 0b0101011#7, 0b1011011#7,
          0b1111011#7] ∨
        w.extractLsb' 0 7 ∉ [0b0110111#7, 0b0010111#7, 0b1101111#7, 0b1100111#7, 0b1100011#7,
          0b0000011#7, 0b0100011#7, 0b0010011#7, 0b0110011#7, 0b0001111#7, 0b1110011#7]) →
      ∀ r ∈ opcodeRows, r.matchesWord w = false)

/-! ## One step (R12) -/

/-- R12, R175, R324: where a step runs (the hart is not stalled, or wakes) and takes no interrupt, and none
of the four bytes at the program counter was stored to, the step is the platform's part and then the
meaning of the instruction the bytes decode to; where they are no instruction it is `IllegalInstr`
with their word as value. -/
def Obligations.StepRunsDecoded : Prop :=
  ∀ (s : State) (pa : PAddr), s.runs →
    interruptTaken (awake s) = none →
    resolve (awake s) .fetch .word s.pc = .ok pa →
    storedTo (awake s) .word pa = false →
    let b := fun i => physReadByte (awake s) (.access .fetch) (pa.toNat + i)
    (∀ i, decodeBytes [b 0, b 1, b 2, b 3] = .ok i → step s = exec i (awake s)) ∧
    (∀ e, decodeBytes [b 0, b 1, b 2, b 3] = .error e →
      step s = .next (trapEntry (.exception .illegalInstr) s.pc (b 3 ++ b 2 ++ b 1 ++ b 0) (awake s)))

/-- R12 (1), R70, R87, R145 (b), R148, R487, R503: what the platform does before the instruction. Where the
next input writes no memory it samples the two lines and the software-interrupt bit and advances the two
counters, `mcycle` by at least one. The last byte another agent writes to an address of main memory or of a
timer register is what is read there, the last one written to the first byte of `msip` gives its bit, every
byte written is marked as stored to and no other, and a byte of main memory no agent writes is as before; so
is every register but the lines, the timers, `msip_bit` and `mcycle`. (That `mcycle` advances here, when
other agents write, and how writes are marked are the model's choice, log entries 5, 8, 11 and 12.) -/
def Obligations.PlatformEffect : Prop :=
  (∀ s : State, (nextInput s).writes = [] →
      platform s =
        { s with
          inputs := s.inputs.tail, tick := s.tick + 1, meipLine := (nextInput s).env.meip,
          seipLine := (nextInput s).env.seip, msipBit := (nextInput s).env.msip.getD s.msipBit,
          msipStored := s.msipStored || (nextInput s).env.msip.isSome,
          mtime := s.mtime + BitVec.ofNat 64 (nextInput s).env.mtimeInc,
          mcycle := s.mcycle + BitVec.ofNat 64 ((nextInput s).env.mcycleMore + 1) }) ∧
    (∀ (s : State) (before after : List (PAddr × Byte)) (a : PAddr) (b : Byte),
      s.memoryCanonical = true → (nextInput s).writes = before ++ (a, b) :: after →
      (∀ w ∈ after, w.1 ≠ a) →
      ((placeOf s.cfg a.toNat).storesBytes = true → ∀ use, physReadByte (platform s) use a.toNat = b) ∧
        (placeOf s.cfg a.toNat = .msip 0 → (platform s).msipBit = b.getLsbD 0)) ∧
    (∀ (s : State) (a : Nat), a ∈ (platform s).stored ↔
      a ∈ s.stored ∨ (placeOf s.cfg a ≠ .vacant ∧ ∃ w ∈ (nextInput s).writes, w.1.toNat = a)) ∧
    (∀ (s : State) (a : Nat), (∀ w ∈ (nextInput s).writes, w.1.toNat ≠ a) →
      (platform s).mem.read a = s.mem.read a) ∧
    (∀ s : State,
      platform s =
        { s with
          inputs := (platform s).inputs, tick := (platform s).tick,
          meipLine := (platform s).meipLine, seipLine := (platform s).seipLine,
          msipBit := (platform s).msipBit, msipStored := (platform s).msipStored,
          mtime := (platform s).mtime, mtimecmp := (platform s).mtimecmp,
          mcycle := (platform s).mcycle, mem := (platform s).mem, stored := (platform s).stored })

/-- R12, R200, R324: where a step runs (the hart is not stalled, or wakes) and takes no interrupt, a fetch
that raises is a trap entry with `pc` as `epc`, and the exception is an access fault or a page fault of a
fetch at `pc`. -/
def Obligations.FetchExceptions : Prop :=
  ∀ (s : State) (r : Raised), s.runs → interruptTaken (awake s) = none →
    resolve (awake s) .fetch .word s.pc = .error r →
    step s = .next (trapEntry (.exception r.exc) s.pc r.tval (awake s)) ∧ r.tval = s.pc ∧
      (r.exc = .instrAccessFault ∨ r.exc = .instrPageFault)

/-- R148, R562, R432: a step answers a next state, but for one case: it runs (the hart is not stalled, or
wakes), takes no interrupt, and the word at `pc` has a byte that was stored to since it was loaded. There
the model refuses the fetch, as the spec asks (which bytes are marked is the model's choice, log entry
8). -/
def Obligations.StepOutcomes : Prop :=
  ∀ s : State, (step s = .refused .fetchOfStoredBytes ∨ ∃ t, step s = .next t) ∧
    (step s = .refused .fetchOfStoredBytes ↔
      s.runs ∧ interruptTaken (awake s) = none ∧
        ∃ pa, resolve (awake s) .fetch .word s.pc = .ok pa ∧
          ∃ k < 4, pa.toNat + k ∈ (awake s).stored ∨
            ((∃ off, placeOf s.cfg (pa.toNat + k) = .msip off) ∧ (awake s).msipStored = true))

/-- R324, R85: a stalled hart wakes when a locally enabled interrupt is pending, `(mip & mie) != 0`,
whatever the global enables and delegation hold, or spuriously; then the step goes on with the interrupt
check, no longer stalled. Otherwise the step changes nothing but what the platform changes. -/
def Obligations.StalledStep : Prop :=
  ∀ s : State, s.wfiStalled = true →
    (mipWord (platform s) &&& csrRead (platform s) .mie = 0#32 → (nextInput s).env.wake = false →
      step s = .next (platform s)) ∧
    (mipWord (platform s) &&& csrRead (platform s) .mie ≠ 0#32 ∨ (nextInput s).env.wake = true →
      step s = runUnstalled exec (awake s) ∧ (awake s).wfiStalled = false)

/-! ## General registers -/

/-- R20: `x0` reads as 0 and a write to it is discarded; every other register reads as last written. -/
def Obligations.RegisterFile : Prop :=
  ∀ (s : State) (r q : Reg) (v : Word), s.readX 0#5 = 0#32 ∧ s.writeX 0#5 v = s ∧
    (s.writeX r v).readX q = if q = r ∧ r ≠ 0#5 then v else s.readX q

/-- R178, R202: where `RD_X0_ILLEGAL` holds, each of the thirty instructions the rule names raises
`IllegalInstr` with its own word when its destination is `x0`, before anything else of it happens. -/
def Obligations.RdX0Illegal : Prop :=
  ∀ (s : State) (i : Instr), s.cfg.rdX0Illegal = true → setsX0 i = true →
    RaisedBy (exec i s) s .illegalInstr (encode i)

/-! ## Upper immediates and integer arithmetic -/

/-- R203, R204: `LUI` and `AUIPC` complete with the immediate in bits 31:12, added to `pc` for `AUIPC`. -/
def Obligations.UpperImmediates : Prop :=
  ∀ (s : State) (rd : Reg) (imm : BitVec 20), rdX0Trap s rd = false →
    (∃ t, exec (.lui rd imm) s = .next t ∧
      CompletedWith s t rd (BitVec.ofNat 32 (imm.toNat * 4096)) (s.pc + 4#32)) ∧
    (∃ t, exec (.auipc rd imm) s = .next t ∧
      CompletedWith s t rd (BitVec.ofNat 32 (s.pc.toNat + imm.toNat * 4096)) (s.pc + 4#32))

/-- R250 to R256: the register-immediate instructions that do not shift complete, with the sign-extended
immediate as the second operand; `SLTI` compares signed, `SLTIU` unsigned. -/
def Obligations.RegisterImmediates : Prop :=
  ∀ (s : State) (rd rs1 : Reg) (imm : BitVec 12), rdX0Trap s rd = false →
    (∃ t, exec (.addi rd rs1 imm) s = .next t ∧
      CompletedWith s t rd (BitVec.ofInt 32 ((s.readX rs1).toInt + imm.toInt)) (s.pc + 4#32)) ∧
    (∃ t, exec (.slti rd rs1 imm) s = .next t ∧
      CompletedWith s t rd (if (s.readX rs1).toInt < imm.toInt then 1#32 else 0#32)
        (s.pc + 4#32)) ∧
    (∃ t, exec (.sltiu rd rs1 imm) s = .next t ∧
      CompletedWith s t rd
        (if (s.readX rs1).toNat < (imm.signExtend 32).toNat then 1#32 else 0#32) (s.pc + 4#32)) ∧
    (∃ t, exec (.xori rd rs1 imm) s = .next t ∧
      CompletedWith s t rd (s.readX rs1 ^^^ imm.signExtend 32) (s.pc + 4#32)) ∧
    (∃ t, exec (.ori rd rs1 imm) s = .next t ∧
      CompletedWith s t rd (s.readX rs1 ||| imm.signExtend 32) (s.pc + 4#32)) ∧
    (∃ t, exec (.andi rd rs1 imm) s = .next t ∧
      CompletedWith s t rd (s.readX rs1 &&& imm.signExtend 32) (s.pc + 4#32))

/-- R257 to R259, R274, R278, R279: the shifts complete. A left shift multiplies by a power of two modulo
2^32, a logical right shift divides the unsigned value, an arithmetic one divides the signed value
rounding down; a shift by a register uses only its low five bits. -/
def Obligations.Shifts : Prop :=
  ∀ (s : State) (rd rs1 rs2 : Reg) (sh : BitVec 5), rdX0Trap s rd = false →
    (∃ t, exec (.slli rd rs1 sh) s = .next t ∧
      CompletedWith s t rd (BitVec.ofNat 32 ((s.readX rs1).toNat * 2 ^ sh.toNat)) (s.pc + 4#32)) ∧
    (∃ t, exec (.srli rd rs1 sh) s = .next t ∧
      CompletedWith s t rd (BitVec.ofNat 32 ((s.readX rs1).toNat / 2 ^ sh.toNat)) (s.pc + 4#32)) ∧
    (∃ t, exec (.srai rd rs1 sh) s = .next t ∧
      CompletedWith s t rd (BitVec.ofInt 32 ((s.readX rs1).toInt / 2 ^ sh.toNat)) (s.pc + 4#32)) ∧
    (∃ t, exec (.sll rd rs1 rs2) s = .next t ∧
      CompletedWith s t rd
        (BitVec.ofNat 32 ((s.readX rs1).toNat * 2 ^ ((s.readX rs2).toNat % 32))) (s.pc + 4#32)) ∧
    (∃ t, exec (.srl rd rs1 rs2) s = .next t ∧
      CompletedWith s t rd
        (BitVec.ofNat 32 ((s.readX rs1).toNat / 2 ^ ((s.readX rs2).toNat % 32))) (s.pc + 4#32)) ∧
    (∃ t, exec (.sra rd rs1 rs2) s = .next t ∧
      CompletedWith s t rd
        (BitVec.ofInt 32 ((s.readX rs1).toInt / 2 ^ ((s.readX rs2).toNat % 32))) (s.pc + 4#32))

/-- R270 to R273, R275 to R277, R280, R281: the register-register instructions that do not shift complete
with the result of their operation on the old values of their sources. -/
def Obligations.RegisterRegister : Prop :=
  ∀ (s : State) (rd rs1 rs2 : Reg), rdX0Trap s rd = false →
    (∃ t, exec (.add rd rs1 rs2) s = .next t ∧
      CompletedWith s t rd (BitVec.ofNat 32 ((s.readX rs1).toNat + (s.readX rs2).toNat))
        (s.pc + 4#32)) ∧
    (∃ t, exec (.sub rd rs1 rs2) s = .next t ∧
      CompletedWith s t rd (BitVec.ofInt 32 ((s.readX rs1).toInt - (s.readX rs2).toInt))
        (s.pc + 4#32)) ∧
    (∃ t, exec (.slt rd rs1 rs2) s = .next t ∧
      CompletedWith s t rd (if (s.readX rs1).toInt < (s.readX rs2).toInt then 1#32 else 0#32)
        (s.pc + 4#32)) ∧
    (∃ t, exec (.sltu rd rs1 rs2) s = .next t ∧
      CompletedWith s t rd (if (s.readX rs1).toNat < (s.readX rs2).toNat then 1#32 else 0#32)
        (s.pc + 4#32)) ∧
    (∃ t, exec (.xor rd rs1 rs2) s = .next t ∧
      CompletedWith s t rd (s.readX rs1 ^^^ s.readX rs2) (s.pc + 4#32)) ∧
    (∃ t, exec (.or rd rs1 rs2) s = .next t ∧
      CompletedWith s t rd (s.readX rs1 ||| s.readX rs2) (s.pc + 4#32)) ∧
    (∃ t, exec (.and rd rs1 rs2) s = .next t ∧
      CompletedWith s t rd (s.readX rs1 &&& s.readX rs2) (s.pc + 4#32))

/-! ## Jumps and branches -/

/-- R105, R210, R211: `JAL` and `JALR` link and go to their target where it is aligned, and raise
`InstrAddrMisaligned` with the target as value, writing nothing, where it is not; `JALR` forms its
target from the old value of `rs1` and clears bit 0. -/
def Obligations.Jumps : Prop :=
  (∀ (s : State) (rd : Reg) (off : BitVec 21),
      JumpOutcome (exec (.jal rd off) s) s rd (s.pc + off.signExtend 32)) ∧
    (∀ (s : State) (rd rs1 : Reg) (imm : BitVec 12),
      JumpOutcome (exec (.jalr rd rs1 imm) s) s rd
        ((s.readX rs1 + imm.signExtend 32) &&& 0xFFFFFFFE#32))

/-- R212 to R218, R105: each branch goes to `pc` plus its offset exactly when its condition holds, raises
`InstrAddrMisaligned` only when it is taken to a misaligned target, and changes nothing else. -/
def Obligations.Branches : Prop :=
  ∀ (s : State) (rs1 rs2 : Reg) (off : BitVec 13),
    BranchOutcome (exec (.beq rs1 rs2 off) s) s (s.readX rs1 = s.readX rs2)
      (s.pc + off.signExtend 32) ∧
    BranchOutcome (exec (.bne rs1 rs2 off) s) s (s.readX rs1 ≠ s.readX rs2)
      (s.pc + off.signExtend 32) ∧
    BranchOutcome (exec (.blt rs1 rs2 off) s) s ((s.readX rs1).toInt < (s.readX rs2).toInt)
      (s.pc + off.signExtend 32) ∧
    BranchOutcome (exec (.bge rs1 rs2 off) s) s ((s.readX rs2).toInt ≤ (s.readX rs1).toInt)
      (s.pc + off.signExtend 32) ∧
    BranchOutcome (exec (.bltu rs1 rs2 off) s) s ((s.readX rs1).toNat < (s.readX rs2).toNat)
      (s.pc + off.signExtend 32) ∧
    BranchOutcome (exec (.bgeu rs1 rs2 off) s) s ((s.readX rs2).toNat ≤ (s.readX rs1).toNat)
      (s.pc + off.signExtend 32)

/-! ## Loads and stores -/

/-- R102, R230 to R235: where the address resolves, each load completes with the bytes of its access, the
lowest address in the low bits, sign-extended by `LB` and `LH` and zero-extended by `LBU` and `LHU`. -/
def Obligations.Loads : Prop :=
  ∀ (s : State) (rd rs1 : Reg) (imm : BitVec 12) (pa : PAddr), rdX0Trap s rd = false →
    let va := s.readX rs1 + imm.signExtend 32
    let b := fun i => physReadByte s (.access .load) (pa.toNat + i)
    (resolve s .load .byte va = .ok pa →
      (∃ t, exec (.lb rd rs1 imm) s = .next t ∧
        CompletedWith s t rd ((b 0).signExtend 32) (s.pc + 4#32)) ∧
      (∃ t, exec (.lbu rd rs1 imm) s = .next t ∧
        CompletedWith s t rd ((b 0).setWidth 32) (s.pc + 4#32))) ∧
    (resolve s .load .half va = .ok pa →
      (∃ t, exec (.lh rd rs1 imm) s = .next t ∧
        CompletedWith s t rd ((b 1 ++ b 0).signExtend 32) (s.pc + 4#32)) ∧
      (∃ t, exec (.lhu rd rs1 imm) s = .next t ∧
        CompletedWith s t rd ((b 1 ++ b 0).setWidth 32) (s.pc + 4#32))) ∧
    (resolve s .load .word va = .ok pa →
      ∃ t, exec (.lw rd rs1 imm) s = .next t ∧
        CompletedWith s t rd (b 3 ++ b 2 ++ b 1 ++ b 0) (s.pc + 4#32))

/-- R102, R236 to R239: where the address resolves, each store completes: in main memory and in the timer
registers the bytes of the access read back as the low bytes of `x[rs2]`, the first byte of `msip` takes
its bit; every byte outside the access, every register and every CSR is unchanged. The model's choices in
it: a store to a device other than the CLINT changes no state (log entry 6), each byte of ROM takes the new
value or keeps the old one (log entry 7), every byte of the access is marked as stored to (log entry 8), and
narrow stores reach single bytes of the CLINT's registers (log entry 12). The memory is in its canonical
form, an invariant stated below. -/
def Obligations.Stores : Prop :=
  ∀ (s : State) (rs2 rs1 : Reg) (imm : BitVec 12) (pa : PAddr), s.memoryCanonical = true →
    let va := s.readX rs1 + imm.signExtend 32
    (resolve s .store .byte va = .ok pa →
      ∃ t, exec (.sb rs2 rs1 imm) s = .next t ∧ StoredAt s t .byte pa (s.readX rs2)) ∧
    (resolve s .store .half va = .ok pa →
      ∃ t, exec (.sh rs2 rs1 imm) s = .next t ∧ StoredAt s t .half pa (s.readX rs2)) ∧
    (resolve s .store .word va = .ok pa →
      ∃ t, exec (.sw rs2 rs1 imm) s = .next t ∧ StoredAt s t .word pa (s.readX rs2))

/-- R104, R142, R230, R236: where the address does not resolve, a load or a store is the trap entry of the
exception the address raises, with the virtual address as value: a misaligned address first. -/
def Obligations.AccessExceptions : Prop :=
  ∀ (s : State) (rd rs2 rs1 : Reg) (imm : BitVec 12) (r : Raised),
    let va := s.readX rs1 + imm.signExtend 32
    (rdX0Trap s rd = false →
      (resolve s .load .byte va = .error r →
        RaisedBy (exec (.lb rd rs1 imm) s) s r.exc va ∧
          RaisedBy (exec (.lbu rd rs1 imm) s) s r.exc va) ∧
      (resolve s .load .half va = .error r →
        RaisedBy (exec (.lh rd rs1 imm) s) s r.exc va ∧
          RaisedBy (exec (.lhu rd rs1 imm) s) s r.exc va ∧
          (va.toNat % 2 ≠ 0 → r.exc = .loadAddrMisaligned)) ∧
      (resolve s .load .word va = .error r →
        RaisedBy (exec (.lw rd rs1 imm) s) s r.exc va ∧
          (va.toNat % 4 ≠ 0 → r.exc = .loadAddrMisaligned))) ∧
    (resolve s .store .byte va = .error r → RaisedBy (exec (.sb rs2 rs1 imm) s) s r.exc va) ∧
    (resolve s .store .half va = .error r →
      RaisedBy (exec (.sh rs2 rs1 imm) s) s r.exc va ∧
        (va.toNat % 2 ≠ 0 → r.exc = .storeAddrMisaligned)) ∧
    (resolve s .store .word va = .error r →
      RaisedBy (exec (.sw rs2 rs1 imm) s) s r.exc va ∧
        (va.toNat % 4 ≠ 0 → r.exc = .storeAddrMisaligned))

/-! ## Addresses: alignment, translation, protection -/

/-- R140 to R142: the order of the checks of one access. A misaligned data address raises first, whatever
else is wrong with it; then the exception of translation; then the access fault of a vacant address
or of PMP; an access that passes all three resolves to its physical address. -/
def Obligations.AccessCheckOrder : Prop :=
  ∀ (s : State) (acc : Access) (w : Width) (va : Word),
    (acc = .load → va.toNat % w.bytes ≠ 0 →
      resolve s acc w va = .error ⟨.loadAddrMisaligned, va⟩) ∧
    (acc = .store → va.toNat % w.bytes ≠ 0 →
      resolve s acc w va = .error ⟨.storeAddrMisaligned, va⟩) ∧
    (acc = .fetch ∨ va.toNat % w.bytes = 0 →
      (∀ e, physicalAddress s acc va = .error e → resolve s acc w va = .error e) ∧
      (∀ pa, physicalAddress s acc va = .ok pa →
        ((∀ k < w.bytes, placeOf s.cfg (pa.toNat + k) ≠ .vacant) →
          pmpOk s pa acc (effPriv s acc) = true → resolve s acc w va = .ok pa) ∧
        ((∃ k < w.bytes, placeOf s.cfg (pa.toNat + k) = .vacant) ∨
            pmpOk s pa acc (effPriv s acc) = false →
          resolve s acc w va = .error ⟨accessFaultOf acc, va⟩)))

/-- R120, R130: an access is translated when `satp.MODE` is 1 and its effective privilege is below M;
otherwise the physical address is the virtual one extended with zeros. The effective privilege is
`MPP` for a load or a store under `MPRV`, and the current mode in every other case. -/
def Obligations.TranslationApplies : Prop :=
  ∀ (s : State) (acc : Access) (va : Word),
    (effPriv s acc = if acc ≠ .fetch ∧ s.mstatus.mprv = true then s.mstatus.mpp else s.priv) ∧
    ((csrRead s .satp).getLsbD 31 = true → effPriv s acc ≠ .M →
      physicalAddress s acc va = translateSv32 s va acc (effPriv s acc)) ∧
    ((csrRead s .satp).getLsbD 31 = false ∨ effPriv s acc = .M →
      ∃ pa, physicalAddress s acc va = .ok pa ∧ pa.toNat = va.toNat)

/-- R132, R135, R137: the Sv32 walk. A page-table read that PMP or `MEM_MAP` refuses is an access fault
of the access; an invalid entry, a pointer at the last level, a leaf without permission, a
misaligned megapage, and a clear `A` (or `D`, for a store) are page faults; every other leaf gives
its physical address. -/
def Obligations.Sv32Walk : Prop :=
  ∀ (s : State) (va : Word) (acc : Access) (p : Priv) (pte1 pte0 : Word),
    (∀ e, readPte s va acc 1 s.satpPpn = .error e →
      translateSv32 s va acc p = .error ⟨accessFaultOf acc, va⟩) ∧
    (readPte s va acc 1 s.satpPpn = .ok pte1 →
      (pteInvalid pte1 = true → translateSv32 s va acc p = .error ⟨pageFaultOf acc, va⟩) ∧
      (pteInvalid pte1 = false → pteLeaf pte1 = true →
        (leafPermOk s pte1 acc p = false ∨ ptePpn0 pte1 ≠ 0#10 ∨ pteA pte1 = false ∨
            (acc = .store ∧ pteD pte1 = false) →
          translateSv32 s va acc p = .error ⟨pageFaultOf acc, va⟩) ∧
        (leafPermOk s pte1 acc p = true → ptePpn0 pte1 = 0#10 → pteA pte1 = true →
            (acc = .store → pteD pte1 = true) →
          translateSv32 s va acc p = .ok (ptePpn1 pte1 ++ va.extractLsb' 0 22))) ∧
      (pteInvalid pte1 = false → pteLeaf pte1 = false →
        (∀ e, readPte s va acc 0 (ptePpn pte1) = .error e →
          translateSv32 s va acc p = .error ⟨accessFaultOf acc, va⟩) ∧
        (readPte s va acc 0 (ptePpn pte1) = .ok pte0 →
          (pteInvalid pte0 = true ∨ pteLeaf pte0 = false ∨ leafPermOk s pte0 acc p = false ∨
              pteA pte0 = false ∨ (acc = .store ∧ pteD pte0 = false) →
            translateSv32 s va acc p = .error ⟨pageFaultOf acc, va⟩) ∧
          (pteInvalid pte0 = false → pteLeaf pte0 = true → leafPermOk s pte0 acc p = true →
              pteA pte0 = true → (acc = .store → pteD pte0 = true) →
            translateSv32 s va acc p = .ok (ptePpn pte0 ++ va.extractLsb' 0 12)))))

/-- R134: which leaf permits which access. -/
def Obligations.LeafPermissions : Prop :=
  ∀ (s : State) (pte : Word) (acc : Access) (p : Priv),
    leafPermOk s pte acc p = true ↔
      (p = .U → pteU pte = true) ∧
        (p = .S → pteU pte = true → acc ≠ .fetch ∧ s.mstatus.sum = true) ∧
        (acc = .fetch → pteX pte = true) ∧
        (acc = .load → pteR pte = true ∨ (s.mstatus.mxr = true ∧ pteX pte = true)) ∧
        (acc = .store → pteW pte = true)

/-- R137, R101: a page-table entry is read from four bytes at the address the walk computes, as a load at
privilege S, wherever PMP and `MEM_MAP` let it; the walk stops with an access fault where not (for a
vacant address by log entry 22). -/
def Obligations.PageTableReads : Prop :=
  ∀ (s : State) (va : Word) (acc : Access) (level : Nat) (ppn : BitVec 22),
    let a := ppn ++ vpnOf level va ++ 0#2
    (pmpOk s a .load .S = true → (∀ k < 4, placeOf s.cfg (a.toNat + k) ≠ .vacant) →
      ∃ pte, readPte s va acc level ppn = .ok pte ∧
        ∀ k < 4, byteOf pte k = physReadByte s (.walk acc level) (a.toNat + k)) ∧
    (pmpOk s a .load .S = false ∨ (∃ k < 4, placeOf s.cfg (a.toNat + k) = .vacant) →
      readPte s va acc level ppn = .error ⟨accessFaultOf acc, va⟩)

/-- R122: when a PMP entry matches. An OFF entry never does; a TOR entry matches the bytes from the
previous entry's address (0 for entry 0) up to its own; an NA4 entry the four bytes at its address;
a NAPOT entry with `t` low ones in its address the aligned region of 2^(t+3) bytes around it, and
every address when all 32 bits are ones. The lowest-numbered match decides. -/
def Obligations.PmpMatching : Prop :=
  ∀ (s : State) (i : Nat) (pa : PAddr),
    ((s.pmpCfgAt i).a = .off → pmpMatches s i pa = false) ∧
    ((s.pmpCfgAt i).a = .tor → (pmpMatches s i pa = true ↔
      (i = 0 ∨ 4 * (s.pmpAddrAt (i - 1)).toNat ≤ pa.toNat) ∧
        pa.toNat < 4 * (s.pmpAddrAt i).toNat)) ∧
    ((s.pmpCfgAt i).a = .na4 → (pmpMatches s i pa = true ↔
      4 * (s.pmpAddrAt i).toNat ≤ pa.toNat ∧ pa.toNat < 4 * (s.pmpAddrAt i).toNat + 4)) ∧
    (∀ t, (s.pmpCfgAt i).a = .napot → t < 32 → (∀ j < t, (s.pmpAddrAt i).getLsbD j = true) →
      (s.pmpAddrAt i).getLsbD t = false → (pmpMatches s i pa = true ↔
        pa.toNat / 2 ^ (t + 3) = 4 * (s.pmpAddrAt i).toNat / 2 ^ (t + 3))) ∧
    ((s.pmpCfgAt i).a = .napot → s.pmpAddrAt i = 0xFFFFFFFF#32 → pmpMatches s i pa = true) ∧
    (pmpDecides s pa = some i ↔
      i < s.cfg.pmpEntries.val ∧ pmpMatches s i pa = true ∧ ∀ j < i, pmpMatches s j pa = false)

/-- R123: the permission check. Without entries every access passes; an entry that decides lets M-mode
pass unless it is locked, and otherwise asks for the permission of the access; where no entry
matches only M-mode passes. -/
def Obligations.PmpPermission : Prop :=
  ∀ (s : State) (pa : PAddr) (acc : Access) (p : Priv),
    (s.cfg.pmpEntries.val = 0 → pmpOk s pa acc p = true) ∧
    (s.cfg.pmpEntries.val ≠ 0 → (∀ j < s.cfg.pmpEntries.val, pmpMatches s j pa = false) →
      (pmpOk s pa acc p = true ↔ p = .M)) ∧
    (∀ i < s.cfg.pmpEntries.val, pmpMatches s i pa = true → (∀ j < i, pmpMatches s j pa = false) →
      (pmpOk s pa acc p = true ↔
        ((s.pmpCfgAt i).l = false ∧ p = .M) ∨ (acc = .fetch ∧ (s.pmpCfgAt i).x = true) ∨
          (acc = .load ∧ (s.pmpCfgAt i).r = true) ∨ (acc = .store ∧ (s.pmpCfgAt i).w = true)))

/-- R101, R487, R488: what stands at a physical address, and how the CLINT's registers read. `msip` is the
four bytes at `MSIP_ADDR`, `mtimecmp` and `mtime` the eight bytes at `MTIMECMP_ADDR` and `MTIME_ADDR`, for
parameters a platform can have; every other address is what the regions of `MEM_MAP` that hold it say, and
vacant where none does. A word read of `msip` gives its bit, of the timer registers the low half at the
address and the high half four bytes on. (The order of the registers where they overlap, their coming before
`MEM_MAP`, and single bytes of them are the model's choice, log entry 12.) -/
def Obligations.PhysicalPlaces : Prop :=
  (∀ (p : Params) (i : Nat), i < 4 → placeOf p (p.msipAddr.toNat + i) = .msip i) ∧
    (∀ (p : Params) (i : Nat), p.wf = true → i < 8 →
      placeOf p (p.mtimecmpAddr.toNat + i) = .mtimecmp i ∧ placeOf p (p.mtimeAddr.toNat + i) = .mtime i) ∧
    (∀ (p : Params) (a : Nat), ¬ (p.msipAddr.toNat ≤ a ∧ a < p.msipAddr.toNat + 4) →
      ¬ (p.mtimecmpAddr.toNat ≤ a ∧ a < p.mtimecmpAddr.toNat + 8) →
      ¬ (p.mtimeAddr.toNat ≤ a ∧ a < p.mtimeAddr.toNat + 8) →
      ((∀ r ∈ p.memMap, ¬ (r.base ≤ a ∧ a < r.base + r.size)) ↔ placeOf p a = .vacant) ∧
      (∀ kind, (∃ r ∈ p.memMap, r.base ≤ a ∧ a < r.base + r.size) →
        (∀ r ∈ p.memMap, r.base ≤ a → a < r.base + r.size → r.kind = kind) →
        placeOf p a = (match kind with | .ram => .ram | .rom => .rom | .device => .device))) ∧
    (∀ (s : State) (use : ReadUse), s.cfg.wf = true →
      physRead s use .word s.cfg.msipAddr = (if s.msipBit = true then 1#32 else 0#32) ∧
      physRead s use .word s.cfg.mtimecmpAddr = s.mtimecmp.extractLsb' 0 32 ∧
      physRead s use .word (s.cfg.mtimecmpAddr + 4#34) = s.mtimecmp.extractLsb' 32 32 ∧
      physRead s use .word s.cfg.mtimeAddr = s.mtime.extractLsb' 0 32 ∧
      physRead s use .word (s.cfg.mtimeAddr + 4#34) = s.mtime.extractLsb' 32 32 ∧
      (∀ i < 8, physReadByte s use (s.cfg.mtimecmpAddr.toNat + i) = s.mtimecmp.extractLsb' (8 * i) 8 ∧
        physReadByte s use (s.cfg.mtimeAddr.toNat + i) = s.mtime.extractLsb' (8 * i) 8))

/-- R101, R102: in main memory a word reads back as it was stored, and a narrower read sees the
corresponding bytes of it, the least significant at the lowest address. -/
def Obligations.LittleEndian : Prop :=
  ∀ (s : State) (use : ReadUse) (pa : PAddr) (v : Word), s.memoryCanonical = true →
    pa.toNat + 3 < 2 ^ 34 → (∀ k < 4, placeOf s.cfg (pa.toNat + k) = .ram) →
    physRead (physWrite s .word pa v) use .word pa = v ∧
      (∀ k < 4, physRead (physWrite s .word pa v) use .byte (pa + BitVec.ofNat 34 k) =
        (byteOf v k).setWidth 32) ∧
      (∀ k < 3, physRead (physWrite s .word pa v) use .half (pa + BitVec.ofNat 34 k) =
        (v.extractLsb' (8 * k) 16).setWidth 32)

/-! ## Environment calls, trap returns, waits and fences -/

/-- R290, R291: `ECALL` and `EBREAK`, whose words the rules give, take their exception, with value 0 and
their own address as `epc`; the code of `ECALL` follows the current mode. Their next state is the
trap entry, register by register; neither is counted. -/
def Obligations.EnvironmentCalls : Prop :=
  decode 0x00000073#32 = .ok .ecall ∧ decode 0x00100073#32 = .ok .ebreak ∧ ∀ s : State,
    (∀ e, (s.priv = .U ∧ e = Exc.ecallFromU) ∨ (s.priv = .S ∧ e = Exc.ecallFromS) ∨
        (s.priv = .M ∧ e = Exc.ecallFromM) →
      ∃ t, exec .ecall s = .next t ∧
        TrapEntered s t (targetMode s (.exception e)) (.exception e) s.pc 0#32) ∧
    (∃ t, exec .ebreak s = .next t ∧
      TrapEntered s t (targetMode s (.exception .breakpoint)) (.exception .breakpoint) s.pc 0#32)

/-- R321 to R323: `MRET`, `SRET` and `URET`, whose words the rules give: what each restores, in the modes
that may execute it, and `IllegalInstr` in the others; nothing else changes, `MPRV` among it. -/
def Obligations.TrapReturns : Prop :=
  decode 0x30200073#32 = .ok .mret ∧ decode 0x10200073#32 = .ok .sret ∧
    decode 0x00200073#32 = .ok .uret ∧ ∀ s : State,
    (s.priv = .M → exec .mret s = .next
      { s with
        pc := s.mepc &&& 0xFFFFFFFC#32,
        mstatus := { s.mstatus with mie := s.mstatus.mpie, mpie := true, mpp := .U },
        priv := s.mstatus.mpp, minstret := s.minstret + 1#64 }) ∧
    (s.priv ≠ .M → RaisedBy (exec .mret s) s .illegalInstr 0x30200073#32) ∧
    (s.priv = .M ∨ (s.priv = .S ∧ s.mstatus.tsr = false) → exec .sret s = .next
      { s with
        pc := s.sepc &&& 0xFFFFFFFC#32,
        mstatus := { s.mstatus with sie := s.mstatus.spie, spie := true, spp := false },
        priv := if s.mstatus.spp = true then .S else .U, minstret := s.minstret + 1#64 }) ∧
    (s.priv = .U ∨ (s.priv = .S ∧ s.mstatus.tsr = true) →
      RaisedBy (exec .sret s) s .illegalInstr 0x10200073#32) ∧
    exec .uret s = .next
      { s with
        pc := s.uepc &&& 0xFFFFFFFC#32,
        mstatus := { s.mstatus with uie := s.mstatus.upie, upie := true }, priv := .U,
        minstret := s.minstret + 1#64 }

/-- R324: `WFI` stalls the hart with `pc` at the next instruction and is counted; below M with `TW` = 1 it
raises `IllegalInstr`. -/
def Obligations.WfiRule : Prop :=
  ∀ s : State,
    (s.priv = .M ∨ s.mstatus.tw = false → exec .wfi s = .next
      { s with wfiStalled := true, pc := s.pc + 4#32, minstret := s.minstret + 1#64 }) ∧
    (s.priv ≠ .M → s.mstatus.tw = true → RaisedBy (exec .wfi s) s .illegalInstr 0x10500073#32)

/-- R325, R326: a legal `SFENCE.VMA`, and `FENCE` in every mode and with every field, change nothing but
the program counter and the count; `SFENCE.VMA` is illegal in U-mode and in S-mode under `TVM`. -/
def Obligations.FenceRules : Prop :=
  (∀ (s : State) (rs1 rs2 : Reg),
      (s.priv = .M ∨ (s.priv = .S ∧ s.mstatus.tvm = false) →
        ∃ t, exec (.sfenceVma rs1 rs2) s = .next t ∧ CompletedOnly s t (s.pc + 4#32)) ∧
      (s.priv = .U ∨ (s.priv = .S ∧ s.mstatus.tvm = true) →
        RaisedBy (exec (.sfenceVma rs1 rs2) s) s .illegalInstr (encode (.sfenceVma rs1 rs2)))) ∧
    (∀ (s : State) (fm pred succ : BitVec 4) (rs1 rd : Reg),
      ∃ t, exec (.fence fm pred succ rs1 rd) s = .next t ∧ CompletedOnly s t (s.pc + 4#32))

/-! ## CSR instructions -/

/-- R300, R301, R310, R313, R70: `CSRRW` and `CSRRWI` of a CSR that may be written complete: the CSR is
written through its own rule, `x[rd]` gets the value it read as before. The instruction is counted unless
it writes `minstret` (R70) or, by the model's reading, `minstreth` (log entry 10). -/
def Obligations.CsrReadWrite : Prop :=
  ∀ (s : State) (rd rs1 : Reg) (uimm : BitVec 5) (a : CsrAddr) (c : Csr),
    csrAccess s a true = some c →
    (∃ t, exec (.csrrw rd a rs1) s = .next t ∧
      CsrCompleted s t (csrWrite (s.readX rs1) s c) rd c true) ∧
    (∃ t, exec (.csrrwi rd a uimm) s = .next t ∧
      CsrCompleted s t (csrWrite (uimm.setWidth 32) s c) rd c true)

/-- R300, R302, R303, R311, R312, R65: the set and clear forms with a nonzero source field write the old
value with the operand's bits set or cleared; for `mip` the old value of bit 9 is the software
half alone (for the immediate forms too, log entry 17). The instruction is counted unless it writes
`minstret` (R70) or, by the model's reading, `minstreth` (log entry 10). -/
def Obligations.CsrSetClear : Prop :=
  ∀ (s : State) (rd rs1 : Reg) (uimm : BitVec 5) (a : CsrAddr) (c : Csr) (base : Word),
    rdX0Trap s rd = false → csrAccess s a true = some c →
    (c ≠ .mip → base = csrRead s c) →
    (c = .mip → ∀ i < 32, base.getLsbD i =
      if i = 9 then s.mipSw.getLsbD 9 else (csrRead s .mip).getLsbD i) →
    (rs1 ≠ 0#5 →
      (∃ t, exec (.csrrs rd a rs1) s = .next t ∧
        CsrCompleted s t (csrWrite (base ||| s.readX rs1) s c) rd c true) ∧
      (∃ t, exec (.csrrc rd a rs1) s = .next t ∧
        CsrCompleted s t (csrWrite (base &&& ~~~(s.readX rs1)) s c) rd c true)) ∧
    (uimm ≠ 0#5 →
      (∃ t, exec (.csrrsi rd a uimm) s = .next t ∧
        CsrCompleted s t (csrWrite (base ||| uimm.setWidth 32) s c) rd c true) ∧
      (∃ t, exec (.csrrci rd a uimm) s = .next t ∧
        CsrCompleted s t (csrWrite (base &&& ~~~(uimm.setWidth 32)) s c) rd c true))

/-- R300, R302, R303, R304, R311, R312: the set and clear forms with a zero source field only read, which
is legal on a read-only CSR too. -/
def Obligations.CsrPureRead : Prop :=
  ∀ (s : State) (rd : Reg) (a : CsrAddr) (c : Csr), rdX0Trap s rd = false →
    csrAccess s a false = some c →
    (∃ t, exec (.csrrs rd a 0#5) s = .next t ∧
      CompletedWith s t rd (csrRead s c) (s.pc + 4#32)) ∧
    (∃ t, exec (.csrrc rd a 0#5) s = .next t ∧
      CompletedWith s t rd (csrRead s c) (s.pc + 4#32)) ∧
    (∃ t, exec (.csrrsi rd a 0#5) s = .next t ∧
      CompletedWith s t rd (csrRead s c) (s.pc + 4#32)) ∧
    (∃ t, exec (.csrrci rd a 0#5) s = .next t ∧
      CompletedWith s t rd (csrRead s c) (s.pc + 4#32))

/-- R26, R300, R304 to R309: which accesses are legal, and that each CSR instruction whose access is not
legal raises `IllegalInstr` with its own word. A `pmpaddr` register exists when its entry does (R26); that a
`pmpcfg` register exists when the first of its four entries does is the model's reading (log entry 9). -/
def Obligations.CsrAccessRule : Prop :=
  (∀ (s : State) (a : CsrAddr) (doesWrite : Bool) (c : Csr), csrAccess s a doesWrite = some c ↔
      c.addr = a ∧ (∀ k, c = .pmpcfg k → 4 * k.val < s.cfg.pmpEntries.val) ∧
        (∀ i, c = .pmpaddr i → i.val < s.cfg.pmpEntries.val) ∧
        (a.extractLsb' 8 2).toNat ≤ s.priv.encoding.toNat ∧
        (doesWrite = true → a.extractLsb' 10 2 ≠ 0b11#2) ∧
        (∀ b, counterGate c = some b → s.priv ≠ .M →
          (csrRead s .mcounteren).getLsbD b = true ∧
            (s.priv = .U → (csrRead s .scounteren).getLsbD b = true)) ∧
        (c = .satp → s.priv = .S → s.mstatus.tvm = false)) ∧
    (∀ (s : State) (rd rs1 : Reg) (uimm : BitVec 5) (a : CsrAddr),
      (csrAccess s a true = none →
        RaisedBy (exec (.csrrw rd a rs1) s) s .illegalInstr (encode (.csrrw rd a rs1)) ∧
        RaisedBy (exec (.csrrwi rd a uimm) s) s .illegalInstr (encode (.csrrwi rd a uimm))) ∧
      (csrAccess s a (decide (rs1 ≠ 0#5)) = none →
        RaisedBy (exec (.csrrs rd a rs1) s) s .illegalInstr (encode (.csrrs rd a rs1)) ∧
        RaisedBy (exec (.csrrc rd a rs1) s) s .illegalInstr (encode (.csrrc rd a rs1))) ∧
      (csrAccess s a (decide (uimm ≠ 0#5)) = none →
        RaisedBy (exec (.csrrsi rd a uimm) s) s .illegalInstr (encode (.csrrsi rd a uimm)) ∧
        RaisedBy (exec (.csrrci rd a uimm) s) s .illegalInstr (encode (.csrrci rd a uimm))))

/-- R307, R75: every access to the debug CSRs, from every mode and for a read as for a write, raises
`IllegalInstr`. -/
def Obligations.DebugCsrsIllegal : Prop :=
  ∀ (s : State) (rd rs1 : Reg) (uimm : BitVec 5) (a : CsrAddr), 0x7B0 ≤ a.toNat → a.toNat ≤ 0x7B3 →
    RaisedBy (exec (.csrrw rd a rs1) s) s .illegalInstr (encode (.csrrw rd a rs1)) ∧
    RaisedBy (exec (.csrrs rd a rs1) s) s .illegalInstr (encode (.csrrs rd a rs1)) ∧
    RaisedBy (exec (.csrrc rd a rs1) s) s .illegalInstr (encode (.csrrc rd a rs1)) ∧
    RaisedBy (exec (.csrrwi rd a uimm) s) s .illegalInstr (encode (.csrrwi rd a uimm)) ∧
    RaisedBy (exec (.csrrsi rd a uimm) s) s .illegalInstr (encode (.csrrsi rd a uimm)) ∧
    RaisedBy (exec (.csrrci rd a uimm) s) s .illegalInstr (encode (.csrrci rd a uimm))

/-! ## CSR views and write rules -/

/-- R28, R313: a write of a CSR changes the state that holds it and nothing else. -/
def Obligations.CsrWriteFrame : Prop :=
  ∀ (s : State) (v : Word) (c : Csr), c.changesOnly s (csrWrite v s c)

/-- R52, R53: `sstatus` and `ustatus` are `mstatus` seen through a mask, for reads and for writes. -/
def Obligations.StatusViews : Prop :=
  ∀ (s : State) (v : Word),
    csrRead s .sstatus = csrRead s .mstatus &&& 0x000C0133#32 ∧
    csrRead (csrWrite v s .sstatus) .mstatus =
      (csrRead s .mstatus &&& ~~~(0x000C0133#32)) ||| (v &&& 0x000C0133#32) ∧
    csrRead s .ustatus = csrRead s .mstatus &&& 0x00000011#32 ∧
    csrRead (csrWrite v s .ustatus) .mstatus =
      (csrRead s .mstatus &&& ~~~(0x00000011#32)) ||| (v &&& 0x00000011#32)

/-- R40, R41, R44: a write of `mstatus` leaves every writable field at the bit written and every other bit
reading 0, but for `MPP`, which keeps its value where the reserved encoding is written. -/
def Obligations.MstatusWrite : Prop :=
  ∀ (s : State) (v : Word),
    (v.extractLsb' 11 2 ≠ 0b10#2 → csrRead (csrWrite v s .mstatus) .mstatus = v &&& 0x007E19BB#32) ∧
    (v.extractLsb' 11 2 = 0b10#2 → csrRead (csrWrite v s .mstatus) .mstatus =
      (v &&& 0x007E01BB#32) ||| (csrRead s .mstatus &&& 0x00001800#32))

/-- R66, R67: `sie` and `sip` show and write the part of `mie` and `mip` delegated to S (`SEIP` and `STIP`
are read-only in `sip`), `uie` and `uip` the part delegated to U (of `uip` only `USIP` is written). -/
def Obligations.InterruptViews : Prop :=
  ∀ (s : State) (v : Word),
    csrRead s .sie = csrRead s .mie &&& csrRead s .mideleg ∧
    csrRead (csrWrite v s .sie) .mie =
      (csrRead s .mie &&& ~~~(csrRead s .mideleg)) ||| (v &&& csrRead s .mideleg) ∧
    csrRead s .sip = csrRead s .mip &&& csrRead s .mideleg ∧
    csrRead (csrWrite v s .sip) .mip =
      (csrRead s .mip &&& ~~~(csrRead s .mideleg &&& 0x00000113#32)) |||
        (v &&& (csrRead s .mideleg &&& 0x00000113#32)) ∧
    csrRead s .uie = csrRead s .mie &&& csrRead s .mideleg &&& csrRead s .sideleg ∧
    csrRead (csrWrite v s .uie) .mie =
      (csrRead s .mie &&& ~~~(csrRead s .mideleg &&& csrRead s .sideleg)) |||
        (v &&& (csrRead s .mideleg &&& csrRead s .sideleg)) ∧
    csrRead s .uip = csrRead s .mip &&& csrRead s .mideleg &&& csrRead s .sideleg ∧
    csrRead (csrWrite v s .uip) .mip =
      (csrRead s .mip &&& ~~~(csrRead s .mideleg &&& csrRead s .sideleg &&& 0x00000001#32)) |||
        (v &&& (csrRead s .mideleg &&& csrRead s .sideleg &&& 0x00000001#32))

/-- R65, R486 to R489, R504: what each bit of `mip` reads as, that a write of `mip` changes the six
software bits, `SEIP` reading as the written bit or the line, and that taking an interrupt clears
no pending bit. -/
def Obligations.PendingBits : Prop :=
  (∀ s : State, (csrRead s .mip).getLsbD 11 = s.meipLine ∧
      ((csrRead s .mip).getLsbD 7 = true ↔ s.mtimecmp.toNat ≤ s.mtime.toNat) ∧
      (csrRead s .mip).getLsbD 3 = s.msipBit ∧
      (csrRead s .mip).getLsbD 9 = (s.mipSw.getLsbD 9 || s.seipLine) ∧
      csrRead s .mip &&& ~~~(0x00000BBB#32) = 0#32) ∧
    (∀ (s : State) (v : Word) (i : Nat), i < 32 → (csrRead (csrWrite v s .mip) .mip).getLsbD i =
      if i ∈ [0, 1, 4, 5, 8] then v.getLsbD i
      else if i = 9 then v.getLsbD 9 || s.seipLine
      else (csrRead s .mip).getLsbD i) ∧
    (∀ (s : State) (i : Interrupt), csrRead (takeInterrupt i s) .mip = csrRead s .mip)

/-- R54: a write of a trap-vector register whose `MODE` is reserved leaves it; every other value reads
back; `MODE` never reads as a reserved value; and the base address is what the register reads as with its
two low bits 0. -/
def Obligations.TrapVectorWrite : Prop :=
  ∀ (s : State) (v : Word) (c : Csr), c = .mtvec ∨ c = .stvec ∨ c = .utvec →
    (v.getLsbD 1 = true → csrWrite v s c = s) ∧
    (v.getLsbD 1 = false → csrRead (csrWrite v s c) c = v) ∧
    (csrRead s c).extractLsb' 0 2 ∈ [0b00#2, 0b01#2] ∧
    (c = .mtvec → (s.tvecOf .M).baseAddress = csrRead s c &&& 0xFFFFFFFC#32) ∧
    (c = .stvec → (s.tvecOf .S).baseAddress = csrRead s c &&& 0xFFFFFFFC#32) ∧
    (c = .utvec → (s.tvecOf .U).baseAddress = csrRead s c &&& 0xFFFFFFFC#32)

/-- R55, R60 to R64, R68, R69: the registers with hardwired bits read back what was written in the others,
whatever was held before, and the hardwired bits read 0 in every state. -/
def Obligations.MaskedRegisters : Prop :=
  ∀ (s : State) (v m : Word) (c : Csr),
    (c, m) ∈ [(Csr.mepc, 0xFFFFFFFC#32), (.sepc, 0xFFFFFFFC#32), (.uepc, 0xFFFFFFFC#32),
      (.medeleg, 0x0000B3FF#32), (.mideleg, 0x00000333#32), (.sedeleg, 0x0000B1FF#32),
      (.sideleg, 0x00000111#32), (.mie, 0x00000BBB#32), (.satp, 0x803FFFFF#32),
      (.mcounteren, 0x00000007#32), (.scounteren, 0x00000007#32)] →
    csrRead (csrWrite v s c) c = v &&& m ∧ csrRead s c &&& ~~~m = 0#32

/-- R56, R57, R70, R73, R74: registers that hold all 32 bits read back what is written; the counters'
unprivileged names are views of them, of the low and of the high half, and a write of one half keeps the
other; the identity registers are constant, and a write of `misa` changes nothing. -/
def Obligations.PlainRegisters : Prop :=
  ∀ (s : State) (v : Word),
    (∀ c ∈ [Csr.mcause, .scause, .ucause, .mtval, .stval, .utval, .mscratch, .sscratch, .uscratch,
        .mcycle, .mcycleh, .minstret, .minstreth], csrRead (csrWrite v s c) c = v) ∧
    csrRead s .cycleh ++ csrRead s .cycle = s.mcycle ∧
    csrRead s .timeh ++ csrRead s .time = s.mtime ∧
    csrRead s .instreth ++ csrRead s .instret = s.minstret ∧
    csrRead s .mcycle = csrRead s .cycle ∧ csrRead s .mcycleh = csrRead s .cycleh ∧
    csrRead s .minstret = csrRead s .instret ∧ csrRead s .minstreth = csrRead s .instreth ∧
    csrRead (csrWrite v s .mcycle) .mcycleh = csrRead s .mcycleh ∧
    csrRead (csrWrite v s .mcycleh) .mcycle = csrRead s .mcycle ∧
    csrRead (csrWrite v s .minstret) .minstreth = csrRead s .minstreth ∧
    csrRead (csrWrite v s .minstreth) .minstret = csrRead s .minstret ∧
    csrRead s .misa = 0x40142100#32 ∧ csrWrite v s .misa = s ∧ csrRead s .mhartid = s.cfg.hartid ∧
    csrRead s .mvendorid = 0#32 ∧ csrRead s .marchid = 0#32 ∧ csrRead s .mimpid = 0#32

/-- R71, R72, R125: each byte of a `pmpcfg` register reads as its entry's fields, `L` in bit 7, zeros in
6:5, `A` in 4:3 (00 OFF, 01 TOR, 10 NA4, 11 NAPOT), `X` in 2, `W` in 1, `R` in 0. A write sets each of its
four entries that exists and is not locked to the byte written without bits 6:5, and leaves the others; a
write of a `pmpaddr` register is ignored where its entry is locked or the next entry is locked with `A` =
TOR. The fields of entries that do not exist read 0, and by the model's choice so do the address values the
PMP check takes for them (log entry 9). -/
def Obligations.PmpRegisters : Prop :=
  (∀ (s : State) (v : Word) (k : Fin 4) (i : Nat), i < 16 →
      (csrWrite v s (.pmpcfg k)).pmpCfgAt i =
        if i / 4 = k.val ∧ i < s.cfg.pmpEntries.val ∧ (s.pmpCfgAt i).l = false then
          PmpCfg.ofByte (byteOf v (i % 4))
        else s.pmpCfgAt i) ∧
    (∀ (s : State) (v : Word) (k : Fin 16) (i : Nat), i < 16 →
      (csrWrite v s (.pmpaddr k)).pmpAddrAt i =
        if i = k.val ∧ i < s.cfg.pmpEntries.val ∧ (s.pmpCfgAt i).l = false ∧
            ¬ ((s.pmpCfgAt (i + 1)).l = true ∧ (s.pmpCfgAt (i + 1)).a = .tor) then v
        else s.pmpAddrAt i) ∧
    (∀ (s : State) (k : Fin 4) (j : Nat), j < 4 →
      byteOf (csrRead s (.pmpcfg k)) j = (s.pmpCfgAt (4 * k.val + j)).toByte) ∧
    (∀ (s : State) (k : Fin 4) (j : Nat), j < 4 →
      let b := byteOf (csrRead s (.pmpcfg k)) j
      let e := s.pmpCfgAt (4 * k.val + j)
      b.getLsbD 7 = e.l ∧ b.extractLsb' 5 2 = 0#2 ∧ (b.extractLsb' 3 2 = 0b00#2 ↔ e.a = .off) ∧
        (b.extractLsb' 3 2 = 0b01#2 ↔ e.a = .tor) ∧ (b.extractLsb' 3 2 = 0b10#2 ↔ e.a = .na4) ∧
        (b.extractLsb' 3 2 = 0b11#2 ↔ e.a = .napot) ∧ b.getLsbD 2 = e.x ∧ b.getLsbD 1 = e.w ∧
        b.getLsbD 0 = e.r) ∧
    (∀ (s : State) (v : Word) (k : Fin 4) (j : Nat), j < 4 →
      byteOf (csrRead (csrWrite v s (.pmpcfg k)) (.pmpcfg k)) j =
        if 4 * k.val + j < s.cfg.pmpEntries.val ∧ (s.pmpCfgAt (4 * k.val + j)).l = false then
          byteOf v j &&& 0x9F#8
        else byteOf (csrRead s (.pmpcfg k)) j) ∧
    (∀ (s : State) (i : Nat), s.cfg.pmpEntries.val ≤ i →
      (s.pmpCfgAt i).toByte = 0#8 ∧ s.pmpAddrAt i = 0#32)

/-! ## Taking a trap -/

/-- R420: trap entry, register by register, in each of the three handler modes; no general register, no
memory and no other CSR changes. -/
def Obligations.TrapEntryRule : Prop :=
  ∀ (s : State) (c : Cause) (epc tval : Word),
    TrapEntered s (trapEntry c epc tval s) (targetMode s c) c epc tval ∧
      c.word = (if c.isInterrupt = true then 0x80000000#32 else 0#32) + BitVec.ofNat 32 c.code

/-- R410, R413: the handler's mode, row by row; with all delegation registers zero every trap enters
M-mode, and a trap never moves to a mode less privileged than the one it was raised in. -/
def Obligations.TargetModeRule : Prop :=
  ∀ (s : State) (c : Cause) (dm ds : Bool),
    dm = (csrRead s (if c.isInterrupt = true then .mideleg else .medeleg)).getLsbD c.code →
    ds = (csrRead s (if c.isInterrupt = true then .sideleg else .sedeleg)).getLsbD c.code →
    (s.priv = .M → targetMode s c = .M) ∧
    (s.priv = .S → dm = false → targetMode s c = .M) ∧
    (s.priv = .S → dm = true → targetMode s c = .S) ∧
    (s.priv = .U → dm = false → targetMode s c = .M) ∧
    (s.priv = .U → dm = true → ds = false → targetMode s c = .S) ∧
    (s.priv = .U → dm = true → ds = true → targetMode s c = .U) ∧
    (csrRead s .medeleg = 0#32 → csrRead s .mideleg = 0#32 → csrRead s .sedeleg = 0#32 →
      csrRead s .sideleg = 0#32 → targetMode s c = .M) ∧
    (targetMode s c).below s.priv = false

/-- R425: the handler's address, from what the mode's trap-vector register reads as. -/
def Obligations.HandlerAddress : Prop :=
  ∀ (s : State) (c : Cause) (x : Priv) (tvec base : Word),
    tvec = csrRead s (match x with | .M => .mtvec | .S => .stvec | .U => .utvec) →
    base = tvec &&& 0xFFFFFFFC#32 →
    (c.isInterrupt = true → tvec.extractLsb' 0 2 = 0b01#2 →
      trapVector s x c = base + BitVec.ofNat 32 (4 * c.code)) ∧
    (c.isInterrupt = false ∨ tvec.extractLsb' 0 2 ≠ 0b01#2 → trapVector s x c = base)

/-- R430: the trap entry followed by the matching return restores `pc`, `priv` and `xIE`, leaves `xPIE` at
1 and `xPP` at U, and keeps `xcause`, `xtval` and `xepc`. (`SRET` under `TSR` is illegal in S-mode,
R322, so `TSR` is clear where the handler's mode is S.) -/
def Obligations.TrapThenReturn : Prop :=
  ∀ (s t : State) (c : Cause) (epc tval : Word), epc.extractLsb' 0 2 = 0#2 →
    t = trapEntry c epc tval s →
    (targetMode s c = .M → ∃ u, exec .mret t = .next u ∧ u.pc = epc ∧ u.priv = s.priv ∧
      u.mstatus = { s.mstatus with mpie := true, mpp := .U } ∧ u.mcause = c.word ∧
      u.mtval = tval ∧ u.mepc = epc) ∧
    (targetMode s c = .S → s.mstatus.tsr = false →
      ∃ u, exec .sret t = .next u ∧ u.pc = epc ∧ u.priv = s.priv ∧
      u.mstatus = { s.mstatus with spie := true, spp := false } ∧ u.scause = c.word ∧
      u.stval = tval ∧ u.sepc = epc) ∧
    (targetMode s c = .U → ∃ u, exec .uret t = .next u ∧ u.pc = epc ∧ u.priv = s.priv ∧
      u.mstatus = { s.mstatus with upie := true } ∧ u.ucause = c.word ∧ u.utval = tval ∧
      u.uepc = epc)

/-- R404, R11, R70: every instruction either completes and is counted (an instruction that writes the
counter is not, nor one that writes its high half, log entry 10), or raises an exception, and then
nothing of it but the trap entry has happened. -/
def Obligations.PreciseExceptions : Prop :=
  ∀ (i : Instr) (s : State), ∃ t, exec i s = .next t ∧
    ((∃ e tval, t = trapEntry (.exception e) s.pc tval s) ∨ t.minstret = s.minstret + 1#64 ∨
      (∃ a, (a = 0xB02#12 ∨ a = 0xB82#12) ∧
        (∃ rd rs, i = .csrrw rd a rs ∨ i = .csrrs rd a rs ∨ i = .csrrc rd a rs ∨
          i = .csrrwi rd a rs ∨ i = .csrrsi rd a rs ∨ i = .csrrci rd a rs)))

/-! ## Interrupts -/

/-- R500, R501, R407: which interrupt is taken. Of the pending and locally enabled interrupts those for
M-mode come first, then those for S, then those for U, each where its mode is globally enabled, and
within one mode the first of 11, 3, 7, 9, 1, 5, 8, 0, 4; the handler's mode is the trap's target
mode, and a step that runs (the hart is not stalled, or wakes) is the trap entry with `epc` = `pc` and value
0 instead of an instruction. -/
def Obligations.InterruptSelection : Prop :=
  (∀ s : State,
      let pend := csrRead s .mip &&& csrRead s .mie
      let mSet := pend &&& ~~~(csrRead s .mideleg)
      let sSet := pend &&& csrRead s .mideleg &&& ~~~(csrRead s .sideleg)
      let uSet := pend &&& csrRead s .mideleg &&& csrRead s .sideleg
      let first := fun (set : Word) =>
        [11, 3, 7, 9, 1, 5, 8, 0, 4].find? (fun k => set.getLsbD k)
      (interruptTaken s).map Interrupt.code =
        if (s.priv ≠ .M ∨ s.mstatus.mie = true) ∧ mSet ≠ 0#32 then first mSet
        else if (s.priv = .U ∨ (s.priv = .S ∧ s.mstatus.sie = true)) ∧ sSet ≠ 0#32 then first sSet
        else if (s.priv = .U ∧ s.mstatus.uie = true) ∧ uSet ≠ 0#32 then first uSet
        else none) ∧
    (∀ (s : State) (i : Interrupt), interruptTaken s = some i →
      destination s i = targetMode s (.interrupt i) ∧
        (targetMode s (.interrupt i)).below s.priv = false) ∧
    (∀ (s : State) (i : Interrupt), s.runs → interruptTaken (awake s) = some i →
      step s = .next (trapEntry (.interrupt i) s.pc 0#32 (awake s)))

/-! ## Reset -/

/-- R90, R543, R544: right after reset, with every unspecified value as it may be (main memory too, so with
any program loaded), the hart is in M-mode at the reset vector, no interrupt is taken whatever `mie`, `mip`
and the lines hold, and the first fetch is neither translated nor refused by PMP: it raises only where
`MEM_MAP` is vacant. -/
def Obligations.AfterReset : Prop :=
  ∀ s : State, s.AfterReset →
    s.priv = .M ∧ s.pc = s.cfg.resetVector ∧ interruptTaken s = none ∧
      interruptTaken (platform s) = none ∧
      ((∀ k < 4, placeOf s.cfg (s.cfg.resetVector.toNat + k) ≠ .vacant) →
        resolve s .fetch .word s.pc = .ok (s.pc.setWidth 34)) ∧
      ((∃ k < 4, placeOf s.cfg (s.cfg.resetVector.toNat + k) = .vacant) →
        resolve s .fetch .word s.pc = .error ⟨.instrAccessFault, s.pc⟩)

/-! ## Invariants of the whole machine -/

/-- R90, for every value of the parameters: the state the model calls reset is one of the states R90
allows (the values it gives to what R90 leaves unspecified are the model's choice, log entry 2), and
for parameters a platform can have the invariant of the hart's state holds in it: aligned `pc` and
saved addresses (R22, R55), hardwired bits at zero (R60 to R65, R68, R69), canonical memory. (That
the CLINT's registers are aligned and apart there is the model's choice, log entry 12.) -/
def Obligations.ResetState : Prop :=
  (∀ p : Params, (State.resetWith p).AfterReset ∧ (State.resetWith p).cfg = p) ∧
    (∀ p : Params, p.wf = true → (State.resetWith p).wf = true) ∧ State.reset.wf = true

/-- Every step keeps the invariant of the hart's state: the program counter and the saved addresses stay
aligned (R22, R55), the hardwired bits stay zero (R60 to R65, R68, R69), main memory and the record
of what was stored to stay in canonical form, and no parameter changes (R6). (The invariant takes
parameters a platform can have; that the CLINT's registers are aligned and apart there is the model's
choice, log entry 12.) -/
def Obligations.InvariantKept : Prop :=
  ∀ s t : State, s.wf = true → step s = .next t → t.wf = true ∧ t.cfg = s.cfg

/-- R23, R421: an instruction changes the mode only by a trap entry or by `MRET`, `SRET` or `URET`, and
raises it only by a trap entry; a step changes it only by taking a trap or an interrupt, or, lowering it, by
running one of the three returns. -/
def Obligations.ModeChanges : Prop :=
  (∀ (i : Instr) (s t : State), exec i s = .next t → t.priv ≠ s.priv →
      (∃ e tval, t = trapEntry (.exception e) s.pc tval s) ∨
        ((i = .mret ∨ i = .sret ∨ i = .uret) ∧ t.priv.below s.priv = true)) ∧
    (∀ s t : State, step s = .next t → t.priv ≠ s.priv →
      (∃ c tval, t = trapEntry c s.pc tval (awake s)) ∨
        (t.priv.below s.priv = true ∧ ∃ w i, fetch (awake s) = .word w ∧ decode w = .ok i ∧
          (i = .mret ∨ i = .sret ∨ i = .uret) ∧ exec i (awake s) = .next t)) ∧
    (∀ s t : State, step s = .next t → s.priv.below t.priv = true →
      ∃ c tval, t = trapEntry c s.pc tval (awake s))

/-- R27, R306, R411, R412: no step that starts and ends below M-mode changes the machine-mode fields of
`mstatus`, `mtvec`, `mepc`, `mcause`, `mtval`, `medeleg`, `mideleg`, `mcounteren`, `mscratch` or the PMP
registers; no step that starts and ends in U-mode changes the fields of `mstatus` that only `sstatus`
shows, `stvec`, `sepc`, `scause`, `stval`, `sedeleg`, `sideleg`, `scounteren`, `sscratch` or `satp`. -/
def Obligations.PrivilegeIsolation : Prop :=
  ∀ s t : State, step s = .next t →
    (s.priv ≠ .M → t.priv ≠ .M → MachineKept s t) ∧
    (s.priv = .U → t.priv = .U → SupervisorKept s t)
end

