-- ==== Sys2Proof/Laws/State.lean ====
section
/-! SUPPORT. One lemma for each field and each of the three small updates of the state, so that no proof
unfolds a record update. -/

namespace Sys2Proof.Machine

variable (s : State) (t v : Word) (r : Reg)

/-! ## `setPc` -/

@[simp] theorem setPc_pc : (s.setPc t).pc = t := rfl
@[simp] theorem setPc_cfg : (s.setPc t).cfg = s.cfg := rfl
@[simp] theorem setPc_x : (s.setPc t).x = s.x := rfl
@[simp] theorem setPc_priv : (s.setPc t).priv = s.priv := rfl
@[simp] theorem setPc_mstatus : (s.setPc t).mstatus = s.mstatus := rfl
@[simp] theorem setPc_mtvec : (s.setPc t).mtvec = s.mtvec := rfl
@[simp] theorem setPc_stvec : (s.setPc t).stvec = s.stvec := rfl
@[simp] theorem setPc_utvec : (s.setPc t).utvec = s.utvec := rfl
@[simp] theorem setPc_mepc : (s.setPc t).mepc = s.mepc := rfl
@[simp] theorem setPc_sepc : (s.setPc t).sepc = s.sepc := rfl
@[simp] theorem setPc_uepc : (s.setPc t).uepc = s.uepc := rfl
@[simp] theorem setPc_mcause : (s.setPc t).mcause = s.mcause := rfl
@[simp] theorem setPc_scause : (s.setPc t).scause = s.scause := rfl
@[simp] theorem setPc_ucause : (s.setPc t).ucause = s.ucause := rfl
@[simp] theorem setPc_mtval : (s.setPc t).mtval = s.mtval := rfl
@[simp] theorem setPc_stval : (s.setPc t).stval = s.stval := rfl
@[simp] theorem setPc_utval : (s.setPc t).utval = s.utval := rfl
@[simp] theorem setPc_medeleg : (s.setPc t).medeleg = s.medeleg := rfl
@[simp] theorem setPc_mideleg : (s.setPc t).mideleg = s.mideleg := rfl
@[simp] theorem setPc_sedeleg : (s.setPc t).sedeleg = s.sedeleg := rfl
@[simp] theorem setPc_sideleg : (s.setPc t).sideleg = s.sideleg := rfl
@[simp] theorem setPc_mie : (s.setPc t).mie = s.mie := rfl
@[simp] theorem setPc_mipSw : (s.setPc t).mipSw = s.mipSw := rfl
@[simp] theorem setPc_satp : (s.setPc t).satp = s.satp := rfl
@[simp] theorem setPc_mcounteren : (s.setPc t).mcounteren = s.mcounteren := rfl
@[simp] theorem setPc_scounteren : (s.setPc t).scounteren = s.scounteren := rfl
@[simp] theorem setPc_mcycle : (s.setPc t).mcycle = s.mcycle := rfl
@[simp] theorem setPc_minstret : (s.setPc t).minstret = s.minstret := rfl
@[simp] theorem setPc_pmpcfg : (s.setPc t).pmpcfg = s.pmpcfg := rfl
@[simp] theorem setPc_pmpaddr : (s.setPc t).pmpaddr = s.pmpaddr := rfl
@[simp] theorem setPc_mscratch : (s.setPc t).mscratch = s.mscratch := rfl
@[simp] theorem setPc_sscratch : (s.setPc t).sscratch = s.sscratch := rfl
@[simp] theorem setPc_uscratch : (s.setPc t).uscratch = s.uscratch := rfl
@[simp] theorem setPc_wfiStalled : (s.setPc t).wfiStalled = s.wfiStalled := rfl
@[simp] theorem setPc_mtime : (s.setPc t).mtime = s.mtime := rfl
@[simp] theorem setPc_mtimecmp : (s.setPc t).mtimecmp = s.mtimecmp := rfl
@[simp] theorem setPc_meipLine : (s.setPc t).meipLine = s.meipLine := rfl
@[simp] theorem setPc_seipLine : (s.setPc t).seipLine = s.seipLine := rfl
@[simp] theorem setPc_msipBit : (s.setPc t).msipBit = s.msipBit := rfl
@[simp] theorem setPc_mem : (s.setPc t).mem = s.mem := rfl
@[simp] theorem setPc_stored : (s.setPc t).stored = s.stored := rfl
@[simp] theorem setPc_msipStored : (s.setPc t).msipStored = s.msipStored := rfl
@[simp] theorem setPc_inputs : (s.setPc t).inputs = s.inputs := rfl
@[simp] theorem setPc_tick : (s.setPc t).tick = s.tick := rfl

/-! ## `retire` -/

@[simp] theorem retire_minstret : s.retire.minstret = s.minstret + 1#64 := rfl
@[simp] theorem retire_cfg : s.retire.cfg = s.cfg := rfl
@[simp] theorem retire_x : s.retire.x = s.x := rfl
@[simp] theorem retire_pc : s.retire.pc = s.pc := rfl
@[simp] theorem retire_priv : s.retire.priv = s.priv := rfl
@[simp] theorem retire_mstatus : s.retire.mstatus = s.mstatus := rfl
@[simp] theorem retire_mtvec : s.retire.mtvec = s.mtvec := rfl
@[simp] theorem retire_stvec : s.retire.stvec = s.stvec := rfl
@[simp] theorem retire_utvec : s.retire.utvec = s.utvec := rfl
@[simp] theorem retire_mepc : s.retire.mepc = s.mepc := rfl
@[simp] theorem retire_sepc : s.retire.sepc = s.sepc := rfl
@[simp] theorem retire_uepc : s.retire.uepc = s.uepc := rfl
@[simp] theorem retire_mcause : s.retire.mcause = s.mcause := rfl
@[simp] theorem retire_scause : s.retire.scause = s.scause := rfl
@[simp] theorem retire_ucause : s.retire.ucause = s.ucause := rfl
@[simp] theorem retire_mtval : s.retire.mtval = s.mtval := rfl
@[simp] theorem retire_stval : s.retire.stval = s.stval := rfl
@[simp] theorem retire_utval : s.retire.utval = s.utval := rfl
@[simp] theorem retire_medeleg : s.retire.medeleg = s.medeleg := rfl
@[simp] theorem retire_mideleg : s.retire.mideleg = s.mideleg := rfl
@[simp] theorem retire_sedeleg : s.retire.sedeleg = s.sedeleg := rfl
@[simp] theorem retire_sideleg : s.retire.sideleg = s.sideleg := rfl
@[simp] theorem retire_mie : s.retire.mie = s.mie := rfl
@[simp] theorem retire_mipSw : s.retire.mipSw = s.mipSw := rfl
@[simp] theorem retire_satp : s.retire.satp = s.satp := rfl
@[simp] theorem retire_mcounteren : s.retire.mcounteren = s.mcounteren := rfl
@[simp] theorem retire_scounteren : s.retire.scounteren = s.scounteren := rfl
@[simp] theorem retire_mcycle : s.retire.mcycle = s.mcycle := rfl
@[simp] theorem retire_pmpcfg : s.retire.pmpcfg = s.pmpcfg := rfl
@[simp] theorem retire_pmpaddr : s.retire.pmpaddr = s.pmpaddr := rfl
@[simp] theorem retire_mscratch : s.retire.mscratch = s.mscratch := rfl
@[simp] theorem retire_sscratch : s.retire.sscratch = s.sscratch := rfl
@[simp] theorem retire_uscratch : s.retire.uscratch = s.uscratch := rfl
@[simp] theorem retire_wfiStalled : s.retire.wfiStalled = s.wfiStalled := rfl
@[simp] theorem retire_mtime : s.retire.mtime = s.mtime := rfl
@[simp] theorem retire_mtimecmp : s.retire.mtimecmp = s.mtimecmp := rfl
@[simp] theorem retire_meipLine : s.retire.meipLine = s.meipLine := rfl
@[simp] theorem retire_seipLine : s.retire.seipLine = s.seipLine := rfl
@[simp] theorem retire_msipBit : s.retire.msipBit = s.msipBit := rfl
@[simp] theorem retire_mem : s.retire.mem = s.mem := rfl
@[simp] theorem retire_stored : s.retire.stored = s.stored := rfl
@[simp] theorem retire_msipStored : s.retire.msipStored = s.msipStored := rfl
@[simp] theorem retire_inputs : s.retire.inputs = s.inputs := rfl
@[simp] theorem retire_tick : s.retire.tick = s.tick := rfl

/-! ## `writeX` -/

/-- A write to a register changes the register file and nothing else. -/
theorem writeX_eq : s.writeX r v = { s with x := (s.writeX r v).x } := by
  unfold State.writeX
  split <;> rfl

@[simp] theorem writeX_cfg : (s.writeX r v).cfg = s.cfg := by rw [writeX_eq]
@[simp] theorem writeX_pc : (s.writeX r v).pc = s.pc := by rw [writeX_eq]
@[simp] theorem writeX_priv : (s.writeX r v).priv = s.priv := by rw [writeX_eq]
@[simp] theorem writeX_mstatus : (s.writeX r v).mstatus = s.mstatus := by rw [writeX_eq]
@[simp] theorem writeX_mtvec : (s.writeX r v).mtvec = s.mtvec := by rw [writeX_eq]
@[simp] theorem writeX_stvec : (s.writeX r v).stvec = s.stvec := by rw [writeX_eq]
@[simp] theorem writeX_utvec : (s.writeX r v).utvec = s.utvec := by rw [writeX_eq]
@[simp] theorem writeX_mepc : (s.writeX r v).mepc = s.mepc := by rw [writeX_eq]
@[simp] theorem writeX_sepc : (s.writeX r v).sepc = s.sepc := by rw [writeX_eq]
@[simp] theorem writeX_uepc : (s.writeX r v).uepc = s.uepc := by rw [writeX_eq]
@[simp] theorem writeX_mcause : (s.writeX r v).mcause = s.mcause := by rw [writeX_eq]
@[simp] theorem writeX_scause : (s.writeX r v).scause = s.scause := by rw [writeX_eq]
@[simp] theorem writeX_ucause : (s.writeX r v).ucause = s.ucause := by rw [writeX_eq]
@[simp] theorem writeX_mtval : (s.writeX r v).mtval = s.mtval := by rw [writeX_eq]
@[simp] theorem writeX_stval : (s.writeX r v).stval = s.stval := by rw [writeX_eq]
@[simp] theorem writeX_utval : (s.writeX r v).utval = s.utval := by rw [writeX_eq]
@[simp] theorem writeX_medeleg : (s.writeX r v).medeleg = s.medeleg := by rw [writeX_eq]
@[simp] theorem writeX_mideleg : (s.writeX r v).mideleg = s.mideleg := by rw [writeX_eq]
@[simp] theorem writeX_sedeleg : (s.writeX r v).sedeleg = s.sedeleg := by rw [writeX_eq]
@[simp] theorem writeX_sideleg : (s.writeX r v).sideleg = s.sideleg := by rw [writeX_eq]
@[simp] theorem writeX_mie : (s.writeX r v).mie = s.mie := by rw [writeX_eq]
@[simp] theorem writeX_mipSw : (s.writeX r v).mipSw = s.mipSw := by rw [writeX_eq]
@[simp] theorem writeX_satp : (s.writeX r v).satp = s.satp := by rw [writeX_eq]
@[simp] theorem writeX_mcounteren : (s.writeX r v).mcounteren = s.mcounteren := by rw [writeX_eq]
@[simp] theorem writeX_scounteren : (s.writeX r v).scounteren = s.scounteren := by rw [writeX_eq]
@[simp] theorem writeX_mcycle : (s.writeX r v).mcycle = s.mcycle := by rw [writeX_eq]
@[simp] theorem writeX_minstret : (s.writeX r v).minstret = s.minstret := by rw [writeX_eq]
@[simp] theorem writeX_pmpcfg : (s.writeX r v).pmpcfg = s.pmpcfg := by rw [writeX_eq]
@[simp] theorem writeX_pmpaddr : (s.writeX r v).pmpaddr = s.pmpaddr := by rw [writeX_eq]
@[simp] theorem writeX_mscratch : (s.writeX r v).mscratch = s.mscratch := by rw [writeX_eq]
@[simp] theorem writeX_sscratch : (s.writeX r v).sscratch = s.sscratch := by rw [writeX_eq]
@[simp] theorem writeX_uscratch : (s.writeX r v).uscratch = s.uscratch := by rw [writeX_eq]
@[simp] theorem writeX_wfiStalled : (s.writeX r v).wfiStalled = s.wfiStalled := by rw [writeX_eq]
@[simp] theorem writeX_mtime : (s.writeX r v).mtime = s.mtime := by rw [writeX_eq]
@[simp] theorem writeX_mtimecmp : (s.writeX r v).mtimecmp = s.mtimecmp := by rw [writeX_eq]
@[simp] theorem writeX_meipLine : (s.writeX r v).meipLine = s.meipLine := by rw [writeX_eq]
@[simp] theorem writeX_seipLine : (s.writeX r v).seipLine = s.seipLine := by rw [writeX_eq]
@[simp] theorem writeX_msipBit : (s.writeX r v).msipBit = s.msipBit := by rw [writeX_eq]
@[simp] theorem writeX_mem : (s.writeX r v).mem = s.mem := by rw [writeX_eq]
@[simp] theorem writeX_stored : (s.writeX r v).stored = s.stored := by rw [writeX_eq]
@[simp] theorem writeX_msipStored : (s.writeX r v).msipStored = s.msipStored := by rw [writeX_eq]
@[simp] theorem writeX_inputs : (s.writeX r v).inputs = s.inputs := by rw [writeX_eq]
@[simp] theorem writeX_tick : (s.writeX r v).tick = s.tick := by rw [writeX_eq]

/-! ## Reading a register -/

@[simp] theorem readX_zero : s.readX 0#5 = 0#32 := rfl

@[simp] theorem writeX_zero : s.writeX 0#5 v = s := rfl

/-- Reading depends on the register file alone. -/
theorem readX_congr {a b : State} (h : a.x = b.x) : a.readX r = b.readX r := by
  unfold State.readX
  simp [h]

@[simp] theorem setPc_readX : (s.setPc t).readX r = s.readX r := rfl

@[simp] theorem retire_readX : s.retire.readX r = s.readX r := rfl

/-- R20: a register that is not `x0` reads as it was last written. -/
theorem writeX_readX_same (h : r ≠ 0#5) : (s.writeX r v).readX r = v := by
  simp [State.writeX, State.readX, h]

/-- R20: writing one register leaves the others. -/
theorem writeX_readX_other {q : Reg} (h : q ≠ r) : (s.writeX r v).readX q = s.readX q := by
  have hn : r.toNat ≠ q.toNat := fun e => h (BitVec.eq_of_toNat_eq e.symm)
  unfold State.writeX State.readX
  by_cases hr : r = 0#5
  · simp [hr]
  · by_cases hq : q = 0#5
    · simp [hq]
    · simp [hr, hq, Vector.getElem_set_ne _ _ hn]

end Sys2Proof.Machine
end

