-- ==== Sys2Proof/Laws/Csr.lean ====
section
/-! SUPPORT. The CSR space: addresses and registers correspond, what a write may change, when an access is
legal, and the outcomes of a CSR instruction. -/

namespace Sys2Proof.Machine

/-! ## Addresses (R26) -/

/-- Every CSR is found at its own address. -/
theorem csrOfAddr_addr (c : Csr) : csrOfAddr c.addr = some c := by
  cases c with
  | pmpcfg k => revert k; decide
  | pmpaddr i => revert i; decide
  | _ => rfl

/-- One row of a table of addresses. -/
theorem addr_of_row {a k : CsrAddr} {d c : Csr} {r : Option Csr}
    (h : (if a = k then some d else r) = some c) (hd : d.addr = k) (hr : r = some c → c.addr = a) :
    c.addr = a := by
  by_cases hk : a = k
  · rw [if_pos hk] at h
    injection h with h
    rw [← h, hd, hk]
  · exact hr (by rwa [if_neg hk] at h)

theorem addr_of_csrUser {a : CsrAddr} {c : Csr} (h : csrUser a = some c) : c.addr = a := by
  unfold csrUser at h
  iterate 14 (refine addr_of_row h rfl ?_; clear h; intro h)
  cases h

theorem addr_of_csrSupervisor {a : CsrAddr} {c : Csr} (h : csrSupervisor a = some c) : c.addr = a := by
  unfold csrSupervisor at h
  iterate 12 (refine addr_of_row h rfl ?_; clear h; intro h)
  cases h

theorem addr_of_csrMachine {a : CsrAddr} {c : Csr} (h : csrMachine a = some c) : c.addr = a := by
  unfold csrMachine at h
  iterate 20 (refine addr_of_row h rfl ?_; clear h; intro h)
  cases h

theorem addr_of_csrPmp {a : CsrAddr} {c : Csr} (h : csrPmp a = some c) : c.addr = a := by
  have cfgAddr : ∀ k : BitVec 2, (Csr.pmpcfg k.toFin).addr = 0x0E8#10 ++ k := by decide
  have addrAddr : ∀ k : BitVec 4, (Csr.pmpaddr k.toFin).addr = 0x3B#8 ++ k := by decide
  have low : ∀ k (hk : k ≤ 12),
      a = (a.extractLsb' k (12 - k) ++ a.extractLsb' 0 k).cast (by omega) := by
    intro k hk
    ext i hi
    simp only [BitVec.getElem_cast, BitVec.getElem_append]
    split
    · simp [BitVec.getElem_extractLsb', BitVec.getLsbD_eq_getElem hi]
    · simp [BitVec.getElem_extractLsb', BitVec.getLsbD_eq_getElem hi, show k + (i - k) = i by omega]
  unfold csrPmp at h
  split_ifs at h with h1 h2 <;> cases h
  · rw [cfgAddr, ← h1]
    exact (low 2 (by omega)).symm
  · rw [addrAddr, ← h2]
    exact (low 4 (by omega)).symm

theorem addr_of_csrOfAddr {a : CsrAddr} {c : Csr} (h : csrOfAddr a = some c) : c.addr = a := by
  unfold csrOfAddr at h
  split at h
  · cases h; exact addr_of_csrUser ‹_›
  · split at h
    · cases h; exact addr_of_csrSupervisor ‹_›
    · split at h
      · cases h; exact addr_of_csrMachine ‹_›
      · exact addr_of_csrPmp h

/-! ## Writes -/

theorem writePmpCfg_kept (s : State) (i : Nat) (b : Byte) :
    s.writePmpCfg i b = { s with pmpcfg := (s.writePmpCfg i b).pmpcfg } := by
  unfold State.writePmpCfg
  split
  · split <;> rfl
  · rfl

theorem writePmpCfgWord_kept (s : State) (k : Nat) (v : Word) :
    s.writePmpCfgWord k v = { s with pmpcfg := (s.writePmpCfgWord k v).pmpcfg } := by
  unfold State.writePmpCfgWord
  rw [writePmpCfg_kept _ (4 * k + 3), writePmpCfg_kept _ (4 * k + 2), writePmpCfg_kept _ (4 * k + 1),
    writePmpCfg_kept s]

theorem writePmpAddr_kept (s : State) (i : Nat) (v : Word) :
    s.writePmpAddr i v = { s with pmpaddr := (s.writePmpAddr i v).pmpaddr } := by
  unfold State.writePmpAddr
  split
  · split <;> rfl
  · rfl

/-- What no CSR write changes: the general registers, the program counter, the mode, memory, the timers,
the lines and the parameters. -/
structure CsrFrame (s t : State) : Prop where
  cfg : t.cfg = s.cfg
  x : t.x = s.x
  pc : t.pc = s.pc
  priv : t.priv = s.priv
  wfiStalled : t.wfiStalled = s.wfiStalled
  mtime : t.mtime = s.mtime
  mtimecmp : t.mtimecmp = s.mtimecmp
  meipLine : t.meipLine = s.meipLine
  seipLine : t.seipLine = s.seipLine
  msipBit : t.msipBit = s.msipBit
  mem : t.mem = s.mem
  stored : t.stored = s.stored
  msipStored : t.msipStored = s.msipStored
  inputs : t.inputs = s.inputs
  tick : t.tick = s.tick

theorem csrWrite_frame (v : Word) (s : State) (c : Csr) : CsrFrame s (csrWrite v s c) := by
  cases c with
  | pmpcfg k =>
    show CsrFrame s (s.writePmpCfgWord k.val v)
    rw [writePmpCfgWord_kept]
    constructor <;> rfl
  | pmpaddr i =>
    show CsrFrame s (s.writePmpAddr i.val v)
    rw [writePmpAddr_kept]
    constructor <;> rfl
  | _ => constructor <;> rfl

theorem csrUpdate_frame (op : CsrOp) (c : Csr) (operand : Word) (doesWrite : Bool) (s : State) :
    CsrFrame s (csrUpdate op c operand doesWrite s) := by
  unfold csrUpdate
  split
  · exact csrWrite_frame _ _ _
  · constructor <;> rfl

/-- A CSR write keeps the hardwired bits at zero and the saved addresses aligned (R313). -/
theorem csrWrite_wf {s : State} (h : s.wf = true) (v : Word) (c : Csr) : (csrWrite v s c).wf = true := by
  have mask : ∀ m w : Word, within m (w &&& m) = true := by
    intro m w
    refine decide_eq_true ?_
    rw [BitVec.and_assoc, BitVec.and_self]
  have aligned : ∀ w : Word, wordAligned (w &&& epcMask) = true := by
    intro a
    refine decide_eq_true ?_
    ext i hi
    interval_cases i <;> simp [BitVec.getElem_extractLsb', epcMask]
  have merge : ∀ m n o w : Word, within m o = true → within m (maskedWrite (m &&& n) o w) = true := by
    intro m n o w ho
    have ho := of_decide_eq_true ho
    refine decide_eq_true ?_
    ext i hi
    have hoi := congrArg (fun a => a[i]) ho
    simp only [BitVec.getElem_and] at hoi
    simp only [maskedWrite, BitVec.getElem_and, BitVec.getElem_or, BitVec.getElem_not]
    revert hoi
    cases m[i] <;> cases n[i] <;> cases o[i] <;> cases w[i] <;> decide
  have narrow : ∀ k n w : Word, k &&& mipWriteMask = k → within mipWriteMask s.mipSw = true →
      within mipWriteMask (maskedWrite (k &&& n) s.mipSw w) = true := by
    intro k n w hk ho
    have : k &&& n = mipWriteMask &&& (k &&& n) := by
      rw [← BitVec.and_assoc, BitVec.and_comm mipWriteMask, hk]
    rw [this]
    exact merge _ _ _ _ ho
  simp only [State.wf, State.addressesAligned, State.hardwiredZero, State.memoryCanonical,
    Bool.and_eq_true] at h
  obtain ⟨⟨⟨hc, ⟨⟨ha1, ha2⟩, ha3⟩, ha4⟩, ⟨⟨⟨⟨⟨⟨⟨hw1, hw2⟩, hw3⟩, hw4⟩, hw5⟩, hw6⟩, hw7⟩, hw8⟩, hw9⟩,
    ⟨hm1, hm2⟩, hm3⟩ := h
  have keep : ∀ t : State, t.cfg = s.cfg → t.pc = s.pc → t.mem = s.mem → t.stored = s.stored →
      wordAligned t.mepc = true → wordAligned t.sepc = true → wordAligned t.uepc = true →
      within medelegMask t.medeleg = true → within midelegMask t.mideleg = true →
      within sedelegMask t.sedeleg = true → within sidelegMask t.sideleg = true →
      within mieMask t.mie = true → within mipWriteMask t.mipSw = true →
      within satpMask t.satp = true → within counterenMask t.mcounteren = true →
      within counterenMask t.scounteren = true → t.wf = true := by
    intro t e1 e2 e3 e4
    intros
    simp only [State.wf, State.addressesAligned, State.hardwiredZero, State.memoryCanonical,
      Bool.and_eq_true, e1, e2, e3, e4]
    simp_all
  cases c with
  | pmpcfg k =>
    simp only [csrWrite]
    rw [writePmpCfgWord_kept]
    exact keep _ rfl rfl rfl rfl ha2 ha3 ha4 hw1 hw2 hw3 hw4 hw5 hw6 hw7 hw8 hw9
  | pmpaddr i =>
    simp only [csrWrite]
    rw [writePmpAddr_kept]
    exact keep _ rfl rfl rfl rfl ha2 ha3 ha4 hw1 hw2 hw3 hw4 hw5 hw6 hw7 hw8 hw9
  | uip =>
    have := narrow uipWriteMask (s.midelegBits &&& s.sidelegBits) v (by decide) hw6
    rw [← BitVec.and_assoc] at this
    exact keep _ rfl rfl rfl rfl ha2 ha3 ha4 hw1 hw2 hw3 hw4 hw5 this hw7 hw8 hw9
  | sip =>
    exact keep _ rfl rfl rfl rfl ha2 ha3 ha4 hw1 hw2 hw3 hw4 hw5
      (narrow sipWriteMask s.midelegBits v (by decide) hw6) hw7 hw8 hw9
  | _ =>
    refine keep _ rfl rfl rfl rfl ?_ ?_ ?_ ?_ ?_ ?_ ?_ ?_ ?_ ?_ ?_ ?_ <;>
      first
        | (simp only [csrWrite]; with_reducible assumption)
        | exact aligned _
        | exact mask _ _

/-! ## Access (R300, R304 to R309) -/

/-- When an access is legal: the CSR exists on this hart, the mode is high enough, a read-only CSR is not
written, a gated counter is open, and `satp` is not trapped by `TVM`. -/
theorem csrAccess_eq_some {s : State} {a : CsrAddr} {w : Bool} {c : Csr} :
    csrAccess s a w = some c ↔
      csrAt s.cfg a = some c ∧ csrPrivileged s.priv a = true ∧ ¬ (w = true ∧ csrReadOnly a = true) ∧
        counterReadable s c = true ∧ satpAccessible s c = true := by
  unfold csrAccess
  cases csrAt s.cfg a with
  | none => simp
  | some d =>
    simp only [Option.some.injEq]
    constructor
    · intro h
      split at h
      · rename_i hc
        injection h with h
        subst h
        simp only [Bool.and_eq_true, Bool.not_eq_true', Bool.and_eq_false_iff] at hc
        refine ⟨rfl, hc.1.1.1, ?_, hc.1.2, hc.2⟩
        rintro ⟨h1, h2⟩
        rcases hc.1.1.2 with h | h <;> simp_all
      · cases h
    · rintro ⟨rfl, h1, h2, h3, h4⟩
      have : (!(w && csrReadOnly a)) = true := by
        cases w <;> cases hr : csrReadOnly a <;> simp_all
      simp [h1, h3, h4, this]

/-! ## One CSR instruction -/

/-- A CSR instruction either raises `IllegalInstr`, or completes with the CSR written as its form says and
the old value in `x[rd]` (R300). -/
theorem csrInstr_eq (w : Word) (op : CsrOp) (rd : Reg) (a : CsrAddr) (operand : Word)
    (doesWrite : Bool) (s : State) :
    (csrAccess s a doesWrite = none ∧ csrInstr w op rd a operand doesWrite s =
        .next (trapEntry (.exception .illegalInstr) s.pc w s))
      ∨ ∃ c, csrAccess s a doesWrite = some c ∧ csrInstr w op rd a operand doesWrite s =
        completeCsr c doesWrite ((csrUpdate op c operand doesWrite s).writeX rd (csrRead s c)) := by
  unfold csrInstr
  cases h : csrAccess s a doesWrite with
  | none => exact Or.inl ⟨rfl, rfl⟩
  | some c => exact Or.inr ⟨c, rfl, rfl⟩

/-- How a CSR instruction ends: at the next instruction, counted unless it wrote the counter (R70). -/
theorem completeCsr_eq (c : Csr) (doesWrite : Bool) (s : State) :
    completeCsr c doesWrite s =
      .next (if doesWrite && c.isInstret then s.setPc (s.pc + 4#32)
        else (s.setPc (s.pc + 4#32)).retire) := by
  unfold completeCsr complete
  split <;> rfl

end Sys2Proof.Machine
end

