-- ==== Sys2Proof/Laws/Memory.lean ====
section
/-! SUPPORT. Physical memory: the canonical form is kept, a byte reads back as it was written, and a write
leaves every other byte. -/

namespace Sys2Proof.Machine

/-! ## Rising lists -/

theorem strictlyRising_cons (a : Nat) (l : List Nat) :
    strictlyRising (a :: l) = true ↔ (∀ b ∈ l.head?, a < b) ∧ strictlyRising l = true := by
  cases l <;> simp [strictlyRising]

/-- In a rising list everything after the first is greater. -/
theorem lt_of_strictlyRising {a : Nat} {l : List Nat} (h : strictlyRising (a :: l) = true) :
    ∀ b ∈ l, a < b := by
  induction l generalizing a with
  | nil => simp
  | cons c rest ih =>
    rw [strictlyRising_cons] at h
    have hc : a < c := h.1 c (by simp)
    intro b hb
    rcases List.mem_cons.1 hb with rfl | hb
    · exact hc
    · exact Nat.lt_trans hc (ih h.2 b hb)

/-! ## One byte of main memory -/

theorem Memory.read_eq_unlisted {m : Memory} {a : Nat} (h : ∀ c ∈ m, c.1 ≠ a) :
    m.read a = Memory.unlisted := by
  induction m with
  | nil => rfl
  | cons c rest ih =>
    have hc : c.1 ≠ a := h c (by simp)
    simp [Memory.read, hc, ih (fun d hd => h d (by simp [hd]))]

/-- A write leaves every other byte. -/
theorem Memory.read_write_other (m : Memory) {a q : Nat} (b : Byte) (h : q ≠ a) :
    (m.write a b).read q = m.read q := by
  have h' : a ≠ q := fun e => h e.symm
  induction m with
  | nil =>
    unfold Memory.write
    split <;> simp [Memory.read, h']
  | cons c rest ih =>
    obtain ⟨k, d⟩ := c
    unfold Memory.write
    split
    · split <;> simp [Memory.read, h']
    · split
      · rename_i hk
        subst hk
        split <;> simp [Memory.read, h']
      · simp [Memory.read, ih]

/-- A byte of a canonical memory reads back as it was written. -/
theorem Memory.read_write_same {m : Memory} (hm : strictlyRising (m.map Prod.fst) = true) (a : Nat)
    (b : Byte) : (m.write a b).read a = b := by
  induction m with
  | nil =>
    unfold Memory.write
    split
    · rename_i hb; simp [Memory.read, hb]
    · simp [Memory.read]
  | cons c rest ih =>
    obtain ⟨k, d⟩ := c
    have hgt := lt_of_strictlyRising hm
    have hrest : ∀ e ∈ rest, k < e.1 := fun e he => hgt e.1 (List.mem_map_of_mem he)
    unfold Memory.write
    split
    · rename_i hlt
      split
      · rename_i hb
        rw [hb]
        refine Memory.read_eq_unlisted fun e he => ?_
        rcases List.mem_cons.1 he with rfl | he
        · exact (Nat.ne_of_lt hlt).symm
        · have := hrest e he; omega
      · simp [Memory.read]
    · split
      · rename_i hk
        subst hk
        split
        · rename_i hb
          rw [hb]
          exact Memory.read_eq_unlisted fun e he => by have := hrest e he; omega
        · simp [Memory.read]
      · rename_i hk
        rw [List.map_cons, strictlyRising_cons] at hm
        have : k ≠ a := fun e => hk e.symm
        simp [Memory.read, this, ih hm.2]

/-! ## The canonical form -/

/-- What stands first after a write: what stood first, or the address written. -/
theorem Memory.write_head {m : Memory} {k a : Nat} (b : Byte)
    (hm : strictlyRising (k :: m.map Prod.fst) = true) (h : k < a) :
    ∀ e ∈ ((m.write a b).map Prod.fst).head?, k < e := by
  have hgt := lt_of_strictlyRising hm
  cases m with
  | nil =>
    unfold Memory.write
    split <;> simp [h]
  | cons c rest =>
    obtain ⟨l, d⟩ := c
    have hl : k < l := hgt l (by simp)
    unfold Memory.write
    split
    · split <;> simp [h, hl]
    · split
      · split
        · intro e he
          refine hgt e ?_
          have := List.mem_of_mem_head? he
          simp at this ⊢
          exact Or.inr this
        · simp [h]
      · simp [hl]

/-- A write keeps the addresses rising. -/
theorem Memory.write_rising {m : Memory} (hm : strictlyRising (m.map Prod.fst) = true) (a : Nat)
    (b : Byte) : strictlyRising ((m.write a b).map Prod.fst) = true := by
  induction m with
  | nil =>
    unfold Memory.write
    split <;> rfl
  | cons c rest ih =>
    obtain ⟨k, d⟩ := c
    have hm' := hm
    rw [List.map_cons, strictlyRising_cons] at hm'
    unfold Memory.write
    split
    · rename_i hlt
      split
      · exact hm
      · rw [List.map_cons, strictlyRising_cons]
        exact ⟨by simpa using hlt, hm⟩
    · split
      · rename_i hk
        subst hk
        split
        · exact hm'.2
        · rw [List.map_cons, strictlyRising_cons]
          exact hm'
      · rename_i hlt hne
        rw [List.map_cons, strictlyRising_cons]
        exact ⟨Memory.write_head b hm (by omega), ih hm'.2⟩

/-- Every cell after a write was there before, or is the byte written. -/
theorem Memory.mem_write {m : Memory} {a : Nat} {b : Byte} {c : Host.Cell} (h : c ∈ m.write a b) :
    c ∈ m ∨ (c = (a, b) ∧ b ≠ Memory.unlisted) := by
  induction m with
  | nil =>
    unfold Memory.write at h
    split at h
    · cases h
    · rename_i hb
      exact Or.inr ⟨List.mem_singleton.1 h, hb⟩
  | cons d rest ih =>
    obtain ⟨k, e⟩ := d
    unfold Memory.write at h
    split at h
    · split at h
      · exact Or.inl h
      · rename_i hb
        rcases List.mem_cons.1 h with rfl | h
        · exact Or.inr ⟨rfl, hb⟩
        · exact Or.inl h
    · split at h
      · split at h
        · exact Or.inl (List.mem_cons_of_mem _ h)
        · rename_i hb
          rcases List.mem_cons.1 h with rfl | h
          · exact Or.inr ⟨rfl, hb⟩
          · exact Or.inl (List.mem_cons_of_mem _ h)
      · rcases List.mem_cons.1 h with rfl | h
        · exact Or.inl (by simp)
        · rcases ih h with h | h
          · exact Or.inl (List.mem_cons_of_mem _ h)
          · exact Or.inr h

/-- A write inside the physical address space keeps the canonical form. -/
theorem Memory.write_wf {m : Memory} (hm : Memory.wf m = true) {a : Nat} (ha : a < 2 ^ 34) (b : Byte) :
    Memory.wf (m.write a b) = true := by
  simp only [Memory.wf, Bool.and_eq_true, List.all_eq_true] at hm ⊢
  refine ⟨Memory.write_rising hm.1 a b, fun c hc => ?_⟩
  rcases Memory.mem_write hc with hc | ⟨rfl, hb⟩
  · exact hm.2 c hc
  · exact ⟨decide_eq_true ha, decide_eq_true hb⟩

/-! ## The record of bytes stored to -/

theorem mem_addAddress (l : List Nat) (a q : Nat) : q ∈ addAddress l a ↔ q = a ∨ q ∈ l := by
  induction l with
  | nil => simp [addAddress]
  | cons k rest ih =>
    unfold addAddress
    split
    · simp
    · split
      · rename_i hk
        simp [hk]
      · simp only [List.mem_cons, ih]
        tauto

theorem addAddress_rising {l : List Nat} (h : strictlyRising l = true) (a : Nat) :
    strictlyRising (addAddress l a) = true := by
  induction l with
  | nil => rfl
  | cons k rest ih =>
    have h' := h
    rw [strictlyRising_cons] at h'
    unfold addAddress
    split
    · rename_i hlt
      rw [strictlyRising_cons]
      exact ⟨by simpa using hlt, h⟩
    · split
      · exact h
      · rename_i hlt hne
        rw [strictlyRising_cons]
        refine ⟨fun b hb => ?_, ih h'.2⟩
        rcases (mem_addAddress rest a b).1 (List.mem_of_mem_head? hb) with rfl | hb
        · omega
        · exact lt_of_strictlyRising h b hb

/-! ## What stands at an address -/

/-- What does not stand in a CLINT register stands where `MEM_MAP` says. -/
theorem placeOf_cases (p : Params) (a : Nat) :
    (∃ off, placeOf p a = .msip off) ∨ (∃ off, placeOf p a = .mtimecmp off)
      ∨ (∃ off, placeOf p a = .mtime off) ∨ placeOf p a = regionAt p.memMap a := by
  unfold placeOf
  split
  · exact Or.inl ⟨_, rfl⟩
  · split
    · exact Or.inr (Or.inl ⟨_, rfl⟩)
    · split
      · exact Or.inr (Or.inr (Or.inl ⟨_, rfl⟩))
      · exact Or.inr (Or.inr (Or.inr rfl))

/-- The offsets of the CLINT's places are inside their registers. -/
theorem placeOf_msip_lt {p : Params} {a off : Nat} (h : placeOf p a = .msip off) :
    off < 4 ∧ a = p.msipAddr.toNat + off := by
  unfold placeOf at h
  split at h
  · simp only [Place.msip.injEq] at h; omega
  · split at h
    · simp at h
    · split at h
      · simp at h
      · unfold regionAt at h
        split at h
        · simp at h
        · split at h <;> simp at h

theorem placeOf_mtimecmp_lt {p : Params} {a off : Nat} (h : placeOf p a = .mtimecmp off) :
    off < 8 ∧ a = p.mtimecmpAddr.toNat + off := by
  unfold placeOf at h
  split at h
  · simp at h
  · split at h
    · simp only [Place.mtimecmp.injEq] at h; omega
    · split at h
      · simp at h
      · unfold regionAt at h
        split at h
        · simp at h
        · split at h <;> simp at h

theorem placeOf_mtime_lt {p : Params} {a off : Nat} (h : placeOf p a = .mtime off) :
    off < 8 ∧ a = p.mtimeAddr.toNat + off := by
  unfold placeOf at h
  split at h
  · simp at h
  · split at h
    · simp at h
    · split at h
      · simp only [Place.mtime.injEq] at h; omega
      · unfold regionAt at h
        split at h
        · simp at h
        · split at h <;> simp at h

/-- Whatever is not vacant lies inside the physical address space, for parameters a platform can have. -/
theorem placeOf_lt {p : Params} (hp : p.wf = true) {a : Nat} (h : placeOf p a ≠ .vacant) :
    a < 2 ^ 34 := by
  simp only [Params.wf, Bool.and_eq_true, decide_eq_true_eq] at hp
  have hall : p.memMap.all Region.wf = true := by tauto
  have h1 : p.mtimeAddr.toNat % 8 = 0 := by tauto
  have h2 : p.mtimecmpAddr.toNat % 8 = 0 := by tauto
  have h3 : p.msipAddr.toNat % 4 = 0 := by tauto
  have l1 := p.mtimeAddr.isLt
  have l2 := p.mtimecmpAddr.isLt
  have l3 := p.msipAddr.isLt
  rcases placeOf_cases p a with ⟨off, hq⟩ | ⟨off, hq⟩ | ⟨off, hq⟩ | hq
  · have := placeOf_msip_lt hq; omega
  · have := placeOf_mtimecmp_lt hq; omega
  · have := placeOf_mtime_lt hq; omega
  · rw [hq] at h
    unfold regionAt at h
    split at h
    · exact absurd rfl h
    · rename_i r hfind
      have hmem := List.mem_of_find?_eq_some hfind
      have hin := List.find?_some hfind
      have hwf := List.all_eq_true.1 hall r hmem
      simp only [Region.wf, decide_eq_true_eq] at hwf
      simp only [Bool.and_eq_true, decide_eq_true_eq] at hin
      omega

/-! ## Bytes of a 64-bit register -/

theorem dwordByte_setDwordByte_same (d : DWord) {off : Nat} (h : off < 8) (b : Byte) :
    dwordByte (setDwordByte d off b) off = b := by
  unfold dwordByte setDwordByte
  ext i hi
  have h8 : 8 * off + i < 64 := by omega
  simp [BitVec.getElem_extractLsb', h8]
  interval_cases i <;> simp_all

theorem dwordByte_setDwordByte_other (d : DWord) {off q : Nat} (h : q ≠ off) (b : Byte) :
    dwordByte (setDwordByte d off b) q = dwordByte d q := by
  unfold dwordByte setDwordByte
  ext i hi
  rcases Nat.lt_or_ge (8 * q + i) (8 * off) with hlt | hge
  · have : 8 * q + i < 64 ∨ d.getLsbD (8 * q + i) = false := by
      by_cases h64 : 8 * q + i < 64
      · exact Or.inl h64
      · exact Or.inr (BitVec.getLsbD_of_ge _ _ (by omega))
    rcases this with h64 | hd
    · simp [BitVec.getElem_extractLsb', hlt, h64]
    · simp [BitVec.getElem_extractLsb', hlt, hd]
  · have hfar : 8 ≤ 8 * q + i - 8 * off := by omega
    have hb : b.getLsbD (8 * q + i - 8 * off) = false := BitVec.getLsbD_of_ge _ _ hfar
    have hm : (255#64).getLsbD (8 * q + i - 8 * off) = false := by
      have : (255#64) = (255#8).setWidth 64 := rfl
      rw [this, BitVec.getLsbD_setWidth, BitVec.getLsbD_of_ge _ _ hfar, Bool.and_false]
    by_cases h64 : 8 * q + i < 64
    · rw [BitVec.getLsbD_eq_getElem (by omega)] at hm
      simp [BitVec.getElem_extractLsb', hb, hm, h64]
    · simp [BitVec.getElem_extractLsb', hb, h64, BitVec.getLsbD_of_ge d (8 * q + i) (by omega)]

/-! ## One byte of physical memory -/

/-- What a store of one byte leaves: the state, but for main memory and the CLINT's registers. -/
theorem storeByte_kept (s : State) (a : Nat) (b : Byte) :
    storeByte s a b =
      { s with
        mem := (storeByte s a b).mem, msipBit := (storeByte s a b).msipBit,
        mtimecmp := (storeByte s a b).mtimecmp, mtime := (storeByte s a b).mtime } := by
  unfold storeByte writeMainMemory
  split <;> first | rfl | (split <;> rfl)

/-- Which bytes a store of one byte marks as stored to. -/
theorem mem_physWriteByte_stored (s : State) (a : Nat) (b : Byte) (q : Nat) :
    q ∈ (physWriteByte s a b).stored ↔ q ∈ s.stored ∨ (q = a ∧ placeOf s.cfg a ≠ .vacant) := by
  have e : (storeByte s a b).stored = s.stored := by rw [storeByte_kept]
  unfold physWriteByte markStored
  split
  · rename_i h; simp [h]
  · rename_i h
    simp only [mem_addAddress, e]
    tauto

/-- A byte that is marked changes no byte that is read. -/
theorem physReadByte_markStored (s : State) (a q : Nat) (use : ReadUse) :
    physReadByte (markStored s a) use q = physReadByte s use q := rfl

/-- What a marked store of one byte leaves: the state, but for main memory, its record and the CLINT's
registers. -/
theorem physWriteByte_kept (s : State) (a : Nat) (b : Byte) :
    physWriteByte s a b =
      { s with
        mem := (physWriteByte s a b).mem, stored := (physWriteByte s a b).stored,
        msipBit := (physWriteByte s a b).msipBit, mtimecmp := (physWriteByte s a b).mtimecmp,
        mtime := (physWriteByte s a b).mtime } := by
  unfold physWriteByte
  split
  · rfl
  · unfold markStored
    simp only
    rw [storeByte_kept]

@[simp] theorem physWriteByte_cfg (s : State) (a : Nat) (b : Byte) :
    (physWriteByte s a b).cfg = s.cfg := by rw [physWriteByte_kept]

@[simp] theorem physWriteByte_tick (s : State) (a : Nat) (b : Byte) :
    (physWriteByte s a b).tick = s.tick := by rw [physWriteByte_kept]

/-- A store of one byte reads back, in main memory and in the timer registers. -/
theorem physReadByte_write_same {s : State} (hm : strictlyRising (s.mem.map Prod.fst) = true) {a : Nat}
    (h : (placeOf s.cfg a = .ram) ∨ (∃ off, placeOf s.cfg a = .mtimecmp off)
      ∨ (∃ off, placeOf s.cfg a = .mtime off)) (use : ReadUse) (b : Byte) :
    physReadByte (physWriteByte s a b) use a = b := by
  have mark : placeOf s.cfg a ≠ .vacant →
      physWriteByte s a b = markStored (storeByte s a b) a := by
    intro hv
    unfold physWriteByte
    split
    · exact absurd ‹_› hv
    · rfl
  rcases h with h | ⟨off, h⟩ | ⟨off, h⟩ <;> rw [mark (by simp [h]), physReadByte_markStored]
  · simp [physReadByte, storeByte, h, writeMainMemory, Memory.read_write_same hm]
  · simp [physReadByte, storeByte, h, dwordByte_setDwordByte_same _ (placeOf_mtimecmp_lt h).1]
  · simp [physReadByte, storeByte, h, dwordByte_setDwordByte_same _ (placeOf_mtime_lt h).1]

/-- What a store of one byte changes leaves every other byte. -/
theorem physReadByte_storeByte_other (s : State) {a q : Nat} (h : q ≠ a) (use : ReadUse) (b : Byte) :
    physReadByte (storeByte s a b) use q = physReadByte s use q := by
  unfold storeByte
  split
  · rename_i off ha
    split
    · rename_i h0
      subst h0
      unfold physReadByte
      simp only
      split <;> try rfl
      rename_i off' hq
      have h1 := (placeOf_msip_lt ha).2
      have h2 := (placeOf_msip_lt hq).2
      have : off' ≠ 0 := by omega
      simp [this]
    · rfl
  · rename_i off ha
    unfold physReadByte
    simp only
    split <;> try rfl
    rename_i off' hq
    have h1 := (placeOf_mtimecmp_lt ha).2
    have h2 := (placeOf_mtimecmp_lt hq).2
    exact dwordByte_setDwordByte_other _ (by omega) _
  · rename_i off ha
    unfold physReadByte
    simp only
    split <;> try rfl
    rename_i off' hq
    have h1 := (placeOf_mtime_lt ha).2
    have h2 := (placeOf_mtime_lt hq).2
    exact dwordByte_setDwordByte_other _ (by omega) _
  · unfold physReadByte writeMainMemory
    simp only [Memory.read_write_other s.mem _ h]
  · unfold physReadByte writeMainMemory
    simp only [Memory.read_write_other s.mem _ h]
  · rfl
  · rfl

/-- A store of one byte leaves every other byte. -/
theorem physReadByte_write_other (s : State) {a q : Nat} (h : q ≠ a) (use : ReadUse) (b : Byte) :
    physReadByte (physWriteByte s a b) use q = physReadByte s use q := by
  unfold physWriteByte
  split
  · rfl
  · rw [physReadByte_markStored, physReadByte_storeByte_other s h]

/-- A store of one byte keeps the canonical forms. -/
theorem physWriteByte_wf {s : State} (hc : s.cfg.wf = true) (hm : Memory.wf s.mem = true)
    (hs : strictlyRising s.stored = true) (hl : ∀ k ∈ s.stored, k < 2 ^ 34) (a : Nat) (b : Byte) :
    Memory.wf (physWriteByte s a b).mem = true ∧ strictlyRising (physWriteByte s a b).stored = true
      ∧ ∀ k ∈ (physWriteByte s a b).stored, k < 2 ^ 34 := by
  by_cases hv : placeOf s.cfg a = .vacant
  · have e : physWriteByte s a b = s := by
      unfold physWriteByte
      split
      · rfl
      · exact absurd hv ‹_›
    rw [e]
    exact ⟨hm, hs, hl⟩
  · have ha := placeOf_lt hc hv
    refine ⟨?_, ?_, fun k hk => ?_⟩
    · have hmem : Memory.wf (storeByte s a b).mem = true := by
        unfold storeByte
        split <;> first | exact hm | exact Memory.write_wf hm ha _ | (split <;> exact hm)
      unfold physWriteByte
      split
      · exact hm
      · exact hmem
    · unfold physWriteByte
      split
      · exact hs
      · refine addAddress_rising ?_ a
        rw [storeByte_kept]
        exact hs
    · rcases (mem_physWriteByte_stored s a b k).1 hk with hk | ⟨rfl, _⟩
      · exact hl k hk
      · exact ha

end Sys2Proof.Machine
end

