-- ==== Sys2Proof/Laws/Ops.lean ====
section
/-! SUPPORT. For each shared operation, once, all it can do: stores, traps and returns, address resolution,
the end of an instruction. -/

namespace Sys2Proof.Machine

/-! ## Stores -/

/-- A store changes main memory, its record and the CLINT's registers, and nothing else. -/
theorem physWrite_kept (s : State) (w : Width) (pa : PAddr) (v : Word) :
    physWrite s w pa v =
      { s with
        mem := (physWrite s w pa v).mem, stored := (physWrite s w pa v).stored,
        msipBit := (physWrite s w pa v).msipBit, mtimecmp := (physWrite s w pa v).mtimecmp,
        mtime := (physWrite s w pa v).mtime } := by
  have two : ∀ (t : State) (a b : Nat) (c d : Byte),
      physWriteByte (physWriteByte t a c) b d =
        { t with
          mem := (physWriteByte (physWriteByte t a c) b d).mem,
          stored := (physWriteByte (physWriteByte t a c) b d).stored,
          msipBit := (physWriteByte (physWriteByte t a c) b d).msipBit,
          mtimecmp := (physWriteByte (physWriteByte t a c) b d).mtimecmp,
          mtime := (physWriteByte (physWriteByte t a c) b d).mtime } := by
    intro t a b c d
    rw [physWriteByte_kept (physWriteByte t a c) b d, physWriteByte_kept t a c]
  cases w
  · exact physWriteByte_kept s _ _
  · exact two s _ _ _ _
  · show physWriteByte (physWriteByte (physWriteByte (physWriteByte s _ _) _ _) _ _) _ _ = _
    simp only [physWrite]
    rw [two (physWriteByte (physWriteByte s _ _) _ _), two s]

@[simp] theorem physWrite_cfg (s : State) (w : Width) (pa : PAddr) (v : Word) :
    (physWrite s w pa v).cfg = s.cfg := by rw [physWrite_kept]

@[simp] theorem physWrite_pc (s : State) (w : Width) (pa : PAddr) (v : Word) :
    (physWrite s w pa v).pc = s.pc := by rw [physWrite_kept]

@[simp] theorem physWrite_priv (s : State) (w : Width) (pa : PAddr) (v : Word) :
    (physWrite s w pa v).priv = s.priv := by rw [physWrite_kept]

@[simp] theorem physWrite_x (s : State) (w : Width) (pa : PAddr) (v : Word) :
    (physWrite s w pa v).x = s.x := by rw [physWrite_kept]

@[simp] theorem physWrite_minstret (s : State) (w : Width) (pa : PAddr) (v : Word) :
    (physWrite s w pa v).minstret = s.minstret := by rw [physWrite_kept]

@[simp] theorem physWrite_mstatus (s : State) (w : Width) (pa : PAddr) (v : Word) :
    (physWrite s w pa v).mstatus = s.mstatus := by rw [physWrite_kept]

/-- A store leaves every byte outside the access. -/
theorem physReadByte_physWrite_other (s : State) (w : Width) (pa : PAddr) (v : Word) (use : ReadUse)
    {q : Nat} (h : ¬ InAccess w pa q) :
    physReadByte (physWrite s w pa v) use q = physReadByte s use q := by
  unfold InAccess at h
  cases w <;> simp only [Width.bytes] at h <;> simp only [physWrite] <;>
    repeat rw [physReadByte_write_other _ (by omega)]

/-- A store keeps the canonical forms. -/
theorem physWrite_wf {s : State} (hc : s.cfg.wf = true) (hm : s.memoryCanonical = true) (w : Width)
    (pa : PAddr) (v : Word) : (physWrite s w pa v).memoryCanonical = true := by
  have one : ∀ (t : State) (a : Nat) (b : Byte), t.cfg.wf = true → t.memoryCanonical = true →
      (physWriteByte t a b).memoryCanonical = true := by
    intro t a b hc hm
    simp only [State.memoryCanonical, Bool.and_eq_true, List.all_eq_true, decide_eq_true_eq] at hm ⊢
    have := physWriteByte_wf hc hm.1.1 hm.1.2 hm.2 a b
    exact ⟨⟨this.1, this.2.1⟩, this.2.2⟩
  cases w <;> simp only [physWrite]
  · exact one _ _ _ hc hm
  · exact one _ _ _ (by simpa using hc) (one _ _ _ hc hm)
  · exact one _ _ _ (by simpa using hc) (one _ _ _ (by simpa using hc)
      (one _ _ _ (by simpa using hc) (one _ _ _ hc hm)))

/-! ## Traps -/

/-- The registers a trap entry writes; it changes nothing else (R420). -/
theorem trapEntry_kept (c : Cause) (epc tval : Word) (s : State) :
    trapEntry c epc tval s =
      { s with
        mepc := (trapEntry c epc tval s).mepc, sepc := (trapEntry c epc tval s).sepc,
        uepc := (trapEntry c epc tval s).uepc, mcause := (trapEntry c epc tval s).mcause,
        scause := (trapEntry c epc tval s).scause, ucause := (trapEntry c epc tval s).ucause,
        mtval := (trapEntry c epc tval s).mtval, stval := (trapEntry c epc tval s).stval,
        utval := (trapEntry c epc tval s).utval, mstatus := (trapEntry c epc tval s).mstatus,
        priv := (trapEntry c epc tval s).priv, pc := (trapEntry c epc tval s).pc,
        wfiStalled := (trapEntry c epc tval s).wfiStalled } := by
  unfold trapEntry
  split <;> rfl

@[simp] theorem trapEntry_cfg (c : Cause) (epc tval : Word) (s : State) :
    (trapEntry c epc tval s).cfg = s.cfg := by rw [trapEntry_kept]

@[simp] theorem trapEntry_x (c : Cause) (epc tval : Word) (s : State) :
    (trapEntry c epc tval s).x = s.x := by rw [trapEntry_kept]

@[simp] theorem trapEntry_mem (c : Cause) (epc tval : Word) (s : State) :
    (trapEntry c epc tval s).mem = s.mem := by rw [trapEntry_kept]

@[simp] theorem trapEntry_stored (c : Cause) (epc tval : Word) (s : State) :
    (trapEntry c epc tval s).stored = s.stored := by rw [trapEntry_kept]

@[simp] theorem trapEntry_minstret (c : Cause) (epc tval : Word) (s : State) :
    (trapEntry c epc tval s).minstret = s.minstret := by rw [trapEntry_kept]

@[simp] theorem trapEntry_priv (c : Cause) (epc tval : Word) (s : State) :
    (trapEntry c epc tval s).priv = targetMode s c := by
  unfold trapEntry
  split <;> simp_all

@[simp] theorem trapEntry_pc (c : Cause) (epc tval : Word) (s : State) :
    (trapEntry c epc tval s).pc = trapVector s (targetMode s c) c := by
  unfold trapEntry
  split <;> simp_all

/-- A handler's address is aligned. -/
theorem trapVector_aligned (s : State) (x : Priv) (c : Cause) :
    wordAligned (trapVector s x c) = true := by
  have hbase : ∀ t : Tvec, t.baseAddress.toNat % 4 = 0 := by
    intro t
    simp only [Tvec.baseAddress, BitVec.toNat_append]
    simp [Nat.shiftLeft_eq]
  have key : ∀ a : Word, a.toNat % 4 = 0 → wordAligned a = true := by
    intro a ha
    simp only [wordAligned, decide_eq_true_eq]
    apply BitVec.eq_of_toNat_eq
    simpa [BitVec.extractLsb'_toNat] using ha
  unfold trapVector
  simp only
  split
  · apply key
    have := hbase (s.tvecOf x)
    simp only [BitVec.toNat_add, BitVec.toNat_ofNat]
    omega
  · exact key _ (hbase _)

/-- The fields a return from a trap writes; it changes nothing else (R321 to R323). -/
theorem trapReturn_kept (x : Priv) (s : State) :
    trapReturn x s =
      { s with
        pc := s.epcOf x, mstatus := (trapReturn x s).mstatus, priv := (trapReturn x s).priv } := by
  cases x <;> rfl

@[simp] theorem trapReturn_pc (x : Priv) (s : State) : (trapReturn x s).pc = s.epcOf x := by
  cases x <;> rfl

/-- The address a return goes to is aligned. -/
theorem epcOf_aligned (s : State) (x : Priv) : wordAligned (s.epcOf x) = true := by
  have key : ∀ a : Word, wordAligned (a &&& epcMask) = true := by
    intro a
    refine decide_eq_true ?_
    ext i hi
    interval_cases i <;> simp [BitVec.getElem_extractLsb', epcMask]
  cases x <;> exact key _

/-! ## The end of an instruction -/

/-- Writing a result either raises `IllegalInstr` by the `rd = x0` rule, or completes (R202). -/
theorem writeResult_eq (w : Word) (rd : Reg) (v : Word) (s : State) :
    (rdX0Trap s rd = true ∧ writeResult w rd v s = .next (trapEntry (.exception .illegalInstr) s.pc w s))
      ∨ (rdX0Trap s rd = false ∧
          writeResult w rd v s = .next (((s.writeX rd v).setPc (s.pc + 4#32)).retire)) := by
  unfold writeResult raiseIllegal raise complete
  cases rdX0Trap s rd <;> simp

/-- What a completed write of a result did. -/
theorem completedWith_writeX (s : State) (rd : Reg) (v nextPc : Word) :
    CompletedWith s (((s.writeX rd v).setPc nextPc).retire) rd v nextPc where
  result h := by simp [writeX_readX_same _ _ _ h]
  zero := rfl
  otherRegisters r h := by simp [writeX_readX_other _ _ _ h]
  nextAddress := rfl
  counted := by simp
  memoryKept use a := by
    unfold physReadByte
    simp
  nothingElse := by
    rw [writeX_eq]
    rfl

/-! ## Address resolution -/

/-- What an access that resolves has passed: alignment, `MEM_MAP` and PMP (R140, R141). -/
theorem resolve_ok {s : State} {acc : Access} {w : Width} {va : Word} {pa : PAddr}
    (h : resolve s acc w va = .ok pa) :
    (acc = .fetch ∨ va.toNat % w.bytes = 0) ∧ physicalAddress s acc va = .ok pa ∧
      accessPresent s.cfg w pa = true ∧ pmpOk s pa acc (effPriv s acc) = true := by
  have checked : checkedAddress s acc w va = .ok pa → physicalAddress s acc va = .ok pa ∧
      accessPresent s.cfg w pa = true ∧ pmpOk s pa acc (effPriv s acc) = true := by
    intro h
    unfold checkedAddress at h
    split at h
    · cases h
    · rename_i p hp
      split at h
      · rename_i hc
        injection h with h
        subst h
        simp only [Bool.and_eq_true] at hc
        exact ⟨hp, hc.1, hc.2⟩
      · cases h
  unfold resolve at h
  split at h
  · split at h
    · exact ⟨Or.inr ‹_›, checked h⟩
    · cases h
  · rename_i hm
    refine ⟨Or.inl ?_, checked h⟩
    cases acc <;> simp_all [misalignedOf]

/-- Every exception of an address records the virtual address (R104, R124, R132, R137). -/
theorem leafAddress_error {s : State} {va : Word} {acc : Access} {p : Priv} {l : Nat} {pte : Word}
    {e : Raised} (h : leafAddress s va acc p l pte = .error e) : e = ⟨pageFaultOf acc, va⟩ := by
  unfold leafAddress at h
  split at h
  · injection h with h; exact h.symm
  · split at h
    · injection h with h; exact h.symm
    · split at h
      · injection h with h; exact h.symm
      · split at h <;> cases h

theorem readPte_error {s : State} {va : Word} {acc : Access} {l : Nat} {ppn : BitVec 22} {e : Raised}
    (h : readPte s va acc l ppn = .error e) : e = ⟨accessFaultOf acc, va⟩ := by
  unfold readPte at h
  simp only at h
  split at h
  · cases h
  · injection h with h; exact h.symm

theorem walkFrom_error {s : State} {va : Word} {acc : Access} {p : Priv} {l : Nat} {ppn : BitVec 22}
    {e : Raised} (h : walkFrom s va acc p l ppn = .error e) :
    e = ⟨pageFaultOf acc, va⟩ ∨ e = ⟨accessFaultOf acc, va⟩ := by
  induction l generalizing ppn with
  | zero =>
    unfold walkFrom at h
    split at h
    · injection h with h; subst h; exact Or.inr (readPte_error ‹_›)
    · split at h
      · injection h with h; exact Or.inl h.symm
      · split at h
        · exact Or.inl (leafAddress_error h)
        · injection h with h; exact Or.inl h.symm
  | succ l ih =>
    unfold walkFrom at h
    split at h
    · injection h with h; subst h; exact Or.inr (readPte_error ‹_›)
    · split at h
      · injection h with h; exact Or.inl h.symm
      · split at h
        · exact Or.inl (leafAddress_error h)
        · exact ih h

/-- The exceptions an access can raise: misalignment, then a page fault or an access fault of its own
type, all with the virtual address as value (R142). -/
theorem resolve_error {s : State} {acc : Access} {w : Width} {va : Word} {e : Raised}
    (h : resolve s acc w va = .error e) :
    (∃ m, misalignedOf acc = some m ∧ va.toNat % w.bytes ≠ 0 ∧ e = ⟨m, va⟩)
      ∨ e = ⟨pageFaultOf acc, va⟩ ∨ e = ⟨accessFaultOf acc, va⟩ := by
  have checked : checkedAddress s acc w va = .error e →
      e = ⟨pageFaultOf acc, va⟩ ∨ e = ⟨accessFaultOf acc, va⟩ := by
    intro h
    unfold checkedAddress at h
    split at h
    · rename_i e' hp
      injection h with h
      subst h
      unfold physicalAddress at hp
      split at hp
      · exact walkFrom_error hp
      · cases hp
    · split at h
      · cases h
      · injection h with h; exact Or.inr h.symm
  unfold resolve at h
  split at h
  · rename_i m hm
    split at h
    · exact Or.inr (checked h)
    · injection h with h
      exact Or.inl ⟨m, hm, ‹_›, h.symm⟩
  · exact Or.inr (checked h)

/-- Where no translation applies the physical address is the virtual address extended with zeros
(R130). -/
theorem physicalAddress_bare {s : State} {acc : Access} (va : Word)
    (h : s.satpMode = false ∨ effPriv s acc = .M) : physicalAddress s acc va = .ok (va.setWidth 34) := by
  unfold physicalAddress
  rcases h with h | h <;> simp [h]

/-- Without PMP entries, and in M-mode where no entry matches, PMP permits (R123). -/
theorem pmpOk_of_noEntries {s : State} (h : s.cfg.pmpEntries.val = 0) (pa : PAddr) (acc : Access)
    (p : Priv) : pmpOk s pa acc p = true := by
  simp [pmpOk, h]

/-- A load resolves its address and reads there; a store resolves and writes there. -/
theorem memRead_eq (s : State) (acc : Access) (w : Width) (va : Word) :
    memRead s acc w va = (resolve s acc w va).map (physRead s (.access acc) w) := by
  unfold memRead
  cases resolve s acc w va <;> rfl

theorem memWrite_eq (s : State) (w : Width) (va v : Word) :
    memWrite s w va v = (resolve s .store w va).map (fun pa => physWrite s w pa v) := by
  unfold memWrite
  cases resolve s .store w va <;> rfl

end Sys2Proof.Machine
end

