-- ==== Sys2Proof/Laws/PerInstr.lean ====
section
/-! SUPPORT. Per-instruction families. `EncodesRow`: the word of an instruction matches the row of the opcode
table that carries its mnemonic (R187). -/

namespace Sys2Proof.Laws

/-- The opcode table has a row with the instruction's mnemonic, and the instruction's word, whatever its
operands, matches it. -/
def EncodesRow.Statement (i : Instr) : Prop :=
  ∃ r ∈ opcodeRows, r.mnemonic = mnemonicOf i ∧ r.matchesWord (encode i) = true

theorem EncodesRow.lui (rd : Reg) (imm20 : BitVec 20) : EncodesRow.Statement (.lui rd imm20) :=
  ⟨⟨"LUI", 0x00000037, 0x0000007F⟩, by decide, rfl, decide_eq_true (encU_mask _ _ _)⟩

theorem EncodesRow.auipc (rd : Reg) (imm20 : BitVec 20) : EncodesRow.Statement (.auipc rd imm20) :=
  ⟨⟨"AUIPC", 0x00000017, 0x0000007F⟩, by decide, rfl, decide_eq_true (encU_mask _ _ _)⟩

theorem EncodesRow.jal (rd : Reg) (off : BitVec 21) : EncodesRow.Statement (.jal rd off) :=
  ⟨⟨"JAL", 0x0000006F, 0x0000007F⟩, by decide, rfl, decide_eq_true (encJ_mask _ _ _)⟩

theorem EncodesRow.jalr (rd rs1 : Reg) (imm12 : BitVec 12) : EncodesRow.Statement (.jalr rd rs1 imm12) :=
  ⟨⟨"JALR", 0x00000067, 0x0000707F⟩, by decide, rfl, decide_eq_true (encI_mask _ _ _ _ _)⟩

theorem EncodesRow.beq (rs1 rs2 : Reg) (off : BitVec 13) : EncodesRow.Statement (.beq rs1 rs2 off) :=
  ⟨⟨"BEQ", 0x00000063, 0x0000707F⟩, by decide, rfl, decide_eq_true (encB_mask _ _ _ _)⟩

theorem EncodesRow.bne (rs1 rs2 : Reg) (off : BitVec 13) : EncodesRow.Statement (.bne rs1 rs2 off) :=
  ⟨⟨"BNE", 0x00001063, 0x0000707F⟩, by decide, rfl, decide_eq_true (encB_mask _ _ _ _)⟩

theorem EncodesRow.blt (rs1 rs2 : Reg) (off : BitVec 13) : EncodesRow.Statement (.blt rs1 rs2 off) :=
  ⟨⟨"BLT", 0x00004063, 0x0000707F⟩, by decide, rfl, decide_eq_true (encB_mask _ _ _ _)⟩

theorem EncodesRow.bge (rs1 rs2 : Reg) (off : BitVec 13) : EncodesRow.Statement (.bge rs1 rs2 off) :=
  ⟨⟨"BGE", 0x00005063, 0x0000707F⟩, by decide, rfl, decide_eq_true (encB_mask _ _ _ _)⟩

theorem EncodesRow.bltu (rs1 rs2 : Reg) (off : BitVec 13) : EncodesRow.Statement (.bltu rs1 rs2 off) :=
  ⟨⟨"BLTU", 0x00006063, 0x0000707F⟩, by decide, rfl, decide_eq_true (encB_mask _ _ _ _)⟩

theorem EncodesRow.bgeu (rs1 rs2 : Reg) (off : BitVec 13) : EncodesRow.Statement (.bgeu rs1 rs2 off) :=
  ⟨⟨"BGEU", 0x00007063, 0x0000707F⟩, by decide, rfl, decide_eq_true (encB_mask _ _ _ _)⟩

theorem EncodesRow.lb (rd rs1 : Reg) (imm12 : BitVec 12) : EncodesRow.Statement (.lb rd rs1 imm12) :=
  ⟨⟨"LB", 0x00000003, 0x0000707F⟩, by decide, rfl, decide_eq_true (encI_mask _ _ _ _ _)⟩

theorem EncodesRow.lh (rd rs1 : Reg) (imm12 : BitVec 12) : EncodesRow.Statement (.lh rd rs1 imm12) :=
  ⟨⟨"LH", 0x00001003, 0x0000707F⟩, by decide, rfl, decide_eq_true (encI_mask _ _ _ _ _)⟩

theorem EncodesRow.lw (rd rs1 : Reg) (imm12 : BitVec 12) : EncodesRow.Statement (.lw rd rs1 imm12) :=
  ⟨⟨"LW", 0x00002003, 0x0000707F⟩, by decide, rfl, decide_eq_true (encI_mask _ _ _ _ _)⟩

theorem EncodesRow.lbu (rd rs1 : Reg) (imm12 : BitVec 12) : EncodesRow.Statement (.lbu rd rs1 imm12) :=
  ⟨⟨"LBU", 0x00004003, 0x0000707F⟩, by decide, rfl, decide_eq_true (encI_mask _ _ _ _ _)⟩

theorem EncodesRow.lhu (rd rs1 : Reg) (imm12 : BitVec 12) : EncodesRow.Statement (.lhu rd rs1 imm12) :=
  ⟨⟨"LHU", 0x00005003, 0x0000707F⟩, by decide, rfl, decide_eq_true (encI_mask _ _ _ _ _)⟩

theorem EncodesRow.sb (rs2 rs1 : Reg) (imm12 : BitVec 12) : EncodesRow.Statement (.sb rs2 rs1 imm12) :=
  ⟨⟨"SB", 0x00000023, 0x0000707F⟩, by decide, rfl, decide_eq_true (encS_mask _ _ _ _ _)⟩

theorem EncodesRow.sh (rs2 rs1 : Reg) (imm12 : BitVec 12) : EncodesRow.Statement (.sh rs2 rs1 imm12) :=
  ⟨⟨"SH", 0x00001023, 0x0000707F⟩, by decide, rfl, decide_eq_true (encS_mask _ _ _ _ _)⟩

theorem EncodesRow.sw (rs2 rs1 : Reg) (imm12 : BitVec 12) : EncodesRow.Statement (.sw rs2 rs1 imm12) :=
  ⟨⟨"SW", 0x00002023, 0x0000707F⟩, by decide, rfl, decide_eq_true (encS_mask _ _ _ _ _)⟩

theorem EncodesRow.addi (rd rs1 : Reg) (imm12 : BitVec 12) : EncodesRow.Statement (.addi rd rs1 imm12) :=
  ⟨⟨"ADDI", 0x00000013, 0x0000707F⟩, by decide, rfl, decide_eq_true (encI_mask _ _ _ _ _)⟩

theorem EncodesRow.slti (rd rs1 : Reg) (imm12 : BitVec 12) : EncodesRow.Statement (.slti rd rs1 imm12) :=
  ⟨⟨"SLTI", 0x00002013, 0x0000707F⟩, by decide, rfl, decide_eq_true (encI_mask _ _ _ _ _)⟩

theorem EncodesRow.sltiu (rd rs1 : Reg) (imm12 : BitVec 12) : EncodesRow.Statement (.sltiu rd rs1 imm12) :=
  ⟨⟨"SLTIU", 0x00003013, 0x0000707F⟩, by decide, rfl, decide_eq_true (encI_mask _ _ _ _ _)⟩

theorem EncodesRow.xori (rd rs1 : Reg) (imm12 : BitVec 12) : EncodesRow.Statement (.xori rd rs1 imm12) :=
  ⟨⟨"XORI", 0x00004013, 0x0000707F⟩, by decide, rfl, decide_eq_true (encI_mask _ _ _ _ _)⟩

theorem EncodesRow.ori (rd rs1 : Reg) (imm12 : BitVec 12) : EncodesRow.Statement (.ori rd rs1 imm12) :=
  ⟨⟨"ORI", 0x00006013, 0x0000707F⟩, by decide, rfl, decide_eq_true (encI_mask _ _ _ _ _)⟩

theorem EncodesRow.andi (rd rs1 : Reg) (imm12 : BitVec 12) : EncodesRow.Statement (.andi rd rs1 imm12) :=
  ⟨⟨"ANDI", 0x00007013, 0x0000707F⟩, by decide, rfl, decide_eq_true (encI_mask _ _ _ _ _)⟩

theorem EncodesRow.slli (rd rs1 : Reg) (shamt : BitVec 5) : EncodesRow.Statement (.slli rd rs1 shamt) :=
  ⟨⟨"SLLI", 0x00001013, 0xFE00707F⟩, by decide, rfl, decide_eq_true (encR_mask _ _ _ _ _ _)⟩

theorem EncodesRow.srli (rd rs1 : Reg) (shamt : BitVec 5) : EncodesRow.Statement (.srli rd rs1 shamt) :=
  ⟨⟨"SRLI", 0x00005013, 0xFE00707F⟩, by decide, rfl, decide_eq_true (encR_mask _ _ _ _ _ _)⟩

theorem EncodesRow.srai (rd rs1 : Reg) (shamt : BitVec 5) : EncodesRow.Statement (.srai rd rs1 shamt) :=
  ⟨⟨"SRAI", 0x40005013, 0xFE00707F⟩, by decide, rfl, decide_eq_true (encR_mask _ _ _ _ _ _)⟩

theorem EncodesRow.add (rd rs1 rs2 : Reg) : EncodesRow.Statement (.add rd rs1 rs2) :=
  ⟨⟨"ADD", 0x00000033, 0xFE00707F⟩, by decide, rfl, decide_eq_true (encR_mask _ _ _ _ _ _)⟩

theorem EncodesRow.sub (rd rs1 rs2 : Reg) : EncodesRow.Statement (.sub rd rs1 rs2) :=
  ⟨⟨"SUB", 0x40000033, 0xFE00707F⟩, by decide, rfl, decide_eq_true (encR_mask _ _ _ _ _ _)⟩

theorem EncodesRow.sll (rd rs1 rs2 : Reg) : EncodesRow.Statement (.sll rd rs1 rs2) :=
  ⟨⟨"SLL", 0x00001033, 0xFE00707F⟩, by decide, rfl, decide_eq_true (encR_mask _ _ _ _ _ _)⟩

theorem EncodesRow.slt (rd rs1 rs2 : Reg) : EncodesRow.Statement (.slt rd rs1 rs2) :=
  ⟨⟨"SLT", 0x00002033, 0xFE00707F⟩, by decide, rfl, decide_eq_true (encR_mask _ _ _ _ _ _)⟩

theorem EncodesRow.sltu (rd rs1 rs2 : Reg) : EncodesRow.Statement (.sltu rd rs1 rs2) :=
  ⟨⟨"SLTU", 0x00003033, 0xFE00707F⟩, by decide, rfl, decide_eq_true (encR_mask _ _ _ _ _ _)⟩

theorem EncodesRow.xor (rd rs1 rs2 : Reg) : EncodesRow.Statement (.xor rd rs1 rs2) :=
  ⟨⟨"XOR", 0x00004033, 0xFE00707F⟩, by decide, rfl, decide_eq_true (encR_mask _ _ _ _ _ _)⟩

theorem EncodesRow.srl (rd rs1 rs2 : Reg) : EncodesRow.Statement (.srl rd rs1 rs2) :=
  ⟨⟨"SRL", 0x00005033, 0xFE00707F⟩, by decide, rfl, decide_eq_true (encR_mask _ _ _ _ _ _)⟩

theorem EncodesRow.sra (rd rs1 rs2 : Reg) : EncodesRow.Statement (.sra rd rs1 rs2) :=
  ⟨⟨"SRA", 0x40005033, 0xFE00707F⟩, by decide, rfl, decide_eq_true (encR_mask _ _ _ _ _ _)⟩

theorem EncodesRow.or (rd rs1 rs2 : Reg) : EncodesRow.Statement (.or rd rs1 rs2) :=
  ⟨⟨"OR", 0x00006033, 0xFE00707F⟩, by decide, rfl, decide_eq_true (encR_mask _ _ _ _ _ _)⟩

theorem EncodesRow.and (rd rs1 rs2 : Reg) : EncodesRow.Statement (.and rd rs1 rs2) :=
  ⟨⟨"AND", 0x00007033, 0xFE00707F⟩, by decide, rfl, decide_eq_true (encR_mask _ _ _ _ _ _)⟩

theorem EncodesRow.fence (fm pred succ : BitVec 4) (rs1 rd : Reg) : EncodesRow.Statement (.fence fm pred succ rs1 rd) :=
  ⟨⟨"FENCE", 0x0000000F, 0x0000707F⟩, by decide, rfl, decide_eq_true (encI_mask _ _ _ _ _)⟩

theorem EncodesRow.ecall : EncodesRow.Statement (.ecall) :=
  ⟨⟨"ECALL", 0x00000073, 0xFFFFFFFF⟩, by decide, rfl, by decide⟩

theorem EncodesRow.ebreak : EncodesRow.Statement (.ebreak) :=
  ⟨⟨"EBREAK", 0x00100073, 0xFFFFFFFF⟩, by decide, rfl, by decide⟩

theorem EncodesRow.csrrw (rd : Reg) (csr : CsrAddr) (rs1 : Reg) : EncodesRow.Statement (.csrrw rd csr rs1) :=
  ⟨⟨"CSRRW", 0x00001073, 0x0000707F⟩, by decide, rfl, decide_eq_true (encI_mask _ _ _ _ _)⟩

theorem EncodesRow.csrrs (rd : Reg) (csr : CsrAddr) (rs1 : Reg) : EncodesRow.Statement (.csrrs rd csr rs1) :=
  ⟨⟨"CSRRS", 0x00002073, 0x0000707F⟩, by decide, rfl, decide_eq_true (encI_mask _ _ _ _ _)⟩

theorem EncodesRow.csrrc (rd : Reg) (csr : CsrAddr) (rs1 : Reg) : EncodesRow.Statement (.csrrc rd csr rs1) :=
  ⟨⟨"CSRRC", 0x00003073, 0x0000707F⟩, by decide, rfl, decide_eq_true (encI_mask _ _ _ _ _)⟩

theorem EncodesRow.csrrwi (rd : Reg) (csr : CsrAddr) (uimm : BitVec 5) : EncodesRow.Statement (.csrrwi rd csr uimm) :=
  ⟨⟨"CSRRWI", 0x00005073, 0x0000707F⟩, by decide, rfl, decide_eq_true (encI_mask _ _ _ _ _)⟩

theorem EncodesRow.csrrsi (rd : Reg) (csr : CsrAddr) (uimm : BitVec 5) : EncodesRow.Statement (.csrrsi rd csr uimm) :=
  ⟨⟨"CSRRSI", 0x00006073, 0x0000707F⟩, by decide, rfl, decide_eq_true (encI_mask _ _ _ _ _)⟩

theorem EncodesRow.csrrci (rd : Reg) (csr : CsrAddr) (uimm : BitVec 5) : EncodesRow.Statement (.csrrci rd csr uimm) :=
  ⟨⟨"CSRRCI", 0x00007073, 0x0000707F⟩, by decide, rfl, decide_eq_true (encI_mask _ _ _ _ _)⟩

theorem EncodesRow.uret : EncodesRow.Statement (.uret) :=
  ⟨⟨"URET", 0x00200073, 0xFFFFFFFF⟩, by decide, rfl, by decide⟩

theorem EncodesRow.sret : EncodesRow.Statement (.sret) :=
  ⟨⟨"SRET", 0x10200073, 0xFFFFFFFF⟩, by decide, rfl, by decide⟩

theorem EncodesRow.mret : EncodesRow.Statement (.mret) :=
  ⟨⟨"MRET", 0x30200073, 0xFFFFFFFF⟩, by decide, rfl, by decide⟩

theorem EncodesRow.wfi : EncodesRow.Statement (.wfi) :=
  ⟨⟨"WFI", 0x10500073, 0xFFFFFFFF⟩, by decide, rfl, by decide⟩

theorem EncodesRow.sfenceVma (rs1 rs2 : Reg) : EncodesRow.Statement (.sfenceVma rs1 rs2) :=
  ⟨⟨"SFENCE.VMA", 0x12000073, 0xFE007FFF⟩, by decide, rfl, decide_eq_true (encR_mask_rd _ _ _ _ _ _)⟩

end Sys2Proof.Laws
end

