-- ==== Sys2Proof/Laws/Step.lean ====
section
/-! SUPPORT. What one instruction can do, what the platform can do, and what one step can do: each said once,
with all its cases. -/

namespace Sys2Proof.Machine

/-! ## One instruction -/

/-- All an instruction can lead to from `s`. -/
inductive ExecCase (s : State) : State → Prop where
  /-- It raised an exception (R11, R404). -/
  | trapped (e : Exc) (tval : Word) : ExecCase s (trapEntry (.exception e) s.pc tval s)
  /-- It wrote at most one register and went on at `a`. -/
  | wrote (rd : Reg) (v a : Word) (ha : wordAligned s.pc = true → wordAligned a = true) :
      ExecCase s (((s.writeX rd v).setPc a).retire)
  /-- It stored. -/
  | stored (w : Width) (va : Word) (pa : PAddr) (v : Word) (hpa : resolve s .store w va = .ok pa) :
      ExecCase s (((physWrite s w pa v).setPc (s.pc + 4#32)).retire)
  /-- It accessed a CSR. -/
  | csr (a : CsrAddr) (c : Csr) (op : CsrOp) (operand : Word) (doesWrite : Bool) (rd : Reg)
      (hc : csrAccess s a doesWrite = some c) (t : State)
      (ht : completeCsr c doesWrite ((csrUpdate op c operand doesWrite s).writeX rd (csrRead s c)) =
        .next t) : ExecCase s t
  /-- It returned from a trap handler of mode `x`, which is not above the current mode. -/
  | returned (x : Priv) (hx : s.priv.below x = false) : ExecCase s ((trapReturn x s).retire)
  /-- It stalled the hart. -/
  | waited : ExecCase s (({ s with wfiStalled := true }.setPc (s.pc + 4#32)).retire)

theorem wordAligned_add_four {a : Word} (h : wordAligned a = true) : wordAligned (a + 4#32) = true := by
  have h := of_decide_eq_true h
  have hn : a.toNat % 4 = 0 := by
    have := congrArg BitVec.toNat h
    simpa [BitVec.extractLsb'_toNat] using this
  refine decide_eq_true (BitVec.eq_of_toNat_eq ?_)
  simp only [BitVec.extractLsb'_toNat, BitVec.toNat_add, BitVec.toNat_ofNat]
  omega

theorem complete_case (s : State) : ∃ t, complete s = .next t ∧ ExecCase s t := by
  refine ⟨_, rfl, ?_⟩
  have := ExecCase.wrote (s := s) 0#5 0#32 (s.pc + 4#32) wordAligned_add_four
  simpa using this

theorem raise_case (e : Exc) (tval : Word) (s : State) :
    ∃ t, raise e tval s = .next t ∧ ExecCase s t := ⟨_, rfl, .trapped e tval⟩

theorem writeResult_case (w : Word) (rd : Reg) (v : Word) (s : State) :
    ∃ t, writeResult w rd v s = .next t ∧ ExecCase s t := by
  rcases writeResult_eq w rd v s with ⟨_, h⟩ | ⟨_, h⟩
  · exact ⟨_, h, .trapped _ _⟩
  · exact ⟨_, h, .wrote rd v _ wordAligned_add_four⟩

theorem jumpAndLink_case (rd : Reg) (a : Word) (s : State) :
    ∃ t, jumpAndLink rd a s = .next t ∧ ExecCase s t := by
  unfold jumpAndLink
  split
  · rename_i h
    exact ⟨_, rfl, .wrote rd _ a fun _ => h⟩
  · exact raise_case _ _ s

theorem branch_case (taken : Bool) (off : BitVec 13) (s : State) :
    ∃ t, branch taken off s = .next t ∧ ExecCase s t := by
  unfold branch
  split
  · split
    · rename_i h
      refine ⟨_, rfl, ?_⟩
      have := ExecCase.wrote (s := s) 0#5 0#32 _ fun _ => h
      simpa using this
    · exact raise_case _ _ s
  · exact complete_case s

theorem load_case (word : Word) (w : Width) (ext : Word → Word) (rd rs1 : Reg) (imm : BitVec 12)
    (s : State) : ∃ t, load word w ext rd rs1 imm s = .next t ∧ ExecCase s t := by
  unfold load
  split
  · exact raise_case _ _ s
  · split
    · exact raise_case _ _ s
    · exact ⟨_, rfl, .wrote rd _ _ (by simpa using wordAligned_add_four)⟩

theorem store_case (w : Width) (rs2 rs1 : Reg) (imm : BitVec 12) (s : State) :
    ∃ t, store w rs2 rs1 imm s = .next t ∧ ExecCase s t := by
  unfold store
  rw [memWrite_eq]
  cases h : resolve s .store w (effectiveAddress (s.readX rs1) imm) with
  | error r => exact raise_case _ _ s
  | ok pa =>
    refine ⟨_, rfl, ?_⟩
    have := ExecCase.stored w _ pa (s.readX rs2) h
    simpa using this

theorem csrInstr_case (w : Word) (op : CsrOp) (rd : Reg) (a : CsrAddr) (operand : Word)
    (doesWrite : Bool) (s : State) :
    ∃ t, csrInstr w op rd a operand doesWrite s = .next t ∧ ExecCase s t := by
  rcases csrInstr_eq w op rd a operand doesWrite s with ⟨_, h⟩ | ⟨c, hc, h⟩
  · exact ⟨_, h, .trapped _ _⟩
  · rw [completeCsr_eq] at h
    exact ⟨_, h, .csr a c op operand doesWrite rd hc _ (completeCsr_eq _ _ _)⟩

theorem csrModify_case (w : Word) (op : CsrOp) (rd : Reg) (a : CsrAddr) (operand : Word)
    (source : BitVec 5) (s : State) :
    ∃ t, csrModify w op rd a operand source s = .next t ∧ ExecCase s t := by
  unfold csrModify
  split
  · exact raise_case _ _ s
  · exact csrInstr_case _ _ _ _ _ _ s

theorem returnFrom_case (x : Priv) (s : State) (hx : s.priv.below x = false) :
    ∃ t, returnFrom x s = .next t ∧ ExecCase s t := ⟨_, rfl, .returned x hx⟩

/-- Every instruction answers a next state, and this is all it can be. -/
theorem exec_cases (i : Instr) (s : State) : ∃ t, exec i s = .next t ∧ ExecCase s t := by
  cases i with
  | mret =>
    show ∃ t, execMret s = .next t ∧ _
    unfold execMret
    split
    · rename_i h
      exact returnFrom_case .M s (by rw [h]; rfl)
    · exact raise_case _ _ s
    · exact raise_case _ _ s
  | sret =>
    show ∃ t, execSret s = .next t ∧ _
    unfold execSret
    split
    · rename_i h
      exact returnFrom_case .S s (by rw [h]; rfl)
    · rename_i h
      split
      · exact raise_case _ _ s
      · exact returnFrom_case .S s (by rw [h]; rfl)
    · exact raise_case _ _ s
  | uret => exact returnFrom_case .U s (by cases s.priv <;> rfl)
  | wfi =>
    show ∃ t, execWfi s = .next t ∧ _
    unfold execWfi
    split
    · exact raise_case _ _ s
    · exact ⟨_, rfl, .waited⟩
  | sfenceVma rs1 rs2 =>
    show ∃ t, execSfenceVma rs1 rs2 s = .next t ∧ _
    unfold execSfenceVma
    split
    · exact complete_case s
    · split
      · exact raise_case _ _ s
      · exact complete_case s
    · exact raise_case _ _ s
  | fence fm pred succ rs1 rd => exact complete_case s
  | ecall => exact raise_case _ _ s
  | ebreak => exact raise_case _ _ s
  | jal rd off => exact jumpAndLink_case _ _ s
  | jalr rd rs1 imm => exact jumpAndLink_case _ _ s
  | beq rs1 rs2 off => exact branch_case _ _ s
  | bne rs1 rs2 off => exact branch_case _ _ s
  | blt rs1 rs2 off => exact branch_case _ _ s
  | bge rs1 rs2 off => exact branch_case _ _ s
  | bltu rs1 rs2 off => exact branch_case _ _ s
  | bgeu rs1 rs2 off => exact branch_case _ _ s
  | lb rd rs1 imm => exact load_case _ _ _ _ _ _ s
  | lh rd rs1 imm => exact load_case _ _ _ _ _ _ s
  | lw rd rs1 imm => exact load_case _ _ _ _ _ _ s
  | lbu rd rs1 imm => exact load_case _ _ _ _ _ _ s
  | lhu rd rs1 imm => exact load_case _ _ _ _ _ _ s
  | sb rs2 rs1 imm => exact store_case _ _ _ _ s
  | sh rs2 rs1 imm => exact store_case _ _ _ _ s
  | sw rs2 rs1 imm => exact store_case _ _ _ _ s
  | csrrw rd a rs1 => exact csrInstr_case _ _ _ _ _ _ s
  | csrrwi rd a uimm => exact csrInstr_case _ _ _ _ _ _ s
  | csrrs rd a rs1 => exact csrModify_case _ _ _ _ _ _ s
  | csrrc rd a rs1 => exact csrModify_case _ _ _ _ _ _ s
  | csrrsi rd a uimm => exact csrModify_case _ _ _ _ _ _ s
  | csrrci rd a uimm => exact csrModify_case _ _ _ _ _ _ s
  | lui rd imm => exact writeResult_case _ _ _ s
  | auipc rd imm => exact writeResult_case _ _ _ s
  | addi rd rs1 imm => exact writeResult_case _ _ _ s
  | slti rd rs1 imm => exact writeResult_case _ _ _ s
  | sltiu rd rs1 imm => exact writeResult_case _ _ _ s
  | xori rd rs1 imm => exact writeResult_case _ _ _ s
  | ori rd rs1 imm => exact writeResult_case _ _ _ s
  | andi rd rs1 imm => exact writeResult_case _ _ _ s
  | slli rd rs1 sh => exact writeResult_case _ _ _ s
  | srli rd rs1 sh => exact writeResult_case _ _ _ s
  | srai rd rs1 sh => exact writeResult_case _ _ _ s
  | add rd rs1 rs2 => exact writeResult_case _ _ _ s
  | sub rd rs1 rs2 => exact writeResult_case _ _ _ s
  | sll rd rs1 rs2 => exact writeResult_case _ _ _ s
  | slt rd rs1 rs2 => exact writeResult_case _ _ _ s
  | sltu rd rs1 rs2 => exact writeResult_case _ _ _ s
  | xor rd rs1 rs2 => exact writeResult_case _ _ _ s
  | srl rd rs1 rs2 => exact writeResult_case _ _ _ s
  | sra rd rs1 rs2 => exact writeResult_case _ _ _ s
  | or rd rs1 rs2 => exact writeResult_case _ _ _ s
  | and rd rs1 rs2 => exact writeResult_case _ _ _ s

/-! ## The platform -/

/-- What other agents write is main memory, its record, and the CLINT's registers. -/
theorem agentWrites_kept (ws : List (PAddr × Byte)) (s : State) :
    agentWrites ws s =
      { s with
        mem := (agentWrites ws s).mem, stored := (agentWrites ws s).stored,
        msipBit := (agentWrites ws s).msipBit, mtimecmp := (agentWrites ws s).mtimecmp,
        mtime := (agentWrites ws s).mtime } := by
  induction ws generalizing s with
  | nil => rfl
  | cons w rest ih =>
    have e : agentWrites (w :: rest) s = agentWrites rest (physWriteByte s w.1.toNat w.2) := rfl
    rw [e]
    have h1 := ih (physWriteByte s w.1.toNat w.2)
    have h2 := physWriteByte_kept s w.1.toNat w.2
    generalize agentWrites rest (physWriteByte s w.1.toNat w.2) = u at h1
    generalize physWriteByte s w.1.toNat w.2 = p at h1 h2
    rw [h2] at h1
    exact h1

/-- The platform changes its own lines and timers, the counter `mcycle`, the model's two bookkeeping
fields and what other agents write; the hart's registers stay. -/
theorem platform_kept (s : State) :
    platform s =
      { s with
        inputs := s.inputs.tail, tick := s.tick + 1, meipLine := (platform s).meipLine,
        seipLine := (platform s).seipLine, msipBit := (platform s).msipBit,
        msipStored := (platform s).msipStored,
        mtime := (platform s).mtime, mtimecmp := (platform s).mtimecmp,
        mcycle := (platform s).mcycle, mem := (platform s).mem, stored := (platform s).stored } := by
  unfold platform
  simp only
  rw [agentWrites_kept]

@[simp] theorem platform_cfg (s : State) : (platform s).cfg = s.cfg := by rw [platform_kept]
@[simp] theorem platform_x (s : State) : (platform s).x = s.x := by rw [platform_kept]
@[simp] theorem platform_pc (s : State) : (platform s).pc = s.pc := by rw [platform_kept]
@[simp] theorem platform_priv (s : State) : (platform s).priv = s.priv := by rw [platform_kept]
@[simp] theorem platform_mstatus (s : State) : (platform s).mstatus = s.mstatus := by
  rw [platform_kept]
@[simp] theorem platform_mie (s : State) : (platform s).mie = s.mie := by rw [platform_kept]
@[simp] theorem platform_wfiStalled (s : State) : (platform s).wfiStalled = s.wfiStalled := by
  rw [platform_kept]

/-- What other agents write keeps memory canonical. -/
theorem agentWrites_memoryCanonical (ws : List (PAddr × Byte)) {s : State} (hc : s.cfg.wf = true)
    (hm : s.memoryCanonical = true) : (agentWrites ws s).memoryCanonical = true := by
  induction ws generalizing s with
  | nil => exact hm
  | cons w rest ih =>
    have := physWrite_wf hc hm .byte w.1 (w.2.setWidth 32)
    have e : (w.2.setWidth 32).extractLsb' 0 8 = w.2 := by
      ext i hi
      simp [BitVec.getElem_extractLsb', BitVec.getLsbD_eq_getElem hi, show i < 32 by omega]
    simp only [physWrite, e] at this
    exact ih (by simpa using hc) this

/-! ## One step -/

/-- All one step can lead to. -/
theorem step_cases {s t : State} (h : step s = .next t) :
    (s.wfiStalled = true ∧ wakeRequested (platform s) = false ∧ t = platform s)
      ∨ (∃ i, interruptTaken (awake s) = some i ∧ t = takeInterrupt i (awake s))
      ∨ (interruptTaken (awake s) = none ∧
          ((∃ r, fetch (awake s) = .raised r ∧
              t = trapEntry (.exception r.exc) (awake s).pc r.tval (awake s))
            ∨ (∃ w e, fetch (awake s) = .word w ∧ decode w = .error e ∧
              t = trapEntry (.exception .illegalInstr) (awake s).pc w (awake s))
            ∨ (∃ w i, fetch (awake s) = .word w ∧ decode w = .ok i ∧ exec i (awake s) = .next t))) := by
  have run : runUnstalled exec (awake s) = .next t →
      (∃ i, interruptTaken (awake s) = some i ∧ t = takeInterrupt i (awake s))
      ∨ (interruptTaken (awake s) = none ∧
          ((∃ r, fetch (awake s) = .raised r ∧
              t = trapEntry (.exception r.exc) (awake s).pc r.tval (awake s))
            ∨ (∃ w e, fetch (awake s) = .word w ∧ decode w = .error e ∧
              t = trapEntry (.exception .illegalInstr) (awake s).pc w (awake s))
            ∨ (∃ w i, fetch (awake s) = .word w ∧ decode w = .ok i ∧ exec i (awake s) = .next t))) := by
    intro h
    unfold runUnstalled at h
    split at h
    · rename_i i hi
      injection h with h
      exact Or.inl ⟨i, hi, h.symm⟩
    · rename_i hi
      refine Or.inr ⟨hi, ?_⟩
      unfold fetchDecodeRun at h
      split at h
      · rename_i r hr
        injection h with h
        exact Or.inl ⟨r, hr, h.symm⟩
      · cases h
      · rename_i w hw
        split at h
        · rename_i i hd
          exact Or.inr (Or.inr ⟨w, i, hw, hd, h⟩)
        · rename_i e hd
          injection h with h
          exact Or.inr (Or.inl ⟨w, e, hw, hd, h.symm⟩)
  unfold step stepWith at h
  simp only [platform_wfiStalled] at h
  split at h
  · rename_i hs
    split at h
    · exact Or.inr (run h)
    · rename_i hw
      injection h with h
      simp only [Bool.or_eq_true, not_or, Bool.not_eq_true] at hw
      exact Or.inl ⟨hs, hw.1, h.symm⟩
  · rename_i hs
    have : platform s = awake s := by
      unfold awake
      rw [← platform_wfiStalled, Bool.not_eq_true] at hs
      rw [← hs]
    rw [this] at h
    exact Or.inr (run h)

end Sys2Proof.Machine
end

