-- ==== Sys2Proof/Tests/Slice0.lean ====
section
/-! SUPPORT. Tests on fixed values. Expected results come from the spec: the vectors and tables of
95_test_vectors.md (V1 to V13), the worked entries of R426 and R511, and the examples in the rules. -/

namespace Sys2Proof.Tests

open Sys2Proof.Machine

/-! ## Ill-formed terms and parameters are refused -/

theorem test_wf_refuses_odd_jal : Instr.wf (.jal 1#5 7#21) = false := by decide
theorem test_wf_refuses_odd_beq : Instr.wf (.beq 1#5 2#5 3#13) = false := by decide
theorem test_wf_refuses_odd_bne : Instr.wf (.bne 1#5 2#5 3#13) = false := by decide
theorem test_wf_refuses_odd_blt : Instr.wf (.blt 1#5 2#5 3#13) = false := by decide
theorem test_wf_refuses_odd_bge : Instr.wf (.bge 1#5 2#5 3#13) = false := by decide
theorem test_wf_refuses_odd_bltu : Instr.wf (.bltu 1#5 2#5 3#13) = false := by decide
theorem test_wf_refuses_odd_bgeu : Instr.wf (.bgeu 1#5 2#5 3#13) = false := by decide
theorem test_wf_accepts : Instr.wf (.jal 1#5 0x1FFFF8#21) = true := by decide

theorem test_params_default : Params.default.wf = true := by decide
theorem test_params_refuse_vector : Params.wf { Params.default with resetVector := 2#32 } = false := by
  decide
theorem test_params_refuse_region :
    Params.wf { Params.default with memMap := [⟨0x3FFFFFFFF, 2, .ram⟩] } = false := by decide
theorem test_params_refuse_rom :
    Params.wf { Params.default with romImage := [(4, 1#8), (4, 2#8)] } = false := by decide
theorem test_params_refuse_rom_zero :
    Params.wf { Params.default with romImage := [(4, 0#8)] } = false := by decide
theorem test_params_refuse_mtime : Params.wf { Params.default with mtimeAddr := 4#34 } = false := by decide
theorem test_params_refuse_mtimecmp :
    Params.wf { Params.default with mtimecmpAddr := 12#34 } = false := by decide
theorem test_params_refuse_msip : Params.wf { Params.default with msipAddr := 2#34 } = false := by decide
theorem test_params_refuse_overlap :
    Params.wf { Params.default with msipAddr := Params.default.mtimeAddr } = false := by decide
theorem test_params_refuse_overlap_timers :
    Params.wf { Params.default with mtimecmpAddr := Params.default.mtimeAddr } = false := by decide
theorem test_params_refuse_overlap_msip :
    Params.wf { Params.default with msipAddr := Params.default.mtimecmpAddr } = false := by decide
theorem test_params_refuse_no_hart : Params.wf { Params.default with nharts := 0 } = false := by decide
theorem test_params_refuse_hartid : Params.wf { Params.default with hartid := 1#32 } = false := by decide

/-! ## Decoding: words written out from the formats (V1 to V8), one for each instruction -/


theorem test_decode_lui : decode 0x12345537#32 = .ok (.lui 10#5 0x12345#20) := rfl
theorem test_decode_auipc : decode 0x00001517#32 = .ok (.auipc 10#5 1#20) := rfl
theorem test_decode_jal : decode 0xFF9FF06F#32 = .ok (.jal 0#5 0x1FFFF8#21) := rfl
theorem test_decode_jalr : decode 0x00558567#32 = .ok (.jalr 10#5 11#5 5#12) := rfl
theorem test_decode_beq : decode 0x00B50463#32 = .ok (.beq 10#5 11#5 8#13) := rfl
theorem test_decode_bne : decode 0xFE029CE3#32 = .ok (.bne 5#5 0#5 0x1FF8#13) := rfl
theorem test_decode_blt : decode 0x00B54663#32 = .ok (.blt 10#5 11#5 12#13) := rfl
theorem test_decode_bge : decode 0x00B55663#32 = .ok (.bge 10#5 11#5 12#13) := rfl
theorem test_decode_bltu : decode 0x00B56663#32 = .ok (.bltu 10#5 11#5 12#13) := rfl
theorem test_decode_bgeu : decode 0x00B57663#32 = .ok (.bgeu 10#5 11#5 12#13) := rfl
theorem test_decode_lb : decode 0x00058503#32 = .ok (.lb 10#5 11#5 0#12) := rfl
theorem test_decode_lh : decode 0x00259503#32 = .ok (.lh 10#5 11#5 2#12) := rfl
theorem test_decode_lw : decode 0x00812503#32 = .ok (.lw 10#5 2#5 8#12) := rfl
theorem test_decode_lbu : decode 0x0035C503#32 = .ok (.lbu 10#5 11#5 3#12) := rfl
theorem test_decode_lhu : decode 0xFFE5D503#32 = .ok (.lhu 10#5 11#5 0xFFE#12) := rfl
theorem test_decode_sb : decode 0x00A580A3#32 = .ok (.sb 10#5 11#5 1#12) := rfl
theorem test_decode_sh : decode 0x00A59123#32 = .ok (.sh 10#5 11#5 2#12) := rfl
theorem test_decode_sw : decode 0xFEA12E23#32 = .ok (.sw 10#5 2#5 0xFFC#12) := rfl
theorem test_decode_addi : decode 0xFFF50513#32 = .ok (.addi 10#5 10#5 0xFFF#12) := rfl
theorem test_decode_slti : decode 0xFFF5A513#32 = .ok (.slti 10#5 11#5 0xFFF#12) := rfl
theorem test_decode_sltiu : decode 0x0015B513#32 = .ok (.sltiu 10#5 11#5 1#12) := rfl
theorem test_decode_xori : decode 0xFFF5C513#32 = .ok (.xori 10#5 11#5 0xFFF#12) := rfl
theorem test_decode_ori : decode 0x0F05E513#32 = .ok (.ori 10#5 11#5 0x0F0#12) := rfl
theorem test_decode_andi : decode 0x7FF5F513#32 = .ok (.andi 10#5 11#5 0x7FF#12) := rfl
theorem test_decode_slli : decode 0x01F59513#32 = .ok (.slli 10#5 11#5 31#5) := rfl
theorem test_decode_srli : decode 0x0045D513#32 = .ok (.srli 10#5 11#5 4#5) := rfl
theorem test_decode_srai : decode 0x4045D513#32 = .ok (.srai 10#5 11#5 4#5) := rfl
theorem test_decode_add : decode 0x00C58533#32 = .ok (.add 10#5 11#5 12#5) := rfl
theorem test_decode_sub : decode 0x40C58533#32 = .ok (.sub 10#5 11#5 12#5) := rfl
theorem test_decode_sll : decode 0x00C59533#32 = .ok (.sll 10#5 11#5 12#5) := rfl
theorem test_decode_slt : decode 0x00C5A533#32 = .ok (.slt 10#5 11#5 12#5) := rfl
theorem test_decode_sltu : decode 0x00C5B533#32 = .ok (.sltu 10#5 11#5 12#5) := rfl
theorem test_decode_xor : decode 0x00C5C533#32 = .ok (.xor 10#5 11#5 12#5) := rfl
theorem test_decode_srl : decode 0x00C5D533#32 = .ok (.srl 10#5 11#5 12#5) := rfl
theorem test_decode_sra : decode 0x40C5D533#32 = .ok (.sra 10#5 11#5 12#5) := rfl
theorem test_decode_or : decode 0x00C5E533#32 = .ok (.or 10#5 11#5 12#5) := rfl
theorem test_decode_and : decode 0x00C5F533#32 = .ok (.and 10#5 11#5 12#5) := rfl
theorem test_decode_fence : decode 0x0330000F#32 = .ok (.fence 0#4 3#4 3#4 0#5 0#5) := rfl
theorem test_decode_ecall : decode 0x00000073#32 = .ok (.ecall) := rfl
theorem test_decode_ebreak : decode 0x00100073#32 = .ok (.ebreak) := rfl
theorem test_decode_csrrw : decode 0x340292F3#32 = .ok (.csrrw 5#5 0x340#12 5#5) := rfl
theorem test_decode_csrrs : decode 0x3042A373#32 = .ok (.csrrs 6#5 0x304#12 5#5) := rfl
theorem test_decode_csrrc : decode 0x3002B373#32 = .ok (.csrrc 6#5 0x300#12 5#5) := rfl
theorem test_decode_csrrwi : decode 0x340FD2F3#32 = .ok (.csrrwi 5#5 0x340#12 31#5) := rfl
theorem test_decode_csrrsi : decode 0x300462F3#32 = .ok (.csrrsi 5#5 0x300#12 8#5) := rfl
theorem test_decode_csrrci : decode 0x300472F3#32 = .ok (.csrrci 5#5 0x300#12 8#5) := rfl
theorem test_decode_uret : decode 0x00200073#32 = .ok (.uret) := rfl
theorem test_decode_sret : decode 0x10200073#32 = .ok (.sret) := rfl
theorem test_decode_mret : decode 0x30200073#32 = .ok (.mret) := rfl
theorem test_decode_wfi : decode 0x10500073#32 = .ok (.wfi) := rfl
theorem test_decode_sfence_vma : decode 0x12B50073#32 = .ok (.sfenceVma 10#5 11#5) := rfl

/-- The source's reserved patterns, compressed, atomic, multiply, float, `FENCE.I`, an unknown SYSTEM word and
a shift by 32 (V4, V6, V8, V9). -/
theorem test_decode_refuses :
    decode 0x00000000#32 = .error .reservedZero ∧ decode 0xFFFFFFFF#32 = .error .reservedOnes ∧
      decode 0x00000001#32 = .error .sixteenBit ∧ decode 0x1005252F#32 = .error .unknownOpcode ∧
      decode 0x02C58533#32 = .error .reservedFunct7 ∧ decode 0x00052007#32 = .error .unknownOpcode ∧
      decode 0x0000100F#32 = .error .reservedFunct3 ∧ decode 0x00300073#32 = .error .reservedSystem ∧
      decode 0x02059513#32 = .error .reservedFunct7 ∧ decodeBytes [0x37#8, 0#8, 0#8] = .error .truncated := by
  refine ⟨rfl, rfl, rfl, rfl, rfl, rfl, rfl, rfl, rfl, rfl⟩

/-- R187: 51 rows, no two of which a word can match together: where both masks look, the patterns differ. -/
theorem test_rows : opcodeRows.length = 51 ∧
    opcodeRows.Pairwise (fun r q => r.pattern &&& q.mask ≠ q.pattern &&& r.mask) := by decide

/-! ## One instruction on a small state -/

/-- What a state shows after an outcome that goes on. -/
def shows {α : Type} (o : Out) (f : State → α) : Option α :=
  match o with
  | .next t => some (f t)
  | .fault _ => none
  | .refused _ => none

/-- The outcome of the instruction a word stands for; a word that is none raises `IllegalInstr`. -/
def runWord (w : Word) (s : State) : Out :=
  match decode w with
  | .ok i => exec i s
  | .error _ => raiseIllegal w s

/-- After reset, at another address, with no PMP entries (the vectors' assumption). -/
def at' (pc : Word) : State :=
  { State.reset with
    cfg := { Params.default with pmpEntries := 0 }
    pc := pc }

/-- `a0` to `a2` set. -/
def regs (pc a0 a1 a2 : Word) : State :=
  (((at' pc).writeX 10#5 a0).writeX 11#5 a1).writeX 12#5 a2

/-- In mode `p` with the word `m` in `mstatus`. -/
def inMode (p : Priv) (m : Word) (pc : Word) : State :=
  { at' pc with
    priv := p
    mstatus := Mstatus.reset.write m }

/-- The same parameters with `RD_X0_ILLEGAL`. -/
def strict (s : State) : State := { s with cfg := { s.cfg with rdX0Illegal := true } }

/-- What a trap into M-mode leaves: `mepc`, `mcause`, `mtval`, `mstatus`, `priv`, `pc`. -/
def trapM (t : State) : Word × Word × Word × Word × Priv × Word :=
  (t.mepc, t.mcause, t.mtval, t.mstatus.toWord, t.priv, t.pc)

/-- What a trap into S-mode leaves. -/
def trapS (t : State) : Word × Word × Word × Word × Priv × Word :=
  (t.sepc, t.scause, t.stval, t.mstatus.toWord, t.priv, t.pc)

/-- The register and the program counter after the word on a state with `a0`, `a1`, `a2`. -/
def alu (w a0 a1 a2 : Word) : Option (Word × Word) :=
  shows (runWord w (regs 0x100#32 a0 a1 a2)) (fun t => (t.readX 10#5, t.pc))


/-! ### V1, V4, V5 -/

theorem test_lui : alu 0x12345537#32 0#32 0#32 0#32 = some (0x12345000#32, 0x104#32) := by decide
theorem test_lui_top : alu 0xFFFFF537#32 0#32 0#32 0#32 = some (0xFFFFF000#32, 0x104#32) := by decide
theorem test_auipc : alu 0x00001517#32 0#32 0#32 0#32 = some (0x00001100#32, 0x104#32) := by decide
theorem test_auipc_wraps : alu 0xFFFFF517#32 0#32 0#32 0#32 = some (0xFFFFF100#32, 0x104#32) := by decide
theorem test_addi : alu 0xFFF50513#32 0#32 0#32 0#32 = some (0xFFFFFFFF#32, 0x104#32) := by decide
theorem test_addi_no_trap : alu 0x7FF58513#32 0#32 0x7FFFFFFF#32 0#32 = some (0x800007FE#32, 0x104#32) := by decide
theorem test_slti : alu 0xFFF5A513#32 0#32 0x80000000#32 0#32 = some (1#32, 0x104#32) := by decide
theorem test_slti_equal : alu 0xFFF5A513#32 0#32 0xFFFFFFFF#32 0#32 = some (0#32, 0x104#32) := by decide
theorem test_sltiu : alu 0x0015B513#32 0#32 0#32 0#32 = some (1#32, 0x104#32) := by decide
theorem test_sltiu_sign_extends : alu 0xFFF5B513#32 0#32 0xFFFFFFFE#32 0#32 = some (1#32, 0x104#32) := by decide
theorem test_xori : alu 0xFFF5C513#32 0#32 0x0F0F0F0F#32 0#32 = some (0xF0F0F0F0#32, 0x104#32) := by decide
theorem test_ori : alu 0x0F05E513#32 0#32 0x00000F0F#32 0#32 = some (0x00000FFF#32, 0x104#32) := by decide
theorem test_andi : alu 0x7FF5F513#32 0#32 0xFFFFFFFF#32 0#32 = some (0x000007FF#32, 0x104#32) := by decide
theorem test_slli : alu 0x01F59513#32 0#32 3#32 0#32 = some (0x80000000#32, 0x104#32) := by decide
theorem test_srli : alu 0x0045D513#32 0#32 0x80000010#32 0#32 = some (0x08000001#32, 0x104#32) := by decide
theorem test_srai : alu 0x4045D513#32 0#32 0x80000010#32 0#32 = some (0xF8000001#32, 0x104#32) := by decide
theorem test_srai_full : alu 0x41F5D513#32 0#32 0x80000000#32 0#32 = some (0xFFFFFFFF#32, 0x104#32) := by decide
theorem test_add_wraps : alu 0x00C58533#32 0#32 0xFFFFFFFF#32 2#32 = some (1#32, 0x104#32) := by decide
theorem test_add_same_register : alu 0x00A50533#32 0x40000000#32 0#32 0#32 = some (0x80000000#32, 0x104#32) := by decide
theorem test_sub : alu 0x40C58533#32 0#32 0#32 1#32 = some (0xFFFFFFFF#32, 0x104#32) := by decide
theorem test_sll_five_bits : alu 0x00C59533#32 0#32 1#32 36#32 = some (0x10#32, 0x104#32) := by decide
theorem test_slt : alu 0x00C5A533#32 0#32 0xFFFFFFFF#32 1#32 = some (1#32, 0x104#32) := by decide
theorem test_sltu : alu 0x00C5B533#32 0#32 0xFFFFFFFF#32 1#32 = some (0#32, 0x104#32) := by decide
theorem test_sltu_snez : alu 0x00C03533#32 0#32 0#32 5#32 = some (1#32, 0x104#32) := by decide
theorem test_xor : alu 0x00C5C533#32 0#32 0xFF00FF00#32 0x0FF00FF0#32 = some (0xF0F0F0F0#32, 0x104#32) := by decide
theorem test_srl : alu 0x00C5D533#32 0#32 0x80000000#32 31#32 = some (1#32, 0x104#32) := by decide
theorem test_sra : alu 0x40C5D533#32 0#32 0x80000000#32 31#32 = some (0xFFFFFFFF#32, 0x104#32) := by decide
theorem test_or : alu 0x00C5E533#32 0#32 0xF0#32 0x0F#32 = some (0xFF#32, 0x104#32) := by decide
theorem test_and : alu 0x00C5F533#32 0#32 0xFF00#32 0x0FF0#32 = some (0x0F00#32, 0x104#32) := by decide

/-- R178: `lui x0, 1` and the canonical `nop`, under both values of `RD_X0_ILLEGAL`. -/
theorem test_rd_x0 :
    shows (runWord 0x00001037#32 (strict (at' 0x100#32))) trapM =
        some (0x100#32, 2#32, 0x00001037#32, 0x1800#32, .M, 0#32) ∧
      shows (runWord 0x00000013#32 (strict (at' 0x100#32))) (·.mtval) = some 0x13#32 ∧
      shows (runWord 0x00001037#32 (at' 0x100#32)) (fun t => (t.readX 0#5, t.pc, t.mcause)) =
        some (0#32, 0x104#32, 0#32) := by decide

/-! ### V2 -/


theorem test_jal : shows (runWord 0x010000EF#32 (at' 0x80000000#32)) (fun t => (t.readX 1#5, t.pc)) =
    some (0x80000004#32, 0x80000010#32) := by decide
theorem test_jal_misaligned :
    shows (runWord 0x006000EF#32 ((at' 0x80000000#32).writeX 1#5 7#32))
        (fun t => (t.mepc, t.mcause, t.mtval, t.readX 1#5)) =
      some (0x80000000#32, 0#32, 0x80000006#32, 7#32) := by decide
theorem test_jalr_clears_bit :
    shows (runWord 0x00558567#32 (regs 0x80000020#32 0#32 0x80000100#32 0#32))
        (fun t => (t.readX 10#5, t.pc)) = some (0x80000024#32, 0x80000104#32) := by decide
theorem test_jalr_same_register :
    shows (runWord 0x000080E7#32 ((at' 0x100#32).writeX 1#5 0x200#32))
        (fun t => (t.readX 1#5, t.pc)) = some (0x104#32, 0x200#32) := by decide
theorem test_beq_misaligned : shows (runWord 0x00000363#32 (at' 0x100#32))
    (fun t => (t.mepc, t.mcause, t.mtval)) = some (0x100#32, 0#32, 0x106#32) := by decide
theorem test_bne_not_taken_misaligned :
    shows (runWord 0x00A51363#32 (at' 0x100#32)) (·.pc) = some 0x104#32 := by decide
theorem test_beq_taken : shows (runWord 0x00B50463#32 (regs 0x100#32 7#32 7#32 0#32)) (·.pc) = some 0x108#32 := by decide
theorem test_bne_not_taken : shows (runWord 0x00B51463#32 (regs 0x100#32 7#32 7#32 0#32)) (·.pc) = some 0x104#32 := by decide
theorem test_blt_signed : shows (runWord 0x00B54663#32 (regs 0x100#32 0xFFFFFFFF#32 0#32 0#32)) (·.pc) = some 0x10C#32 := by decide
theorem test_blt_not_taken : shows (runWord 0x00B54663#32 (regs 0x100#32 0x7FFFFFFF#32 0x80000000#32 0#32)) (·.pc) = some 0x104#32 := by decide
theorem test_bge_equal : shows (runWord 0x00B55663#32 (regs 0x100#32 5#32 5#32 0#32)) (·.pc) = some 0x10C#32 := by decide
theorem test_bltu : shows (runWord 0x00B56663#32 (regs 0x100#32 0#32 0xFFFFFFFF#32 0#32)) (·.pc) = some 0x10C#32 := by decide
theorem test_bltu_not_taken : shows (runWord 0x00B56663#32 (regs 0x100#32 0xFFFFFFFF#32 0#32 0#32)) (·.pc) = some 0x104#32 := by decide
theorem test_bgeu : shows (runWord 0x00B57663#32 (regs 0x100#32 0x80000000#32 0x7FFFFFFF#32 0#32)) (·.pc) = some 0x10C#32 := by decide

/-! ### V3 -/

/-- The vectors' memory: the word `0x81828384` at `0x1000`. -/
def loadable (a0 a1 : Word) : State :=
  { regs 0x100#32 a0 a1 0#32 with
    mem := [(0x1000, 0x84#8), (0x1001, 0x83#8), (0x1002, 0x82#8), (0x1003, 0x81#8)] }

/-- `a0` after a load. -/
def loaded (w a0 a1 : Word) : Option Word := shows (runWord w (loadable a0 a1)) (·.readX 10#5)

theorem test_lb : loaded 0x00058503#32 0#32 0x1000#32 = some 0xFFFFFF84#32 := by decide
theorem test_lbu : loaded 0x0035C503#32 0#32 0x1000#32 = some 0x81#32 := by decide
theorem test_lh : loaded 0x00259503#32 0#32 0x1000#32 = some 0xFFFF8182#32 := by decide
theorem test_lhu : loaded 0xFFE5D503#32 0#32 0x1004#32 = some 0x8182#32 := by decide
theorem test_lw_same_register : loaded 0x00052503#32 0x1000#32 0#32 = some 0x81828384#32 := by decide
theorem test_lh_misaligned : shows (runWord 0x00259503#32 (loadable 9#32 0x1001#32))
    (fun t => (t.mcause, t.mtval, t.readX 10#5)) = some (4#32, 0x1003#32, 9#32) := by decide
theorem test_lw_vacant : shows (runWord 0x0005A503#32 (loadable 9#32 0#32))
    (fun t => (t.mcause, t.mtval, t.readX 10#5)) = some (5#32, 0#32, 9#32) := by decide
theorem test_lw_x0 :
    shows (runWord 0x0015A003#32 (strict (loadable 0#32 0x1000#32))) (fun t => (t.mcause, t.mtval)) =
        some (2#32, 0x0015A003#32) ∧
      shows (runWord 0x0015A003#32 (loadable 0#32 0x1000#32)) (fun t => (t.mcause, t.mtval)) =
        some (4#32, 0x1001#32) := by decide
theorem test_sb : shows (runWord 0x00A580A3#32 (regs 0x100#32 0x12345678#32 0x1000#32 0#32))
    (fun t => (t.mem, t.stored)) = some ([(0x1001, 0x78#8)], [0x1001]) := by decide
theorem test_sh : shows (runWord 0x00A59123#32 (regs 0x100#32 0x12345678#32 0x1000#32 0#32)) (·.mem) =
    some [(0x1002, 0x78#8), (0x1003, 0x56#8)] := by decide
theorem test_sw :
    shows (runWord 0xFEA12E23#32 ((regs 0x100#32 0x11223344#32 0#32 0#32).writeX 2#5 0x2010#32)) (·.mem) =
      some [(0x200C, 0x44#8), (0x200D, 0x33#8), (0x200E, 0x22#8), (0x200F, 0x11#8)] := by decide
theorem test_sw_misaligned :
    shows (runWord 0xFEA12E23#32 ((regs 0x100#32 0x11223344#32 0#32 0#32).writeX 2#5 0x2012#32))
      (fun t => (t.mcause, t.mtval, t.mem)) = some (6#32, 0x200E#32, []) := by decide
/-- A byte written back to zero leaves the list (the canonical form). -/
theorem test_memory_canonical : Memory.write (Memory.write [] 5 1#8) 5 0#8 = [] := by decide

/-! ### V6, V10 -/

theorem test_ecall_M :
    shows (runWord 0x73#32 { inMode .M 8#32 0x80000040#32 with mtvec := ⟨0x20000040#30, false⟩ }) trapM =
      some (0x80000040#32, 11#32, 0#32, 0x1880#32, .M, 0x80000100#32) := by decide
theorem test_ecall_delegated :
    shows (runWord 0x73#32
        { inMode .U 2#32 0x10010#32 with
          medeleg := 0x100#32
          stvec := ⟨0x20000400#30, false⟩ }) trapS =
      some (0x10010#32, 8#32, 0#32, 0x20#32, .S, 0x80001000#32) := by decide
theorem test_ebreak_to_user :
    shows (runWord 0x00100073#32
        { inMode .U 1#32 0x10020#32 with
          medeleg := 8#32
          sedeleg := 8#32
          utvec := ⟨0x4400#30, false⟩ })
        (fun t => (t.uepc, t.ucause, t.utval, t.mstatus.toWord, t.priv, t.pc)) =
      some (0x10020#32, 3#32, 0#32, 0x10#32, .U, 0x11000#32) := by decide
theorem test_ebreak_in_M_not_delegated :
    shows (runWord 0x00100073#32 { inMode .M 0#32 0x80000200#32 with medeleg := 0xB3FF#32 }) trapM =
      some (0x80000200#32, 3#32, 0#32, 0x1800#32, .M, 0#32) := by decide
theorem test_mul_delegated_from_S :
    shows (runWord 0x02C58533#32
        { inMode .S 2#32 0x80002000#32 with
          medeleg := 4#32
          stvec := ⟨0x20000400#30, false⟩ }) trapS =
      some (0x80002000#32, 2#32, 0x02C58533#32, 0x120#32, .S, 0x80001000#32) := by decide
theorem test_exceptions_ignore_vectoring :
    shows (runWord 0x0005A503#32
        { ((inMode .U 8#32 0x10008#32).writeX 11#5 0x10002#32) with mtvec := ⟨0x20000040#30, true⟩ })
        trapM =
      some (0x10008#32, 4#32, 0x10002#32, 0x80#32, .M, 0x80000100#32) := by decide

/-! ### V7 -/

/-- `t0` or `t1` and a CSR after the word, in M-mode. -/
def csrAfter (w : Word) (s : State) (r : Reg) (c : Csr) : Option (Word × Word) :=
  shows (runWord w s) (fun t => (t.readX r, csrRead t c))

theorem test_csrrw_swaps :
    csrAfter 0x340292F3#32 { (at' 0x100#32).writeX 5#5 0x1111#32 with mscratch := 0x2222#32 } 5#5 .mscratch =
      some (0x2222#32, 0x1111#32) := by decide
theorem test_csrrw_reserved_mode :
    csrAfter 0x30529073#32
        { (at' 0x100#32).writeX 5#5 0x80000102#32 with mtvec := ⟨0x20000040#30, false⟩ } 0#5 .mtvec =
      some (0#32, 0x80000100#32) := by decide
theorem test_csrrs_masked : csrAfter 0x3042A373#32 ((at' 0x100#32).writeX 5#5 0xFFFFFFFF#32) 6#5 .mie =
    some (0#32, 0xBBB#32) := by decide
theorem test_csrrs_mip_line :
    shows (runWord 0x3442A373#32 { (at' 0x100#32).writeX 5#5 2#32 with seipLine := true })
        (fun t => ((t.readX 6#5).getLsbD 9, t.mipSw)) = some (true, 2#32) := by decide
theorem test_csrrc : csrAfter 0x3002B373#32 ((inMode .M 0x1888#32 0x100#32).writeX 5#5 8#32) 6#5 .mstatus =
    some (0x1888#32, 0x1880#32) := by decide
theorem test_csrrwi : csrAfter 0x340FD2F3#32 { at' 0x100#32 with mscratch := 5#32 } 5#5 .mscratch =
    some (5#32, 31#32) := by decide
theorem test_csrrsi : csrAfter 0x300462F3#32 (inMode .M 0x1880#32 0x100#32) 5#5 .mstatus =
    some (0x1880#32, 0x1888#32) := by decide
theorem test_csrrci : csrAfter 0x300472F3#32 (inMode .M 0x1888#32 0x100#32) 5#5 .mstatus =
    some (0x1888#32, 0x1880#32) := by decide
theorem test_mpp_keeps_reserved :
    csrAfter 0x300312F3#32 ((inMode .M 0x88#32 0x100#32).writeX 6#5 0x1000#32) 5#5 .mstatus =
      some (0x88#32, 0#32) := by decide
theorem test_mepc_drops_low_bits :
    csrAfter 0x341312F3#32 ((at' 0x100#32).writeX 6#5 0x80000007#32) 5#5 .mepc =
      some (0#32, 0x80000004#32) := by decide
theorem test_sstatus_view : csrAfter 0x10002373#32 (inMode .M 0x000C19BB#32 0x100#32) 6#5 .sstatus =
    some (0x000C0133#32, 0x000C0133#32) := by decide
/-- A word raises `IllegalInstr`, with the word as value. -/
def illegal (w : Word) (s : State) : Bool :=
  decide (shows (runWord w s) (fun t => (t.mcause, t.mtval)) = some (2#32, w))

theorem test_csr_illegal :
    illegal 0xC0002373#32 (inMode .U 0#32 0x100#32) = true ∧
      illegal 0xC0002373#32 { inMode .U 0#32 0x100#32 with mcounteren := 1#32 } = true ∧
      illegal 0xC0002373#32 { inMode .S 0#32 0x100#32 with mcounteren := 1#32 } = false ∧
      illegal 0xC0001073#32 (at' 0x100#32) = true ∧ illegal 0x30002373#32 (inMode .S 0#32 0x100#32) = true ∧
      illegal 0x7B002373#32 (at' 0x100#32) = true ∧ illegal 0x7C002373#32 (at' 0x100#32) = true ∧
      illegal 0x18002373#32 (inMode .S 0x100000#32 0x100#32) = true ∧
      illegal 0x18002373#32 (inMode .S 0#32 0x100#32) = false ∧
      illegal 0x3A002373#32 (at' 0x100#32) = true ∧
      illegal 0x30002073#32 (strict (at' 0x100#32)) = true ∧
      illegal 0x30002073#32 (at' 0x100#32) = false := by decide
/-- R70: an instruction that writes `minstret` does not increment it; any other does. -/
theorem test_minstret :
    shows (runWord 0xB0229073#32 ((at' 0x100#32).writeX 5#5 7#32)) (·.minstret) = some 7#64 ∧
      shows (runWord 0x34029073#32 ((at' 0x100#32).writeX 5#5 7#32)) (·.minstret) = some 1#64 := by decide

/-! ### V8 -/

theorem test_mret : shows (runWord 0x30200073#32 { inMode .M 0x880#32 0x100#32 with mepc := 0x80000044#32 })
    (fun t => (t.pc, t.priv, t.mstatus.toWord)) = some (0x80000044#32, .S, 0x88#32) := by decide
theorem test_mret_illegal : illegal 0x30200073#32 (inMode .S 0#32 0x100#32) = true := by decide
theorem test_sret : shows (runWord 0x10200073#32 { inMode .S 0x20#32 0x100#32 with sepc := 0x10000#32 })
    (fun t => (t.pc, t.priv, t.mstatus.toWord)) = some (0x10000#32, .U, 0x22#32) := by decide
theorem test_sret_tsr :
    illegal 0x10200073#32 (inMode .S 0x00400120#32 0x100#32) = true ∧
      shows (runWord 0x10200073#32 (inMode .M 0x00400120#32 0x100#32))
        (fun t => (t.priv, t.mstatus.toWord)) = some (.S, 0x00400022#32) := by decide
theorem test_uret : shows (runWord 0x00200073#32 { inMode .U 0x10#32 0x100#32 with uepc := 0x10040#32 })
    (fun t => (t.pc, t.priv, t.mstatus.toWord)) = some (0x10040#32, .U, 0x11#32) := by decide
theorem test_wfi : shows (runWord 0x10500073#32 (inMode .M 8#32 0x80000020#32))
    (fun t => (t.pc, t.wfiStalled, t.minstret)) = some (0x80000024#32, true, 1#64) := by decide
theorem test_wfi_tw : illegal 0x10500073#32 (inMode .S 0x00200000#32 0x100#32) = true := by decide
theorem test_sfence : shows (runWord 0x12000073#32 (inMode .S 0#32 0x100#32)) (·.pc) = some 0x104#32 ∧
    illegal 0x12B50073#32 (inMode .S 0x100000#32 0x100#32) = true ∧
    illegal 0x12000073#32 (inMode .U 0#32 0x100#32) = true := by decide
theorem test_fence : shows (runWord 0x0FF0000F#32 (inMode .U 0#32 0x100#32)) (fun t => (t.pc, t.minstret)) =
    some (0x104#32, 1#64) := by decide

/-! ### V11 and R511 -/

/-- A hart in mode `p` with `mstatus`, `mie`, the software bits of `mip` and a timer that has expired. -/
def pending (p : Priv) (m mie sw : Word) : State :=
  { inMode p m 0x100#32 with
    mie := mie
    mipSw := sw
    mtvec := ⟨0x20000040#30, true⟩
    stvec := ⟨0x20000400#30, true⟩
    utvec := ⟨0x4400#30, true⟩ }

/-- What taking an interrupt leaves, if the hart takes one. -/
def taken {α : Type} (s : State) (f : State → α) : Option α :=
  (interruptTaken s).map (fun i => f (takeInterrupt i s))

theorem test_interrupt_M : taken (pending .M 8#32 0x80#32 0#32) trapM =
    some (0x100#32, 0x80000007#32, 0#32, 0x1880#32, .M, 0x8000011C#32) := by decide
theorem test_interrupt_disabled : interruptTaken (pending .M 0#32 0x80#32 0#32) = none ∧
    interruptTaken (pending .U 0#32 0#32 0x333#32) = none := by decide
theorem test_interrupt_S :
    taken { pending .S 2#32 0x222#32 0x20#32 with mideleg := 0x222#32 } trapS =
      some (0x100#32, 0x80000005#32, 0#32, 0x120#32, .S, 0x80001014#32) := by decide
theorem test_interrupt_S_from_U :
    taken { pending .U 0#32 0x222#32 0x20#32 with mideleg := 0x222#32 } trapS =
      some (0x100#32, 0x80000005#32, 0#32, 0#32, .S, 0x80001014#32) := by decide
theorem test_interrupt_S_not_taken :
    interruptTaken { pending .S 0#32 0x222#32 0x20#32 with mideleg := 0x222#32 } = none ∧
      interruptTaken { pending .M 0xA#32 0x222#32 2#32 with mideleg := 0x222#32 } = none := by decide
theorem test_interrupt_U :
    taken { pending .U 1#32 1#32 1#32 with mideleg := 0x111#32, sideleg := 0x111#32 }
        (fun t => (t.uepc, t.ucause, t.mstatus.toWord, t.priv, t.pc)) =
      some (0x100#32, 0x80000000#32, 0x10#32, .U, 0x11000#32) := by decide
theorem test_interrupt_order :
    interruptTaken { pending .M 8#32 0xAAA#32 0x222#32 with meipLine := true, msipBit := true } =
        some .machineExternal ∧
      interruptTaken { pending .M 8#32 0xAAA#32 0x222#32 with msipBit := true } = some .machineSoftware ∧
      interruptTaken { pending .U 0#32 0x202#32 0x202#32 with mideleg := 0x200#32 } =
        some .supervisorSoftware := by decide
theorem test_timer_comparison :
    mipBit { at' 0#32 with mtime := 0x100000000#64, mtimecmp := 0xFFFFFFFF#64 } .machineTimer = true ∧
      mipBit { at' 0#32 with mtime := 5#64, mtimecmp := 5#64 } .machineTimer = true ∧
      mipBit { at' 0#32 with mtime := 4#64, mtimecmp := 5#64 } .machineTimer = false := by decide
theorem test_store_to_msip :
    shows (runWord 0x00A5A023#32 (regs 0x100#32 1#32 0x02000000#32 0#32)) (mipBit · .machineSoftware) =
      some true := by decide
theorem test_store_to_mtimecmp :
    shows (runWord 0x00A5A223#32 (regs 0x100#32 0xFFFFFFFF#32 0x02004000#32 0#32)) (·.mtimecmp) =
      some 0xFFFFFFFF00000000#64 := by decide

/-! ### V12 -/

/-- Two PMP entries, with these configuration bytes and address registers. -/
def guarded (c a0 a1 : Word) : State :=
  ({ at' 0x100#32 with
      cfg := { Params.default with pmpEntries := 2 }
      pmpaddr := ((Vector.replicate 16 0#32).set 0 a0).set 1 a1 }).writePmpCfgWord 0 c

theorem test_pmp_napot :
    pmpOk (guarded 0x1D#32 0x20000FFF#32 0#32) 0x80004000#34 .load .U = true ∧
      pmpOk (guarded 0x1D#32 0x20000FFF#32 0#32) 0x80004000#34 .store .U = false ∧
      pmpOk (guarded 0x1D#32 0x20000FFF#32 0#32) 0x80004000#34 .store .M = true ∧
      pmpOk (guarded 0x9D#32 0x20000FFF#32 0#32) 0x80004000#34 .store .M = false ∧
      pmpOk (guarded 0x1D#32 0x20000FFF#32 0#32) 0x80008000#34 .load .U = false ∧
      pmpOk (guarded 0x1D#32 0x20000FFF#32 0#32) 0x80008000#34 .load .M = true ∧
      pmpOk (guarded 0x1F#32 0xFFFFFFFF#32 0#32) 0x3FFFFFFFF#34 .store .U = true := by decide
theorem test_pmp_tor_na4 :
    pmpOk (guarded 0xF00#32 0x20000000#32 0x20000400#32) 0x80000FFC#34 .fetch .U = true ∧
      pmpOk (guarded 0xF00#32 0x20000000#32 0x20000400#32) 0x80001000#34 .fetch .U = false ∧
      pmpOk (guarded 0x11#32 0x20000400#32 0#32) 0x80001000#34 .load .U = true ∧
      pmpOk (guarded 0x11#32 0x20000400#32 0#32) 0x80001004#34 .load .U = false := by decide
theorem test_pmp_locked :
    csrRead (csrWrite 0#32 (guarded 0x9D#32 0x20000FFF#32 7#32) (.pmpcfg 0)) (.pmpcfg 0) = 0x9D#32 ∧
      csrRead (csrWrite 0#32 (guarded 0x9D#32 0x20000FFF#32 7#32) (.pmpaddr 0)) (.pmpaddr 0) =
        0x20000FFF#32 ∧
      csrRead (csrWrite 9#32 (guarded 0x9D#32 0x20000FFF#32 7#32) (.pmpaddr 1)) (.pmpaddr 1) = 9#32 ∧
      csrRead (csrWrite 9#32 (guarded 0x8F00#32 5#32 7#32) (.pmpaddr 0)) (.pmpaddr 0) = 5#32 := by decide

/-! ### V13 -/

/-- Four bytes of a word at an address. -/
def wordAt (a : Nat) (v : Word) (m : Memory) : Memory :=
  (((m.write a (v.extractLsb' 0 8)).write (a + 1) (v.extractLsb' 8 8)).write (a + 2)
    (v.extractLsb' 16 8)).write (a + 3) (v.extractLsb' 24 8)

/-- The vectors' page tables: a root entry at `0x80002004`, a second-level entry at `0x80003004`. -/
def paged (p : Priv) (m pte1 pte0 : Word) : State :=
  { inMode p m 0x100#32 with
    satp := 0x80080002#32
    mem := wordAt 0x80003004 pte0 (wordAt 0x80002004 pte1 []) }

/-- The physical address of `0x00401234`, or the code of the exception it raises. -/
def walked (s : State) (acc : Access) : PAddr ⊕ Nat :=
  match physicalAddress s acc 0x00401234#32 with
  | .ok pa => .inl pa
  | .error e => .inr e.exc.code

theorem test_sv32_leaf :
    walked (paged .U 0#32 0x20000C01#32 0x200010DF#32) .load = .inl 0x80004234#34 ∧
      walked (paged .U 0#32 0x20000C01#32 0x2000105F#32) .store = .inr 15 ∧
      walked (paged .U 0#32 0x20000C01#32 0x2000109F#32) .load = .inr 13 ∧
      walked (paged .U 0#32 0x20000C01#32 0x200010CF#32) .load = .inr 13 ∧
      walked (paged .S 0#32 0x20000C01#32 0x200010DF#32) .load = .inr 13 ∧
      walked (paged .S 0x40000#32 0x20000C01#32 0x200010DF#32) .load = .inl 0x80004234#34 ∧
      walked (paged .S 0x40000#32 0x20000C01#32 0x200010DF#32) .fetch = .inr 12 := by decide
theorem test_sv32_execute_only :
    walked (paged .U 0#32 0x20000C01#32 0x200010D9#32) .load = .inr 13 ∧
      walked (paged .U 0x80000#32 0x20000C01#32 0x200010D9#32) .load = .inl 0x80004234#34 ∧
      walked (paged .U 0#32 0x20000C01#32 0x200010D5#32) .load = .inr 13 ∧
      walked (paged .U 0#32 0x20000C01#32 0x200010D0#32) .fetch = .inr 12 ∧
      walked (paged .U 0#32 0x20000C01#32 0x20001401#32) .store = .inr 15 := by decide
theorem test_sv32_megapage :
    walked (paged .U 0#32 0x201000DF#32 0#32) .load = .inl 0x80401234#34 ∧
      walked (paged .U 0#32 0x201004DF#32 0#32) .load = .inr 13 ∧
      walked (paged .M 0#32 0x20000C01#32 0x200010DF#32) .load = .inl 0x00401234#34 ∧
      walked (paged .M 0x20000#32 0x20000C01#32 0x200010DF#32) .load = .inl 0x80004234#34 ∧
      walked (paged .M 0x20000#32 0x20000C01#32 0x200010DF#32) .fetch = .inl 0x00401234#34 := by decide
/-- R137: with PMP denying S-mode reads of the root table. -/
theorem test_sv32_pmp :
    walked { paged .U 0#32 0x20000C01#32 0x200010DF#32 with cfg := Params.default } .load = .inr 5 := by
  decide

/-! ## One step -/

/-- An input in which nothing happens but one tick of each counter. -/
def quiet : StepInput := ⟨⟨false, false, none, 1, 0, false⟩, []⟩

/-- The first instruction of program P1, `addi a0, x0, 0`, then `addi a1, x0, 5`, as loaded. -/
def loadedProgram : State :=
  { State.reset with
    inputs := [quiet, quiet]
    mem := wordAt 0x80000004 0x00500593#32 (wordAt 0x80000000 0x00000513#32 []) }

theorem test_step_runs : shows (step loadedProgram) (fun t => (t.pc, t.minstret, t.mcycle, t.mtime, t.tick)) =
    some (0x80000004#32, 1#64, 1#64, 1#64, 1) := by decide
theorem test_withFetchWord :
    shows (step (State.reset.withFetchWord 32 0x12345537)) (fun t => (t.readX 10#5, t.pc)) =
      some (0x12345000#32, 0x80000004#32) := by decide
theorem test_decodeTableWord : decodeTableWord 32 0x00B50463 = some (.beq 10#5 11#5 8#13) := by decide
/-- R148: a word one of whose bytes was stored to is not fetched. -/
theorem test_step_refuses : step { loadedProgram with stored := [0x80000002] } =
    .refused .fetchOfStoredBytes := rfl
/-- R176: an address that nothing was loaded at holds the reserved word of zeros. -/
theorem test_step_illegal : shows (step State.reset) (fun t => (t.mcause, t.mepc, t.mtval, t.pc)) =
    some (2#32, 0x80000000#32, 0#32, 0#32) := by decide
/-- R432: a handler at a vacant address faults at itself. -/
theorem test_step_handler_vacant : shows (step { State.reset with pc := 0#32 })
    (fun t => (t.mcause, t.mepc, t.mtval, t.pc)) = some (1#32, 0#32, 0#32, 0#32) := by decide
/-- R324: a stalled hart wakes for an interrupt that it does not take, and runs the next instruction. -/
theorem test_step_wakes :
    shows (step { loadedProgram with wfiStalled := true, mie := 0x80#32 }) (fun t => (t.pc, t.wfiStalled)) =
      some (0x80000004#32, false) := by decide
/-- R324: a stalled hart with nothing pending stays; its counters advance. -/
theorem test_step_stalled :
    shows (step { loadedProgram with wfiStalled := true }) (fun t => (t.pc, t.wfiStalled, t.mcycle)) =
      some (0x80000000#32, true, 1#64) := by decide

/-! ## Witnesses: for each statement with hypotheses, states and operands that meet them -/

/-- The state with a word loaded where it fetches. -/
def placed (w : Word) : State := loadAtFetch { State.reset with inputs := [quiet] } w

/-- What a resolution gives: the physical address, or the code of the exception and its value. -/
def resolved (s : State) (acc : Access) (w : Width) (va : Word) : PAddr ⊕ (Nat × Word) :=
  match resolve s acc w va with
  | .ok pa => .inl pa
  | .error e => .inr (e.exc.code, e.tval)

/-- What the read of a page-table entry gives. -/
def entryRead (s : State) (va : Word) (acc : Access) (level : Nat) (ppn : BitVec 22) :
    Word ⊕ (Nat × Word) :=
  match readPte s va acc level ppn with
  | .ok pte => .inl pte
  | .error e => .inr (e.exc.code, e.tval)

theorem witness_DecodeEncode : Instr.wf (.jal 31#5 0x0FFFFE#21) = true ∧
    Instr.wf (.beq 31#5 31#5 0x1000#13) = true ∧ Instr.wf (.csrrci 31#5 0xFFF#12 31#5) = true := by decide
theorem witness_EncodeDecode : decode 0xFE029CE3#32 = .ok (.bne 5#5 0#5 0x1FF8#13) := rfl
theorem witness_DecodesByTable : ∃ r ∈ opcodeRows, r.matchesWord 0x12B50073#32 = true ∧
    r.mnemonic = "SFENCE.VMA" := by decide

theorem witness_ReservedPatternsIllegal :
    fetch (placed 0xABCD0000#32) = .word 0xABCD0000#32 ∧
      (0xABCD0000#32).extractLsb' 0 16 = 0#16 ∧
      fetch (placed 0xFFFFFFFF#32) = .word 0xFFFFFFFF#32 ∧
      fetch (placed 0x80000002#32) = .word 0x80000002#32 ∧
      (0x80000002#32).extractLsb' 0 2 ≠ 0b11#2 := by decide
theorem witness_UnlistedWordsIllegal :
    fetch (placed 0x02C58533#32) = .word 0x02C58533#32 ∧
      (∀ r ∈ opcodeRows, r.matchesWord 0x02C58533#32 = false) ∧
      (0x02C58533#32).extractLsb' 0 7 = 0b0110011#7 ∧ (0x02C58533#32).extractLsb' 25 7 = 0b0000001#7 := by
  decide
theorem witness_UnlistedWordsIllegal_lists :
    (0x0000100F#32).extractLsb' 0 7 = 0b0001111#7 ∧ (0x0000100F#32).extractLsb' 12 3 = 0b001#3 ∧
      (0x1005252F#32).extractLsb' 0 7 = 0b0101111#7 ∧ (0x0000007B#32).extractLsb' 0 7 = 0b1111011#7 ∧
      (0x0000001B#32).extractLsb' 0 7 ∉ [0b0110111#7, 0b0010111#7, 0b1101111#7, 0b1100111#7, 0b1100011#7,
        0b0000011#7, 0b0100011#7, 0b0010011#7, 0b0110011#7, 0b0001111#7, 0b1110011#7] := by
  decide

/-- The hart of `loadedProgram`, stalled, with the timer interrupt pending and enabled but not taken. -/
def woken : State := { loadedProgram with wfiStalled := true, mie := 0x80#32 }

/-- A hart that is not stalled runs, one that is stalled runs for `mip & mie` or spuriously. -/
theorem witness_runs : loadedProgram.runs ∧ woken.runs ∧
    State.runs { woken with mie := 0#32, inputs := [⟨{ quiet.env with wake := true }, []⟩] } :=
  ⟨.inl rfl, .inr (.inl (by decide)), .inr (.inr rfl)⟩
theorem witness_StepRunsDecoded :
    interruptTaken (awake loadedProgram) = none ∧
      resolve (awake loadedProgram) .fetch .word loadedProgram.pc = .ok 0x80000000#34 ∧
      storedTo (awake loadedProgram) .word 0x80000000#34 = false ∧
      decodeBytes
        [physReadByte (awake loadedProgram) (.access .fetch) 0x80000000,
          physReadByte (awake loadedProgram) (.access .fetch) 0x80000001,
          physReadByte (awake loadedProgram) (.access .fetch) 0x80000002,
          physReadByte (awake loadedProgram) (.access .fetch) 0x80000003] = .ok (.addi 10#5 0#5 0#12) :=
  ⟨rfl, rfl, rfl, rfl⟩
/-- The same of the hart that wakes; and a word that is no instruction. -/
theorem witness_StepRunsDecoded_woken :
    interruptTaken (awake woken) = none ∧
      resolve (awake woken) .fetch .word woken.pc = .ok 0x80000000#34 ∧
      storedTo (awake woken) .word 0x80000000#34 = false ∧
      physRead (awake woken) (.access .fetch) .word 0x80000000#34 = 0x00000513#32 ∧
      decodeBytes
        [physReadByte (awake (placed 0#32)) (.access .fetch) 0x80000000,
          physReadByte (awake (placed 0#32)) (.access .fetch) 0x80000001,
          physReadByte (awake (placed 0#32)) (.access .fetch) 0x80000002,
          physReadByte (awake (placed 0#32)) (.access .fetch) 0x80000003] = .error .reservedZero :=
  ⟨rfl, rfl, rfl, rfl, rfl⟩

/-- `loadedProgram` where another agent writes a byte of main memory twice, one of `mtimecmp`, one of `msip`
and one of a vacant address. -/
def visited : State :=
  { loadedProgram with
    inputs := [⟨quiet.env, [(0x80000000#34, 9#8), (0x02004007#34, 5#8), (0x80000000#34, 1#8),
      (0x02000000#34, 1#8), (0#34, 7#8)]⟩] }

theorem witness_PlatformEffect :
    (nextInput loadedProgram).writes = [] ∧ visited.memoryCanonical = true ∧
      (nextInput visited).writes = [(0x80000000#34, 9#8), (0x02004007#34, 5#8)] ++
        (0x80000000#34, 1#8) :: [(0x02000000#34, 1#8), (0#34, 7#8)] ∧
      (placeOf visited.cfg 0x80000000).storesBytes = true ∧
      (placeOf visited.cfg 0x02004007).storesBytes = true ∧ placeOf visited.cfg 0x02000000 = .msip 0 ∧
      placeOf visited.cfg 0 = .vacant := ⟨rfl, rfl, rfl, rfl, rfl, rfl, rfl⟩
theorem witness_PlatformEffect_result :
    (platform visited).mem.read 0x80000000 = 1#8 ∧ (platform visited).mtimecmp = 0x0500000000000000#64 ∧
      (platform visited).msipBit = true ∧
      (platform visited).stored = [0x02000000, 0x02004007, 0x80000000] := by decide
theorem witness_FetchExceptions_vacant :
    resolve (awake { loadedProgram with pc := 0x0FFC#32 }) .fetch .word 0x0FFC#32 =
        .error ⟨.instrAccessFault, 0x0FFC#32⟩ ∧
      interruptTaken (awake { loadedProgram with pc := 0x0FFC#32 }) = none ∧
      State.runs { loadedProgram with pc := 0x0FFC#32 } := ⟨rfl, rfl, .inl rfl⟩
theorem witness_FetchExceptions_page :
    resolve (awake { paged .S 0#32 0#32 0#32 with inputs := [quiet] }) .fetch .word 0x100#32 =
        .error ⟨.instrPageFault, 0x100#32⟩ ∧
      interruptTaken (awake { paged .S 0#32 0#32 0#32 with inputs := [quiet] }) = none ∧
      State.runs { paged .S 0#32 0#32 0#32 with inputs := [quiet] } := ⟨rfl, rfl, .inl rfl⟩
/-- The stored byte is the last of the word, and the byte after the word does not count; a hart that wakes is
refused too. -/
theorem witness_StepOutcomes :
    step { loadedProgram with stored := [0x80000003] } = .refused .fetchOfStoredBytes ∧
      step { woken with stored := [0x80000003] } = .refused .fetchOfStoredBytes ∧
      Out.goesOn (step { loadedProgram with stored := [0x80000004] }) = true := ⟨rfl, rfl, rfl⟩
/-- A fetch from `msip` and from `mtimecmp`: refused once another hart has stored to the one, or a store has
marked the other. -/
theorem witness_StepOutcomes_clint :
    step { loadedProgram with
        pc := 0x02000000#32
        inputs := [⟨{ quiet.env with msip := some true }, []⟩] } = .refused .fetchOfStoredBytes ∧
      step { loadedProgram with
        pc := 0x02004004#32
        inputs := [⟨quiet.env, [(0x02004007#34, 5#8)]⟩] } = .refused .fetchOfStoredBytes ∧
      Out.goesOn (step { loadedProgram with pc := 0x02000000#32 }) = true := ⟨rfl, rfl, rfl⟩
theorem witness_StalledStep_waits :
    mipWord (platform { loadedProgram with wfiStalled := true }) &&&
        csrRead (platform { loadedProgram with wfiStalled := true }) .mie = 0#32 ∧
      (nextInput { loadedProgram with wfiStalled := true }).env.wake = false := by decide
theorem witness_StalledStep_wakes :
    mipWord (platform { loadedProgram with wfiStalled := true, mie := 0x80#32 }) &&&
        csrRead (platform { loadedProgram with wfiStalled := true, mie := 0x80#32 }) .mie ≠ 0#32 ∧
      (nextInput { loadedProgram with
        wfiStalled := true
        inputs := [⟨{ quiet.env with wake := true }, []⟩] }).env.wake = true := by decide

theorem witness_RdX0Illegal : (strict (at' 0x100#32)).cfg.rdX0Illegal = true ∧
    setsX0 (.lui 0#5 1#20) = true ∧ setsX0 (.and 0#5 1#5 2#5) = true ∧
    setsX0 (.csrrci 0#5 0x300#12 1#5) = true ∧ setsX0 (.lw 0#5 1#5 0#12) = true := by decide
/-- The hypothesis of the statements about results: `x31` under `RD_X0_ILLEGAL`, `x0` without it. -/
theorem witness_rd : rdX0Trap (strict (at' 0x100#32)) 31#5 = false ∧ rdX0Trap (at' 0x100#32) 0#5 = false := by
  decide
theorem witness_Jumps :
    ((at' 0x100#32).pc + (0x1FFFFC#21).signExtend 32).extractLsb' 0 2 = 0#2 ∧
      ((at' 0x100#32).pc + (0x1FFFFE#21).signExtend 32).extractLsb' 0 2 ≠ 0#2 ∧
      (((at' 0x100#32).readX 1#5 + (1#12).signExtend 32) &&& 0xFFFFFFFE#32).extractLsb' 0 2 = 0#2 ∧
      (((at' 0x100#32).readX 1#5 + (0xFFF#12).signExtend 32) &&& 0xFFFFFFFE#32).extractLsb' 0 2 ≠ 0#2 := by
  decide
/-- One pair of values on each side of each condition, and a target of each alignment. -/
theorem witness_Branches :
    (regs 0x100#32 5#32 5#32 6#32).readX 10#5 = (regs 0x100#32 5#32 5#32 6#32).readX 11#5 ∧
      (regs 0x100#32 5#32 5#32 6#32).readX 10#5 ≠ (regs 0x100#32 5#32 5#32 6#32).readX 12#5 ∧
      ((regs 0x100#32 (-1) 0#32 0#32).readX 10#5).toInt < ((regs 0x100#32 (-1) 0#32 0#32).readX 11#5).toInt ∧
      ((regs 0x100#32 (-1) 0#32 0#32).readX 11#5).toNat < ((regs 0x100#32 (-1) 0#32 0#32).readX 10#5).toNat ∧
      (0x100#32 + (0x1000#13).signExtend 32).extractLsb' 0 2 = 0#2 ∧
      (0x100#32 + (0xFFE#13).signExtend 32).extractLsb' 0 2 ≠ 0#2 := by decide

/-- `a1` at an address, the base of the accesses below, with no PMP entries. -/
def based (a : Word) : State := regs 0x100#32 0#32 a 0#32

/-- The last byte, half-word and word of main memory, each reached with an offset. -/
theorem witness_Loads :
    resolve (based 0xFFFFFFFE#32) .load .byte ((based 0xFFFFFFFE#32).readX 11#5 + (1#12).signExtend 32) =
        .ok 0xFFFFFFFF#34 ∧
      resolve (based 0#32) .load .half ((based 0#32).readX 11#5 + (0xFFE#12).signExtend 32) =
        .ok 0xFFFFFFFE#34 ∧
      resolve (based 0#32) .load .word ((based 0#32).readX 11#5 + (0xFFC#12).signExtend 32) =
        .ok 0xFFFFFFFC#34 ∧
      rdX0Trap (based 0#32) 0#5 = false ∧ rdX0Trap (based 0xFFFFFFFE#32) 10#5 = false :=
  ⟨rfl, rfl, rfl, rfl, rfl⟩
/-- Under `RD_X0_ILLEGAL` and with PMP entries, in M-mode. -/
theorem witness_Loads_strict :
    resolve (strict State.reset) .load .word ((strict State.reset).readX 0#5 + (0x7FC#12).signExtend 32) =
        .error ⟨.loadAccessFault, 0x7FC#32⟩ ∧
      resolve { strict State.reset with x := (based 0x1000#32).x } .load .word
        (State.readX { strict State.reset with x := (based 0x1000#32).x } 11#5 + (0#12).signExtend 32) =
        .ok 0x1000#34 ∧
      rdX0Trap (strict State.reset) 10#5 = false := ⟨rfl, rfl, rfl⟩
/-- Main memory, the upper half of `mtimecmp`, and `msip`. -/
theorem witness_Stores :
    (based 0x02000000#32).memoryCanonical = true ∧
      resolve (based 0x02000000#32) .store .byte
        ((based 0x02000000#32).readX 11#5 + (0xFFF#12).signExtend 32) = .ok 0x01FFFFFF#34 ∧
      resolve (based 0x02004000#32) .store .half
        ((based 0x02004000#32).readX 11#5 + (6#12).signExtend 32) = .ok 0x02004006#34 ∧
      resolve (based 0x02000000#32) .store .word
        ((based 0x02000000#32).readX 11#5 + (0#12).signExtend 32) = .ok 0x02000000#34 :=
  ⟨rfl, rfl, rfl, rfl⟩
/-- A platform with a ROM at `0x3000` and a device at `0x4000`. -/
def withDevices : State :=
  { based 0x3000#32 with
    cfg := { Params.default with
      pmpEntries := 0
      memMap := [⟨0x3000, 0x1000, .rom⟩, ⟨0x4000, 0x1000, .device⟩] } }

/-- Stores to ROM and to a device outside the CLINT. -/
theorem witness_Stores_rom_device :
    withDevices.memoryCanonical = true ∧
      resolve withDevices .store .word (withDevices.readX 11#5 + (0x7FC#12).signExtend 32) =
        .ok 0x37FC#34 ∧ (∀ i < 4, placeOf withDevices.cfg (0x37FC + i) = .rom) ∧
      resolve { withDevices with x := (based 0x4000#32).x } .store .byte
        (State.readX { withDevices with x := (based 0x4000#32).x } 11#5 + (3#12).signExtend 32) =
        .ok 0x4003#34 ∧ placeOf withDevices.cfg 0x4003 = .device := by
  refine ⟨rfl, rfl, by decide, rfl, rfl⟩
/-- A store to the device is marked and changes no byte of main memory (R148). -/
theorem witness_Stores_device_marked :
    shows (exec (.sb 0#5 11#5 3#12) { withDevices with x := (based 0x4000#32).x })
      (fun t => (t.stored, t.mem)) = some ([0x4003], []) := by decide
theorem witness_AccessExceptions_loads :
    rdX0Trap (based 0xFFF#32) 10#5 = false ∧
      resolve (based 0xFFF#32) .load .byte ((based 0xFFF#32).readX 11#5 + (0#12).signExtend 32) =
        .error ⟨.loadAccessFault, 0xFFF#32⟩ ∧
      resolve (based 0xFFF#32) .load .half ((based 0xFFF#32).readX 11#5 + (0#12).signExtend 32) =
        .error ⟨.loadAddrMisaligned, 0xFFF#32⟩ ∧
      resolve (based 0xFFF#32) .load .word ((based 0xFFF#32).readX 11#5 + (3#12).signExtend 32) =
        .error ⟨.loadAddrMisaligned, 0x1002#32⟩ := ⟨rfl, rfl, rfl, rfl⟩
theorem witness_AccessExceptions_stores :
    resolve (based 0x02000004#32) .store .byte
        ((based 0x02000004#32).readX 11#5 + (0#12).signExtend 32) =
        .error ⟨.storeAccessFault, 0x02000004#32⟩ ∧
      resolve (based 0x02000004#32) .store .half
        ((based 0x02000004#32).readX 11#5 + (1#12).signExtend 32) =
        .error ⟨.storeAddrMisaligned, 0x02000005#32⟩ ∧
      resolve (paged .U 0#32 0#32 0#32) .store .word
        ((paged .U 0#32 0#32 0#32).readX 11#5 + (4#12).signExtend 32) =
        .error ⟨.storePageFault, 4#32⟩ := ⟨rfl, rfl, rfl⟩
/-- An access that passes; one half of whose bytes is vacant; one that PMP refuses; one not translated. -/
theorem witness_AccessCheckOrder :
    (∀ k < 4, placeOf Params.default ((0x80000000#34).toNat + k) ≠ .vacant) ∧
      pmpOk State.reset 0x80000000#34 .fetch (effPriv State.reset .fetch) = true ∧
      (∃ k < 4, placeOf Params.default ((0xFFE#34).toNat + k) = .vacant) ∧
      (∃ k < 4, placeOf Params.default ((0xFFE#34).toNat + k) ≠ .vacant) ∧
      pmpOk { State.reset with priv := .U } 0x80000000#34 .load .U = false ∧
      walked (paged .U 0#32 0#32 0#32) .load = .inr 13 := by decide
theorem witness_TranslationApplies :
    (csrRead (paged .U 0#32 0#32 0#32) .satp).getLsbD 31 = true ∧
      effPriv (paged .U 0#32 0#32 0#32) .load ≠ .M ∧
      (csrRead (paged .M 0#32 0#32 0#32) .satp).getLsbD 31 = true ∧
      effPriv (paged .M 0#32 0#32 0#32) .load = .M ∧
      (csrRead (at' 0x100#32) .satp).getLsbD 31 = false := by decide

/-- The root entry read, and refused by PMP. -/
theorem witness_Sv32Walk_root :
    entryRead (paged .U 0#32 0x20000C01#32 0#32) 0x00401234#32 .load 1 0x80002#22 = .inl 0x20000C01#32 ∧
      (paged .U 0#32 0x20000C01#32 0#32).satpPpn = 0x80002#22 ∧
      entryRead { paged .U 0#32 0x20000C01#32 0#32 with cfg := Params.default } 0x00401234#32 .store 1
        0x80002#22 = .inr (7, 0x00401234#32) := by decide
/-- A second-level entry read, and a vacant one. -/
theorem witness_Sv32Walk_second :
    entryRead (paged .U 0#32 0x20000C01#32 0x200010DF#32) 0x00401234#32 .load 0
        (ptePpn 0x20000C01#32) = .inl 0x200010DF#32 ∧
      entryRead (paged .U 0#32 0x00000001#32 0#32) 0x00000234#32 .load 0 (ptePpn 0x00000001#32) =
        .inr (5, 0x00000234#32) := by decide
/-- A pointer, leaves of both kinds that give an address, and entries each check refuses. -/
theorem witness_Sv32Walk_entries :
    pteInvalid 0x20000C01#32 = false ∧ pteLeaf 0x20000C01#32 = false ∧
      pteInvalid 0x201000DF#32 = false ∧ pteLeaf 0x201000DF#32 = true ∧ ptePpn0 0x201000DF#32 = 0#10 ∧
      pteA 0x201000DF#32 = true ∧ pteD 0x201000DF#32 = true ∧
      leafPermOk (at' 0#32) 0x201000DF#32 .store .U = true ∧
      leafPermOk (at' 0#32) 0x201000DF#32 .load .S = false ∧ ptePpn0 0x201004DF#32 ≠ 0#10 ∧
      pteA 0x2010009F#32 = false ∧ pteD 0x2010005F#32 = false ∧ pteInvalid 0x20000C05#32 = true ∧
      pteInvalid 0x20000C00#32 = true := by decide
theorem witness_PageTableReads :
    pmpOk (at' 0#32) ((0x80002#22) ++ vpnOf 1 0x00401234#32 ++ 0#2) .load .S = true ∧
      (∀ k < 4, placeOf (at' 0#32).cfg (((0x80002#22) ++ vpnOf 1 0x00401234#32 ++ 0#2).toNat + k) ≠
        .vacant) ∧
      pmpOk State.reset ((0x80002#22) ++ vpnOf 1 0x00401234#32 ++ 0#2) .load .S = false ∧
      (∃ k < 4, placeOf (at' 0#32).cfg (((0#22) ++ vpnOf 0 0x003FF000#32 ++ 0#2).toNat + k) = .vacant) := by
  decide

theorem witness_PmpMatching :
    ((guarded 0#32 0#32 0#32).pmpCfgAt 0).a = .off ∧
      ((guarded 0xF00#32 1#32 2#32).pmpCfgAt 1).a = .tor ∧ ((guarded 0xF#32 1#32 2#32).pmpCfgAt 0).a = .tor ∧
      ((guarded 0x11#32 1#32 2#32).pmpCfgAt 0).a = .na4 ∧
      ((guarded 0x1F#32 0x7FFFFFFF#32 2#32).pmpCfgAt 0).a = .napot ∧
      (∀ j < 31, ((guarded 0x1F#32 0x7FFFFFFF#32 2#32).pmpAddrAt 0).getLsbD j = true) ∧
      ((guarded 0x1F#32 0x7FFFFFFF#32 2#32).pmpAddrAt 0).getLsbD 31 = false ∧
      ((guarded 0x1F#32 2#32 2#32).pmpAddrAt 0).getLsbD 0 = false ∧
      (guarded 0x1F#32 0xFFFFFFFF#32 2#32).pmpAddrAt 0 = 0xFFFFFFFF#32 ∧
      pmpDecides (guarded 0x1F00#32 0#32 0xFFFFFFFF#32) 0#34 = some 1 := by decide
theorem witness_PmpPermission :
    (at' 0#32).cfg.pmpEntries.val = 0 ∧ State.reset.cfg.pmpEntries.val ≠ 0 ∧
      (∀ j < State.reset.cfg.pmpEntries.val, pmpMatches State.reset j 0x80000000#34 = false) ∧
      pmpMatches (guarded 0x1F00#32 0#32 0xFFFFFFFF#32) 1 0#34 = true ∧
      (∀ j < 1, pmpMatches (guarded 0x1F00#32 0#32 0xFFFFFFFF#32) j 0#34 = false) := by decide
theorem witness_LittleEndian :
    (at' 0#32).memoryCanonical = true ∧ (0xFFFFFFFC#34).toNat + 3 < 2 ^ 34 ∧
      (∀ k < 4, placeOf (at' 0#32).cfg ((0xFFFFFFFC#34).toNat + k) = .ram) ∧
      (∀ k < 4, placeOf (at' 0#32).cfg ((0x1001#34).toNat + k) = .ram) := by decide

theorem witness_modes : (inMode .U 0#32 0#32).priv = .U ∧ (inMode .S 0#32 0#32).priv = .S ∧
    (inMode .S 0x700000#32 0#32).mstatus.tsr = true ∧ (inMode .S 0x700000#32 0#32).mstatus.tw = true ∧
    (inMode .S 0x700000#32 0#32).mstatus.tvm = true ∧ (inMode .S 0#32 0#32).mstatus.tsr = false ∧
    (inMode .S 0#32 0#32).mstatus.tw = false ∧ (inMode .S 0#32 0#32).mstatus.tvm = false ∧
    (inMode .M 0#32 0#32).priv = .M := by decide
theorem witness_CsrReadWrite : csrAccess State.reset 0x3A0#12 true = some (.pmpcfg 0) ∧
    csrAccess (inMode .U 0#32 0#32) 0x000#12 true = some .ustatus ∧
    csrAccess State.reset 0xB02#12 true = some .minstret ∧
    csrAccess State.reset 0xB82#12 true = some .minstreth := by decide
theorem witness_CsrSetClear : rdX0Trap State.reset 0#5 = false ∧
    csrAccess State.reset 0x304#12 true = some .mie ∧ Csr.mie ≠ .mip ∧
    csrAccess State.reset 0xB82#12 true = some .minstreth ∧ Csr.minstreth ≠ .mip := by decide
theorem witness_CsrSetClear_mip : rdX0Trap (pending .M 0#32 0#32 0x22#32) 0#5 = false ∧
    csrAccess (pending .M 0#32 0#32 0x22#32) 0x344#12 true = some .mip ∧
    (∀ i < 32, (0xA2#32).getLsbD i = if i = 9 then (pending .M 0#32 0#32 0x22#32).mipSw.getLsbD 9
      else (csrRead (pending .M 0#32 0#32 0x22#32) .mip).getLsbD i) := by decide
theorem witness_CsrPureRead : csrAccess State.reset 0xF14#12 false = some .mhartid ∧
    csrAccess State.reset 0xC00#12 false = some .cycle ∧ rdX0Trap State.reset 0#5 = false := by decide
/-- Read-only, too little privilege, no PMP entries, a closed counter, `satp` under `TVM`, no such CSR. -/
theorem witness_CsrAccessRule :
    csrAccess State.reset 0xF14#12 true = none ∧ csrAccess (inMode .S 0#32 0#32) 0x300#12 false = none ∧
      csrAccess (at' 0#32) 0x3A0#12 false = none ∧ csrAccess (inMode .S 0#32 0#32) 0xC00#12 false = none ∧
      csrAccess (inMode .S 0x100000#32 0#32) 0x180#12 false = none ∧
      csrAccess State.reset 0x7C0#12 false = none := by decide
/-- R26: with five entries `pmpaddr4` and `pmpcfg1` exist, `pmpaddr5` and `pmpcfg2` do not. -/
theorem witness_CsrAccessRule_pmp :
    let s : State := { State.reset with cfg := { Params.default with pmpEntries := 5 } }
    csrAccess s 0x3B4#12 true = some (.pmpaddr 4) ∧ csrAccess s 0x3B5#12 false = none ∧
      csrAccess s 0x3A1#12 true = some (.pmpcfg 1) ∧ csrAccess s 0x3A2#12 false = none := by decide
theorem witness_DebugCsrsIllegal : (0x7B0 ≤ (0x7B0#12).toNat ∧ (0x7B0#12).toNat ≤ 0x7B3) ∧
    (0x7B0 ≤ (0x7B3#12).toNat ∧ (0x7B3#12).toNat ≤ 0x7B3) := by decide

theorem witness_MstatusWrite : (0xFFFFFFFF#32).extractLsb' 11 2 ≠ 0b10#2 ∧
    (0x00001000#32).extractLsb' 11 2 = 0b10#2 := by decide
theorem witness_TrapVectorWrite : (0xFFFFFFFE#32).getLsbD 1 = true ∧ (0xFFFFFFFD#32).getLsbD 1 = false := by
  decide
theorem witness_MaskedRegisters : (Csr.scounteren, 7#32) ∈ [(Csr.mepc, 0xFFFFFFFC#32),
    (.sepc, 0xFFFFFFFC#32), (.uepc, 0xFFFFFFFC#32), (.medeleg, 0x0000B3FF#32), (.mideleg, 0x00000333#32),
    (.sedeleg, 0x0000B1FF#32), (.sideleg, 0x00000111#32), (.mie, 0x00000BBB#32), (.satp, 0x803FFFFF#32),
    (.mcounteren, 0x00000007#32), (.scounteren, 0x00000007#32)] := by decide
/-- The last entry written; one locked; one below a locked TOR entry; one that does not exist. -/
theorem witness_PmpRegisters : 15 / 4 = (3 : Fin 4).val ∧ 15 < State.reset.cfg.pmpEntries.val ∧
    (State.reset.pmpCfgAt 15).l = false ∧ ((guarded 0x80#32 0#32 0#32).pmpCfgAt 0).l = true ∧
    ((guarded 0x8800#32 0#32 0#32).pmpCfgAt 1).l = true ∧
    ((guarded 0x8800#32 0#32 0#32).pmpCfgAt 1).a = .tor ∧
    (guarded 0#32 0#32 0#32).cfg.pmpEntries.val ≤ 2 := by decide

/-- The six rows of R413, for the page fault of a store (15) and the timer interrupt of U-mode (4). -/
theorem witness_TargetModeRule :
    targetMode { inMode .S 0#32 0#32 with medeleg := 0x8000#32 } (.exception .storePageFault) = .S ∧
      targetMode (inMode .S 0#32 0#32) (.exception .storePageFault) = .M ∧
      targetMode (inMode .U 0#32 0#32) (.interrupt .userTimer) = .M ∧
      targetMode { inMode .U 0#32 0#32 with mideleg := 0x10#32 } (.interrupt .userTimer) = .S ∧
      targetMode { inMode .U 0#32 0#32 with mideleg := 0x10#32, sideleg := 0x10#32 }
        (.interrupt .userTimer) = .U ∧
      targetMode { inMode .M 0#32 0#32 with medeleg := 0x8000#32 } (.exception .storePageFault) = .M := by
  decide
theorem witness_HandlerAddress :
    (csrRead (pending .M 0#32 0#32 0#32) .mtvec).extractLsb' 0 2 = 0b01#2 ∧
      (csrRead State.reset .mtvec).extractLsb' 0 2 ≠ 0b01#2 ∧
      (Cause.interrupt .machineExternal).isInterrupt = true ∧
      (Cause.exception .illegalInstr).isInterrupt = false := by decide
theorem witness_TrapThenReturn :
    (0xFFFFFFFC#32).extractLsb' 0 2 = 0#2 ∧
      targetMode (inMode .M 0#32 0#32) (.exception .ecallFromM) = .M ∧
      targetMode { inMode .U 0#32 0#32 with medeleg := 0x100#32 } (.exception .ecallFromU) = .S ∧
      (inMode .U 0#32 0#32).mstatus.tsr = false ∧
      targetMode { inMode .U 0#32 0#32 with medeleg := 0x100#32, sedeleg := 0x100#32 }
        (.exception .ecallFromU) = .U := by decide

theorem witness_InterruptSelection :
    interruptTaken (pending .M 8#32 0x80#32 0#32) = some .machineTimer ∧
      interruptTaken (awake { pending .M 8#32 0x80#32 0#32 with inputs := [quiet] }) =
        some .machineTimer ∧
      State.runs { pending .M 8#32 0x80#32 0#32 with inputs := [quiet] } := ⟨rfl, rfl, .inl rfl⟩
theorem witness_InterruptSelection_woken :
    interruptTaken (awake { pending .M 8#32 0x80#32 0#32 with inputs := [quiet], wfiStalled := true }) =
        some .machineTimer ∧
      State.runs { pending .M 8#32 0x80#32 0#32 with inputs := [quiet], wfiStalled := true } :=
  ⟨rfl, .inr (.inl (by decide))⟩
/-- With a program loaded into main memory and every unspecified register at a value of its own. -/
theorem witness_AfterReset :
    State.AfterReset { loadedProgram with mie := 0xBBB#32, mtimecmp := 5#64, mtval := 7#32 } where
  mode := rfl
  address := rfl
  interruptsOff := rfl
  ownPrivilege := rfl
  cause := rfl
  protectionOff i := by
    by_cases h : i < 16
    · interval_cases i <;> exact ⟨rfl, rfl⟩
    · have e : State.pmpCfgAt { loadedProgram with mie := 0xBBB#32, mtimecmp := 5#64, mtval := 7#32 } i =
          PmpCfg.none := if_neg h
      rw [e]
      exact ⟨rfl, rfl⟩
  running := rfl
  rom a h := by
    have no : ∀ k, placeOf Params.default k ≠ .rom := by
      intro k
      unfold placeOf regionAt
      repeat' split
      all_goals simp_all [Params.default]
      all_goals aesop
    exact absurd h (no a)
  nothingStored := ⟨rfl, rfl⟩
/-- A reset vector that holds memory, and one that is vacant. -/
theorem witness_AfterReset_places :
    (∀ k < 4, placeOf Params.default (Params.default.resetVector.toNat + k) ≠ .vacant) ∧
      (∃ k < 4, placeOf { Params.default with resetVector := 0#32 } ((0#32).toNat + k) = .vacant) := by
  decide
/-- Addresses at both ends of the CLINT's registers, in a region of each kind, and in none. -/
theorem witness_PhysicalPlaces : Params.default.wf = true ∧ withDevices.cfg.wf = true ∧
    placeOf Params.default 0x02000003 = .msip 3 ∧ placeOf Params.default 0x02000004 = .vacant ∧
    placeOf Params.default 0x0200BFFF = .mtime 7 ∧ placeOf Params.default 0x1000 = .ram ∧
    placeOf withDevices.cfg 0x3FFF = .rom ∧ placeOf withDevices.cfg 0x4000 = .device ∧
    placeOf withDevices.cfg 0x5000 = .vacant := by decide
theorem witness_ResetState : Params.default.wf = true ∧ Params.wf { Params.default with
    romImage := [(0x80000000, 0x37#8)], pmpEntries := 0, nharts := 2, hartid := 1#32 } = true := by decide
theorem witness_InvariantKept : loadedProgram.wf = true ∧ Out.goesOn (step loadedProgram) = true := by
  decide
/-- `ECALL` from U-mode raises the mode; `MRET` lowers it; a step raises it by an interrupt. -/
theorem witness_ModeChanges :
    shows (exec .ecall (inMode .U 0#32 0#32)) (·.priv) = some .M ∧
      shows (exec .mret (inMode .M 0#32 0#32)) (·.priv) = some .U ∧
      shows (step { pending .U 0#32 0x80#32 0#32 with inputs := [quiet] }) (·.priv) = some .M ∧
      shows (step (placed 0x30200073#32)) (·.priv) = some .U := by decide
/-- A step from U-mode to U-mode, and one from S-mode to S-mode, with no PMP entries. -/
theorem witness_PrivilegeIsolation :
    shows (step { placed 0x12345537#32 with
        cfg := { Params.default with pmpEntries := 0 }
        priv := .U }) (·.priv) = some .U ∧
      shows (step { placed 0x14051573#32 with
        cfg := { Params.default with pmpEntries := 0 }
        priv := .S }) (·.priv) = some .S := by decide
theorem witness_PreciseExceptions :
    shows (exec (.csrrw 0#5 0xB02#12 10#5) (regs 0x100#32 5#32 0#32 0#32)) (·.minstret) = some 5#64 ∧
      shows (exec (.csrrs 10#5 0xB02#12 0#5) (regs 0x100#32 5#32 0#32 0#32)) (·.minstret) = some 1#64 := by
  decide

end Sys2Proof.Tests
end

section
/-! What a step is made of (R12): what the platform and other agents do before the instruction, the wake-up
decision of a stalled hart, and the fetch; then the statements about them. -/

namespace Sys2Proof.Machine

/-! ## Bytes other agents write (R145, R148) -/

@[simp] theorem agentWrites_nil (s : State) : agentWrites [] s = s := rfl

@[simp] theorem agentWrites_cons (w : PAddr × Byte) (ws : List (PAddr × Byte)) (s : State) :
    agentWrites (w :: ws) s = agentWrites ws (physWriteByte s w.1.toNat w.2) := rfl

theorem agentWrites_append (vs ws : List (PAddr × Byte)) (s : State) :
    agentWrites (vs ++ ws) s = agentWrites ws (agentWrites vs s) := List.foldl_append

@[simp] theorem agentWrites_cfg (ws : List (PAddr × Byte)) (s : State) :
    (agentWrites ws s).cfg = s.cfg := by rw [agentWrites_kept]

/-- What a stored byte makes of main memory: nothing, or one write at its address. -/
theorem physWriteByte_mem (s : State) (a : Nat) (b : Byte) :
    (physWriteByte s a b).mem = s.mem ∨ ∃ c, (physWriteByte s a b).mem = s.mem.write a c := by
  unfold physWriteByte storeByte
  cases placeOf s.cfg a with
  | msip off => exact .inl (by dsimp only [markStored]; split <;> rfl)
  | ram => exact .inr ⟨b, rfl⟩
  | rom => exact .inr ⟨_, rfl⟩
  | mtimecmp off | mtime off | device | vacant => exact .inl rfl

theorem read_mem_physWriteByte_other (s : State) {a q : Nat} (h : q ≠ a) (b : Byte) :
    (physWriteByte s a b).mem.read q = s.mem.read q := by
  obtain hm | ⟨c, hm⟩ := physWriteByte_mem s a b
  · rw [hm]
  · rw [hm, Memory.read_write_other s.mem c h]

theorem physWriteByte_mem_rising {s : State} (h : strictlyRising (s.mem.map Prod.fst) = true) (a : Nat)
    (b : Byte) : strictlyRising ((physWriteByte s a b).mem.map Prod.fst) = true := by
  obtain hm | ⟨c, hm⟩ := physWriteByte_mem s a b
  · rwa [hm]
  · rw [hm]
    exact Memory.write_rising h a c

theorem agentWrites_mem_rising (ws : List (PAddr × Byte)) {s : State}
    (h : strictlyRising (s.mem.map Prod.fst) = true) :
    strictlyRising ((agentWrites ws s).mem.map Prod.fst) = true := by
  induction ws generalizing s with
  | nil => exact h
  | cons w rest ih => exact ih (physWriteByte_mem_rising h _ _)

/-- A byte of main memory no agent writes is as before. -/
theorem read_mem_agentWrites_other {ws : List (PAddr × Byte)} {a : Nat} (h : ∀ w ∈ ws, w.1.toNat ≠ a)
    (s : State) : (agentWrites ws s).mem.read a = s.mem.read a := by
  induction ws generalizing s with
  | nil => rfl
  | cons w rest ih =>
    obtain ⟨hw, hrest⟩ := List.forall_mem_cons.1 h
    rw [agentWrites_cons, ih hrest, read_mem_physWriteByte_other s hw.symm]

/-- A byte no agent writes reads as before, whatever stands at its address. -/
theorem physReadByte_agentWrites_other {ws : List (PAddr × Byte)} {a : Nat}
    (h : ∀ w ∈ ws, w.1.toNat ≠ a) (s : State) (use : ReadUse) :
    physReadByte (agentWrites ws s) use a = physReadByte s use a := by
  induction ws generalizing s with
  | nil => rfl
  | cons w rest ih =>
    obtain ⟨hw, hrest⟩ := List.forall_mem_cons.1 h
    rw [agentWrites_cons, ih hrest, physReadByte_write_other s hw.symm]

/-- Of several bytes written to one address the last one counts. -/
theorem physReadByte_agentWrites_last (before : List (PAddr × Byte)) {after : List (PAddr × Byte)}
    {a : PAddr} (h : ∀ w ∈ after, w.1 ≠ a) (b : Byte) (s : State) (use : ReadUse) :
    physReadByte (agentWrites (before ++ (a, b) :: after) s) use a.toNat =
      physReadByte (physWriteByte (agentWrites before s) a.toNat b) use a.toNat := by
  rw [agentWrites_append, agentWrites_cons]
  exact physReadByte_agentWrites_other (fun w hw e => h w hw (BitVec.eq_of_toNat_eq e)) _ use

/-- Which bytes are marked as stored to after the agents wrote: those marked before, and those written
where something stands. -/
theorem mem_agentWrites_stored (ws : List (PAddr × Byte)) (s : State) (a : Nat) :
    a ∈ (agentWrites ws s).stored ↔
      a ∈ s.stored ∨ (placeOf s.cfg a ≠ .vacant ∧ ∃ w ∈ ws, w.1.toNat = a) := by
  induction ws generalizing s with
  | nil => simp
  | cons w rest ih =>
    rw [agentWrites_cons, ih, mem_physWriteByte_stored, physWriteByte_cfg]
    simp only [List.exists_mem_cons_iff]
    constructor
    · rintro ((h | ⟨rfl, hv⟩) | ⟨hv, h⟩)
      · exact .inl h
      · exact .inr ⟨hv, .inl rfl⟩
      · exact .inr ⟨hv, .inr h⟩
    · rintro (h | ⟨hv, rfl | h⟩)
      · exact .inl (.inl h)
      · exact .inl (.inr ⟨rfl, hv⟩)
      · exact .inr ⟨hv, h⟩

theorem Place.storesBytes_iff (p : Place) :
    p.storesBytes = true ↔ p = .ram ∨ (∃ off, p = .mtimecmp off) ∨ ∃ off, p = .mtime off := by
  cases p <;> simp [Place.storesBytes]

/-! ## The software-interrupt bit (R488) -/

/-- Bit 0 of the first byte of `msip`, as it is read, is `msip_bit`. -/
theorem physReadByte_msip_getLsbD {s : State} {a : Nat} (h : placeOf s.cfg a = .msip 0) (use : ReadUse) :
    (physReadByte s use a).getLsbD 0 = s.msipBit := by
  simp [physReadByte, h]

theorem physWriteByte_msipBit {s : State} {a : Nat} (h : placeOf s.cfg a = .msip 0) (b : Byte) :
    (physWriteByte s a b).msipBit = b.getLsbD 0 := by
  simp [physWriteByte, storeByte, markStored, h]

/-! ## The platform (R12) -/

/-- The state after the platform sampled its lines and advanced its counters, before other agents write. -/
def sampled (s : State) : State :=
  { s with
    inputs := s.inputs.tail, tick := s.tick + 1, meipLine := (nextInput s).env.meip,
    seipLine := (nextInput s).env.seip, msipBit := (nextInput s).env.msip.getD s.msipBit,
    msipStored := s.msipStored || (nextInput s).env.msip.isSome,
    mtime := s.mtime + BitVec.ofNat 64 (nextInput s).env.mtimeInc,
    mcycle := s.mcycle + BitVec.ofNat 64 ((nextInput s).env.mcycleMore + 1) }

theorem platform_eq (s : State) : platform s = agentWrites (nextInput s).writes (sampled s) := rfl

@[simp] theorem sampled_cfg (s : State) : (sampled s).cfg = s.cfg := rfl
@[simp] theorem sampled_mem (s : State) : (sampled s).mem = s.mem := rfl
@[simp] theorem sampled_stored (s : State) : (sampled s).stored = s.stored := rfl

@[simp] theorem platform_inputs (s : State) : (platform s).inputs = s.inputs.tail := by
  rw [platform_kept]
@[simp] theorem platform_tick (s : State) : (platform s).tick = s.tick + 1 := by rw [platform_kept]

section LastWrite

variable {s : State} {before after : List (PAddr × Byte)} {a : PAddr} {b : Byte}

/-- What is read after the platform where other agents wrote: the last byte they stored there. -/
theorem physReadByte_platform_last (hw : (nextInput s).writes = before ++ (a, b) :: after)
    (ha : ∀ w ∈ after, w.1 ≠ a) (use : ReadUse) :
    physReadByte (platform s) use a.toNat =
      physReadByte (physWriteByte (agentWrites before (sampled s)) a.toNat b) use a.toNat := by
  rw [platform_eq, hw, physReadByte_agentWrites_last before ha]

theorem physReadByte_platform_of_storesBytes (hm : s.memoryCanonical = true)
    (hw : (nextInput s).writes = before ++ (a, b) :: after) (ha : ∀ w ∈ after, w.1 ≠ a)
    (hp : (placeOf s.cfg a.toNat).storesBytes = true) (use : ReadUse) :
    physReadByte (platform s) use a.toNat = b := by
  have hrising : strictlyRising (s.mem.map Prod.fst) = true := by
    simp only [State.memoryCanonical, Memory.wf, Bool.and_eq_true] at hm
    exact hm.1.1.1
  rw [physReadByte_platform_last hw ha]
  exact physReadByte_write_same (agentWrites_mem_rising before (s := sampled s) hrising)
    (by simpa [Place.storesBytes_iff] using hp) use b

/-- The last byte written to the first byte of `msip` gives its bit: bit 0 is read there after the
platform, and it is read where the byte was stored. -/
theorem platform_msipBit_of_write (hw : (nextInput s).writes = before ++ (a, b) :: after)
    (ha : ∀ w ∈ after, w.1 ≠ a) (hp : placeOf s.cfg a.toNat = .msip 0) :
    (platform s).msipBit = b.getLsbD 0 := by
  have hread := physReadByte_platform_last hw ha (.access .load)
  rw [← physReadByte_msip_getLsbD (by simpa using hp) (.access .load), hread,
    physReadByte_msip_getLsbD (by simpa using hp), physWriteByte_msipBit (by simpa using hp)]

end LastWrite

/-- Settles O8: the platform samples, then the other agents write, one byte after the other. -/
theorem platformEffect : Obligations.PlatformEffect := by
  refine ⟨fun s h => ?_, fun s before after a b hm hw ha => ⟨fun hp use => ?_, fun hp => ?_⟩,
    fun s a => ?_, fun s a h => ?_, fun s => ?_⟩
  · rw [platform_eq, h]
    rfl
  · exact physReadByte_platform_of_storesBytes hm hw ha hp use
  · exact platform_msipBit_of_write hw ha hp
  · exact mem_agentWrites_stored _ (sampled s) a
  · exact read_mem_agentWrites_other h (sampled s)
  · rw [platform_inputs, platform_tick]
    exact platform_kept s

/-! ## Waking a stalled hart (R324) -/

theorem Interrupt.code_lt (i : Interrupt) : i.code < 32 := by cases i <;> decide

/-- The bits of `mip` are the pending bits of the interrupts, each at its code (R65, R481). -/
theorem mipWord_getLsbD (s : State) {k : Nat} (hk : k < 32) :
    (mipWord s).getLsbD k = interruptOrder.any (fun i => decide (i.code = k) && mipBit s i) := by
  unfold mipWord interruptOrder
  simp only [BitVec.getLsbD_append]
  interval_cases k <;> simp [Interrupt.code]

/-- The bits of `mip & mie` are the interrupts that are pending and locally enabled (R495). -/
theorem mip_and_mie_getLsbD (s : State) {k : Nat} (hk : k < 32) :
    (mipWord s &&& csrRead s .mie).getLsbD k = true ↔
      ∃ i ∈ interruptOrder, i.code = k ∧ pendingEnabled s i = true := by
  have hmie : csrRead s .mie = s.mieBits := rfl
  simp only [BitVec.getLsbD_and, mipWord_getLsbD s hk, hmie, pendingEnabled, Bool.and_eq_true,
    List.any_eq_true, decide_eq_true_eq]
  constructor
  · rintro ⟨⟨i, hi, rfl, hp⟩, he⟩
    exact ⟨i, hi, rfl, he, hp⟩
  · rintro ⟨i, hi, rfl, he, hp⟩
    exact ⟨⟨i, hi, rfl, hp⟩, he⟩

/-- A stalled hart is to wake where `(mip & mie) != 0`. -/
theorem wakeRequested_iff (s : State) :
    wakeRequested s = true ↔ mipWord s &&& csrRead s .mie ≠ 0#32 := by
  rw [wakeRequested, List.any_eq_true]
  constructor
  · rintro ⟨i, hi, hp⟩ hzero
    have hbit := (mip_and_mie_getLsbD s i.code_lt).2 ⟨i, hi, rfl, hp⟩
    rw [hzero, BitVec.getLsbD_zero] at hbit
    exact Bool.false_ne_true hbit
  · intro hne
    by_contra hnone
    refine hne (BitVec.eq_of_getLsbD_eq fun k hk => ?_)
    rw [BitVec.getLsbD_zero, Bool.eq_false_iff, Ne, mip_and_mie_getLsbD s hk]
    rintro ⟨i, hi, -, hp⟩
    exact hnone ⟨i, hi, hp⟩

/-! ## A step that runs (R12, R200, R324) -/

@[simp] theorem awake_pc (s : State) : (awake s).pc = s.pc := platform_pc s

theorem awake_eq_platform {s : State} (h : s.wfiStalled = false) : awake s = platform s := by
  rw [← platform_wfiStalled] at h
  unfold awake
  rw [← h]

/-- A step that runs goes on with the interrupt check, no longer stalled. -/
theorem step_of_runs {s : State} (h : s.runs) : step s = runUnstalled exec (awake s) := by
  unfold step stepWith
  simp only [platform_wfiStalled]
  cases hs : s.wfiStalled with
  | false => rw [awake_eq_platform hs, if_neg Bool.false_ne_true]
  | true =>
    have hwake : (wakeRequested (platform s) || (nextInput s).env.wake) = true := by
      rw [Bool.or_eq_true, wakeRequested_iff]
      exact h.resolve_left (by simp [hs])
    rw [if_pos rfl, if_pos hwake]
    rfl

theorem step_of_runs_of_no_interrupt {s : State} (h : s.runs) (hi : interruptTaken (awake s) = none) :
    step s = fetchDecodeRun exec (awake s) := by
  rw [step_of_runs h, runUnstalled, hi]

theorem fetch_of_resolve_error {s : State} {r : Raised} (h : resolve s .fetch .word s.pc = .error r) :
    fetch s = .raised r := by
  rw [fetch, h]

theorem fetch_of_resolve_ok {s : State} {pa : PAddr} (h : resolve s .fetch .word s.pc = .ok pa)
    (hs : storedTo s .word pa = false) : fetch s = .word (physRead s (.access .fetch) .word pa) := by
  rw [fetch, h]
  simp [hs]

theorem fetchDecodeRun_of_raised {run : Instr → State → Out} {s : State} {r : Raised}
    (h : fetch s = .raised r) : fetchDecodeRun run s = raiseRaised r s := by
  rw [fetchDecodeRun, h]

theorem fetchDecodeRun_of_decode_ok {run : Instr → State → Out} {s : State} {w : Word} {i : Instr}
    (h : fetch s = .word w) (hd : decode w = .ok i) : fetchDecodeRun run s = run i s := by
  rw [fetchDecodeRun, h]
  simp only [hd]

theorem fetchDecodeRun_of_decode_error {run : Instr → State → Out} {s : State} {w : Word}
    {e : DecodeError} (h : fetch s = .word w) (hd : decode w = .error e) :
    fetchDecodeRun run s = raiseIllegal w s := by
  rw [fetchDecodeRun, h]
  simp only [hd]

/-- A fetch raises no exception but an access fault or a page fault, with the virtual address as value: a
fetch address is never misaligned (R107). -/
theorem resolve_fetch_error {s : State} {w : Width} {va : Word} {r : Raised}
    (h : resolve s .fetch w va = .error r) :
    r.tval = va ∧ (r.exc = .instrAccessFault ∨ r.exc = .instrPageFault) := by
  obtain ⟨m, hm, -, -⟩ | rfl | rfl := resolve_error h
  · cases hm
  · exact ⟨rfl, .inr rfl⟩
  · exact ⟨rfl, .inl rfl⟩

/-- Settles O7: such a step fetches the word of the four bytes, and decodes it. -/
theorem stepRunsDecoded : Obligations.StepRunsDecoded := by
  intro s pa hr hi hpa hstored b
  have hstep := step_of_runs_of_no_interrupt hr hi
  have hfetch : fetch (awake s) = .word (b 3 ++ b 2 ++ b 1 ++ b 0) :=
    fetch_of_resolve_ok (by rwa [awake_pc]) hstored
  refine ⟨fun i hd => ?_, fun e hd => ?_⟩
  · rw [hstep, fetchDecodeRun_of_decode_ok hfetch hd]
  · rw [hstep, fetchDecodeRun_of_decode_error hfetch hd, raiseIllegal, raise, awake_pc]

/-- Settles O9: the step is the exception the fetch address raised. -/
theorem fetchExceptions : Obligations.FetchExceptions := by
  intro s r hr hi herr
  have hfetch : fetch (awake s) = .raised r := fetch_of_resolve_error (by rwa [awake_pc])
  refine ⟨?_, resolve_fetch_error herr⟩
  rw [step_of_runs_of_no_interrupt hr hi, fetchDecodeRun_of_raised hfetch, raiseRaised, raise, awake_pc]

end Sys2Proof.Machine
end

section
/-! The general registers (R20) and the state after reset (R90). -/

namespace Sys2Proof.Machine

/-- Settles O12: the register read is the one written, or it is not. -/
theorem registerFile : Obligations.RegisterFile := by
  intro s r q v
  refine ⟨readX_zero s, writeX_zero s v, ?_⟩
  by_cases hq : q = r
  · subst hq
    by_cases h0 : q = 0#5
    · rw [if_neg fun h => h.2 h0, h0, writeX_zero]
    · rw [if_pos ⟨rfl, h0⟩, writeX_readX_same s v q h0]
  · rw [if_neg fun h => hq h.1, writeX_readX_other s v r hq]

/-! ## After reset -/

theorem resetWith_pmpCfgAt (p : Params) (i : Nat) : (State.resetWith p).pmpCfgAt i = PmpCfg.none := by
  have hlist : (State.resetWith p).pmpcfg.toList = List.replicate 16 PmpCfg.none := rfl
  have hread : (List.replicate 16 PmpCfg.none).getD i PmpCfg.none = PmpCfg.none := by
    by_cases hi : i < 16
    · exact List.getD_replicate _ hi
    · exact List.getD_eq_default _ _ (by simpa using hi)
  rw [State.pmpCfgAt, hlist, hread]
  exact ite_self _

theorem resetWith_afterReset (p : Params) : (State.resetWith p).AfterReset where
  mode := rfl
  address := rfl
  interruptsOff := rfl
  ownPrivilege := rfl
  cause := rfl
  protectionOff i := by
    rw [resetWith_pmpCfgAt]
    exact ⟨rfl, rfl⟩
  running := rfl
  rom _ _ := rfl
  nothingStored := ⟨rfl, rfl⟩

/-- The reset vector is aligned and the bytes of ROM are listed as memory lists them. -/
theorem resetVector_romImage_of_wf {p : Params} (h : p.wf = true) :
    wordAligned p.resetVector = true ∧ Memory.wf p.romImage = true := by
  simp only [Params.wf, Bool.and_eq_true, and_assoc] at h
  obtain ⟨hvector, -, hrising, hbytes, -⟩ := h
  exact ⟨hvector, Bool.and_eq_true_iff.2 ⟨hrising, hbytes⟩⟩

theorem within_zero (mask : Word) : within mask 0#32 = true := decide_eq_true BitVec.zero_and

/-- Every other register is zero, so its address is aligned and its hardwired bits are zero. -/
theorem resetWith_wf {p : Params} (h : p.wf = true) : (State.resetWith p).wf = true := by
  obtain ⟨hvector, hrom⟩ := resetVector_romImage_of_wf h
  have hsaved : wordAligned 0#32 = true := by decide
  simp only [State.wf, State.addressesAligned, State.hardwiredZero, State.memoryCanonical,
    State.resetWith, within_zero, hvector, hrom, h, hsaved]
  rfl

/-- Settles O57: reset gives the values R90 states, and zero elsewhere. -/
theorem resetState : Obligations.ResetState :=
  ⟨fun p => ⟨resetWith_afterReset p, rfl⟩, fun _ => resetWith_wf, resetWith_wf (by decide)⟩

end Sys2Proof.Machine
end

section
/-! `mstatus` and its two views as words (R40 to R44, R52, R53), and what a write through a mask leaves. -/

namespace Sys2Proof.Machine

/-! ## Writing through a mask -/

theorem maskedWrite_eq (mask old v : Word) :
    maskedWrite mask old v = (old &&& ~~~mask) ||| (v &&& mask) := rfl

theorem maskedWrite_getLsbD (mask old v : Word) {i : Nat} (hi : i < 32) :
    (maskedWrite mask old v).getLsbD i = if mask.getLsbD i then v.getLsbD i else old.getLsbD i := by
  simp only [maskedWrite_eq, BitVec.getLsbD_or, BitVec.getLsbD_and, BitVec.getLsbD_not, hi]
  cases mask.getLsbD i <;> simp

/-- A masked write stays inside any mask that holds the old value and the bits written. -/
theorem maskedWrite_and_of_within {m mask old : Word} (hmask : mask &&& m = mask) (hold : old &&& m = old)
    (v : Word) : maskedWrite mask old v &&& m = maskedWrite mask old v := by
  refine BitVec.eq_of_getLsbD_eq fun i hi => ?_
  have hmask := congrArg (·.getLsbD i) hmask
  have hold := congrArg (·.getLsbD i) hold
  simp only [BitVec.getLsbD_and] at hmask hold
  rw [BitVec.getLsbD_and, maskedWrite_getLsbD _ _ _ hi]
  cases h : mask.getLsbD i <;> simp_all

/-- A field outside the mask is kept. -/
theorem extractLsb'_maskedWrite {mask : Word} {k n : Nat} (hk : k + n ≤ 32)
    (h : mask.extractLsb' k n = 0#n) (old v : Word) :
    (maskedWrite mask old v).extractLsb' k n = old.extractLsb' k n := by
  refine BitVec.eq_of_getLsbD_eq fun i hi => ?_
  have h := congrArg (·.getLsbD i) h
  simp only [BitVec.getLsbD_extractLsb', BitVec.getLsbD_zero, hi, decide_true, Bool.true_and] at h ⊢
  rw [maskedWrite_getLsbD _ _ _ (by omega), h, if_neg Bool.false_ne_true]

theorem and_mask_idem (v m : Word) : v &&& m &&& m = v &&& m := by
  rw [BitVec.and_assoc, BitVec.and_self]

theorem and_mask_and_not (v m : Word) : v &&& m &&& ~~~m = 0#32 := by
  rw [BitVec.and_assoc, BitVec.and_not_self]
  exact BitVec.and_zero

/-! ## `mstatus` (R40, R41, R44) -/

theorem Priv.encoding_ne_reserved (p : Priv) : p.encoding ≠ 0b10#2 := by cases p <;> decide

theorem Priv.ofEncoding_encoding (p : Priv) : Priv.ofEncoding p.encoding = some p := by cases p <;> rfl

/-- What `MPP` holds after a write reads as the bits written, or as before where they are reserved. -/
theorem Priv.encoding_getD_ofEncoding (p : Priv) (b : BitVec 2) :
    ((Priv.ofEncoding b).getD p).encoding = if b = 0b10#2 then p.encoding else b := by
  revert b
  cases p <;> decide

/-- The bits of `mstatus` but for `MPP`. -/
theorem Mstatus.toWord_getLsbD (m : Mstatus) {i : Nat} (hi : i < 32) (h11 : i ≠ 11) (h12 : i ≠ 12) :
    m.toWord.getLsbD i =
      ((decide (i = 22) && m.tsr) || (decide (i = 21) && m.tw) || (decide (i = 20) && m.tvm)
        || (decide (i = 19) && m.mxr) || (decide (i = 18) && m.sum) || (decide (i = 17) && m.mprv)
        || (decide (i = 8) && m.spp) || (decide (i = 7) && m.mpie) || (decide (i = 5) && m.spie)
        || (decide (i = 4) && m.upie) || (decide (i = 3) && m.mie) || (decide (i = 1) && m.sie)
        || (decide (i = 0) && m.uie)) := by
  unfold Mstatus.toWord
  simp only [BitVec.getLsbD_append]
  interval_cases i <;> simp at h11 h12 ⊢

/-- The two bits of `MPP`. -/
theorem Mstatus.toWord_mpp (m : Mstatus) : m.toWord.extractLsb' 11 2 = m.mpp.encoding := by
  refine BitVec.eq_of_getLsbD_eq fun i hi => ?_
  unfold Mstatus.toWord
  simp only [BitVec.getLsbD_extractLsb', BitVec.getLsbD_append]
  interval_cases i <;> simp

/-- Two words are equal when they agree outside bits 12:11 and in the field there. -/
theorem eq_of_mpp_of_getLsbD {v w : Word} (hmpp : v.extractLsb' 11 2 = w.extractLsb' 11 2)
    (h : ∀ i < 32, i ≠ 11 → i ≠ 12 → v.getLsbD i = w.getLsbD i) : v = w := by
  have field : ∀ i < 2, v.getLsbD (11 + i) = w.getLsbD (11 + i) := by
    intro i hi
    have hbit := congrArg (·.getLsbD i) hmpp
    simpa [BitVec.getLsbD_extractLsb', hi] using hbit
  refine BitVec.eq_of_getLsbD_eq fun i hi => ?_
  by_cases h11 : i = 11
  · exact h11 ▸ field 0 (by decide)
  by_cases h12 : i = 12
  · exact h12 ▸ field 1 (by decide)
  exact h i hi h11 h12

/-- The writable bits of `mstatus` (R40), `MPP` among them. -/
def mstatusMask : Word := 0x007E19BB#32

theorem mstatusMask_getLsbD {i : Nat} (hi : i < 32) : mstatusMask.getLsbD i =
    decide (i ∈ [0, 1, 3, 4, 5, 7, 8, 11, 12, 17, 18, 19, 20, 21, 22]) := by
  revert i
  decide

/-- Outside `MPP`, `mstatus` reads as the writable bits of the word written. -/
theorem Mstatus.toWord_write_getLsbD (m : Mstatus) (v : Word) {i : Nat} (hi : i < 32) (h11 : i ≠ 11)
    (h12 : i ≠ 12) : (m.write v).toWord.getLsbD i = (v &&& mstatusMask).getLsbD i := by
  rw [Mstatus.toWord_getLsbD _ hi h11 h12, BitVec.getLsbD_and, mstatusMask_getLsbD hi]
  interval_cases i <;> simp [Mstatus.write] at h11 h12 ⊢

/-- A word with a mode in `MPP` reads back in its writable bits. -/
theorem Mstatus.toWord_write_of_legal (m : Mstatus) {v : Word} (h : v.extractLsb' 11 2 ≠ 0b10#2) :
    (m.write v).toWord = v &&& mstatusMask := by
  refine eq_of_mpp_of_getLsbD ?_ fun i hi h11 h12 => m.toWord_write_getLsbD v hi h11 h12
  have hfield : (v &&& mstatusMask).extractLsb' 11 2 = v.extractLsb' 11 2 := by
    rw [BitVec.extractLsb'_and]
    exact BitVec.and_allOnes
  rw [Mstatus.toWord_mpp, hfield, Mstatus.write, Priv.encoding_getD_ofEncoding, if_neg h]

/-- A word with the reserved encoding in `MPP` leaves `MPP` (R44). -/
theorem Mstatus.toWord_write_of_reserved (m : Mstatus) {v : Word} (h : v.extractLsb' 11 2 = 0b10#2) :
    (m.write v).toWord = (v &&& 0x007E01BB#32) ||| (m.toWord &&& 0x00001800#32) := by
  have hmask : ∀ i < 32, i ≠ 11 → i ≠ 12 →
      (0x007E01BB#32).getLsbD i = mstatusMask.getLsbD i ∧ (0x00001800#32).getLsbD i = false := by decide
  refine eq_of_mpp_of_getLsbD ?_ fun i hi h11 h12 => ?_
  · rw [Mstatus.toWord_mpp, BitVec.extractLsb'_or, BitVec.extractLsb'_and, BitVec.extractLsb'_and,
      Mstatus.toWord_mpp, Mstatus.write, Priv.encoding_getD_ofEncoding, if_pos h]
    cases m.mpp <;> rw [h] <;> decide
  · obtain ⟨hlow, hhigh⟩ := hmask i hi h11 h12
    rw [m.toWord_write_getLsbD v hi h11 h12, BitVec.getLsbD_or, BitVec.getLsbD_and, BitVec.getLsbD_and,
      BitVec.getLsbD_and, hlow, hhigh, Bool.and_false, Bool.or_false]

/-- Settles O43: the bits outside `MPP` are those written, and `MPP` is legal or reserved. -/
theorem mstatusWrite : Obligations.MstatusWrite := by
  intro s v
  exact ⟨s.mstatus.toWord_write_of_legal, s.mstatus.toWord_write_of_reserved⟩

/-! ## `sstatus` and `ustatus` (R52, R53) -/

/-- No bit outside the writable ones reads 1 (R28, R41). -/
theorem Mstatus.toWord_and_mask (m : Mstatus) : m.toWord &&& mstatusMask = m.toWord := by
  refine eq_of_mpp_of_getLsbD ?_ fun i hi h11 h12 => ?_
  · rw [BitVec.extractLsb'_and]
    exact BitVec.and_allOnes
  · rw [BitVec.getLsbD_and, mstatusMask_getLsbD hi, Mstatus.toWord_getLsbD _ hi h11 h12]
    interval_cases i <;> simp

/-- A write of `mstatus` through a view that does not show `MPP`. -/
theorem Mstatus.toWord_write_masked (m : Mstatus) {mask : Word} (hmask : mask &&& mstatusMask = mask)
    (hmpp : mask.extractLsb' 11 2 = 0b00#2) (v : Word) :
    (m.write (maskedWrite mask m.toWord v)).toWord = maskedWrite mask m.toWord v := by
  have hfield : (maskedWrite mask m.toWord v).extractLsb' 11 2 = m.mpp.encoding := by
    rw [extractLsb'_maskedWrite (by decide) hmpp, Mstatus.toWord_mpp]
  rw [Mstatus.toWord_write_of_legal _ (hfield ▸ m.mpp.encoding_ne_reserved),
    maskedWrite_and_of_within hmask m.toWord_and_mask]

/-- Settles O42: neither view shows `MPP`, so a write through one meets no reserved encoding. -/
theorem statusViews : Obligations.StatusViews := by
  intro s v
  exact ⟨rfl, s.mstatus.toWord_write_masked (mask := sstatusMask) (by decide) (by decide) v, rfl,
    s.mstatus.toWord_write_masked (mask := ustatusMask) (by decide) (by decide) v⟩

end Sys2Proof.Machine
end

section
/-! The interrupt registers as words and their views (R64 to R67), the trap vectors (R54), and
the registers that read back what their mask leaves of the word written (R55 to R74). -/

namespace Sys2Proof.Machine

/-! ## Bits inside a mask -/

theorem and_and_of_mask {m n : Word} (h : m &&& n = m) (v : Word) : v &&& m &&& n = v &&& m := by
  rw [BitVec.and_assoc, h]

theorem and_of_within {k m : Word} (h : k &&& m = k) (v : Word) : k &&& v &&& m = k &&& v := by
  rw [BitVec.and_assoc, BitVec.and_comm v, ← BitVec.and_assoc, h]

/-! ## `mip` (R65, R486 to R489) -/

/-- What `mip` reads as where no bit is set by software: the lines, the timer and the CLINT's bit. -/
def mipLines (s : State) : Word := mipWord { s with mipSw := 0#32 }

theorem mipLines_getLsbD (s : State) {i : Nat} (hi : i < 32) :
    (mipLines s).getLsbD i = ((decide (i = 11) && s.meipLine) || (decide (i = 9) && s.seipLine)
      || (decide (i = 7) && s.mtimecmp.ule s.mtime) || (decide (i = 3) && s.msipBit)) := by
  rw [mipLines, mipWord_getLsbD _ hi]
  interval_cases i <;> simp [interruptOrder, Interrupt.code, mipBit]

/-- `mip` is the software bits and the lines; bit 9 is both (R65). -/
theorem mipWord_eq (s : State) : mipWord s = (s.mipSw &&& mipWriteMask) ||| mipLines s := by
  refine BitVec.eq_of_getLsbD_eq fun i hi => ?_
  rw [BitVec.getLsbD_or, mipLines_getLsbD s hi, mipWord_getLsbD s hi]
  interval_cases i <;> simp [interruptOrder, Interrupt.code, mipBit, mipWriteMask]

/-- The bits of `mip` that are held by software alone: `UEIP`, `STIP`, `UTIP`, `SSIP`, `USIP` (R65). -/
def softwareOnlyMask : Word := 0x00000133#32

theorem mipLines_and_softwareOnly (s : State) : mipLines s &&& softwareOnlyMask = 0#32 := by
  refine BitVec.eq_of_getLsbD_eq fun i hi => ?_
  rw [BitVec.getLsbD_and, mipLines_getLsbD s hi]
  interval_cases i <;> simp [softwareOnlyMask]

/-- A write of software bits through a view shows in `mip` as it was made. -/
theorem mipWord_maskedWrite {mask : Word} (h : mask &&& softwareOnlyMask = mask) (s : State) (v : Word) :
    mipWord { s with mipSw := maskedWrite mask s.mipSw v } = maskedWrite mask (mipWord s) v := by
  have hsame : mipLines { s with mipSw := maskedWrite mask s.mipSw v } = mipLines s := rfl
  have hsoft : softwareOnlyMask &&& mipWriteMask = softwareOnlyMask := by decide
  rw [mipWord_eq, mipWord_eq s, hsame]
  refine BitVec.eq_of_getLsbD_eq fun i hi => ?_
  have hmask := congrArg (·.getLsbD i) h
  have hsoft := congrArg (·.getLsbD i) hsoft
  have hlines := congrArg (·.getLsbD i) (mipLines_and_softwareOnly s)
  simp only [BitVec.getLsbD_and, BitVec.getLsbD_zero] at hmask hsoft hlines
  simp only [BitVec.getLsbD_or, BitVec.getLsbD_and, maskedWrite_getLsbD _ _ _ hi]
  cases hbit : mask.getLsbD i <;> simp_all

/-! ## The views of `mie` and `mip` (R66, R67) -/

theorem midelegBits_and_mieMask (s : State) : s.midelegBits &&& mieMask = s.midelegBits :=
  and_and_of_mask (by decide) s.mideleg

/-- A write of `mie` through a view that shows only bits of `mie`. -/
theorem mieBits_maskedWrite {mask : Word} (h : mask &&& mieMask = mask) (s : State) (v : Word) :
    maskedWrite mask s.mieBits v &&& mieMask &&& mieMask = maskedWrite mask s.mieBits v := by
  rw [and_mask_idem]
  exact maskedWrite_and_of_within h (and_mask_idem s.mie mieMask) v

theorem csrRead_mip_write_sip (s : State) (v : Word) : csrRead (csrWrite v s .sip) .mip =
    maskedWrite (s.midelegBits &&& sipWriteMask) (mipWord s) v := by
  rw [BitVec.and_comm]
  exact mipWord_maskedWrite (and_of_within (by decide) _) s v

theorem csrRead_mip_write_uip (s : State) (v : Word) : csrRead (csrWrite v s .uip) .mip =
    maskedWrite (s.midelegBits &&& s.sidelegBits &&& uipWriteMask) (mipWord s) v := by
  rw [BitVec.and_comm _ uipWriteMask, ← BitVec.and_assoc]
  exact mipWord_maskedWrite (and_of_within (and_of_within (by decide) _) _) s v

/-- Settles O44: each write through a view is a masked write of the register it views. -/
theorem interruptViews : Obligations.InterruptViews := by
  intro s v
  have hS := midelegBits_and_mieMask s
  exact ⟨rfl, mieBits_maskedWrite hS s v, rfl, csrRead_mip_write_sip s v,
    rfl, mieBits_maskedWrite (and_of_within hS _) s v, rfl, csrRead_mip_write_uip s v⟩

/-! ## Pending bits -/

/-- No bit but the nine of R65 reads 1. -/
theorem mipWord_and_not_mieMask (s : State) : mipWord s &&& ~~~mieMask = 0#32 := by
  refine BitVec.eq_of_getLsbD_eq fun i hi => ?_
  rw [BitVec.getLsbD_and, mipWord_getLsbD s hi]
  interval_cases i <;> simp [mieMask, interruptOrder, Interrupt.code]

/-- A write of `mip` sets the six software bits; where a line shares the bit, or holds it alone, the line
still counts. -/
theorem csrRead_mip_write (s : State) (v : Word) :
    csrRead (csrWrite v s .mip) .mip = (v &&& mipWriteMask) ||| mipLines s := by
  show mipWord { s with mipSw := v &&& mipWriteMask } = _
  rw [mipWord_eq]
  exact congrArg (· ||| mipLines s) (and_mask_idem v mipWriteMask)

theorem csrRead_mip_write_getLsbD (s : State) (v : Word) {i : Nat} (hi : i < 32) :
    (csrRead (csrWrite v s .mip) .mip).getLsbD i =
      if i ∈ [0, 1, 4, 5, 8] then v.getLsbD i
      else if i = 9 then v.getLsbD 9 || s.seipLine
      else (mipWord s).getLsbD i := by
  rw [csrRead_mip_write, mipWord_eq, BitVec.getLsbD_or, BitVec.getLsbD_or, mipLines_getLsbD s hi]
  interval_cases i <;> simp [mipWriteMask]

/-- Settles O45: the bits are read one by one; a trap entry changes nothing they are made of. -/
theorem pendingBits : Obligations.PendingBits := by
  have hbit (s : State) (i : Interrupt) : (csrRead s .mip).getLsbD i.code = mipBit s i := by
    rw [csrRead, mipWord_getLsbD s i.code_lt]
    cases i <;> simp [interruptOrder, Interrupt.code]
  refine ⟨fun s => ⟨hbit s .machineExternal, ?_, hbit s .machineSoftware, hbit s .supervisorExternal,
    mipWord_and_not_mieMask s⟩, fun s v i hi => csrRead_mip_write_getLsbD s v hi, fun s i => ?_⟩
  · rw [show (csrRead s .mip).getLsbD 7 = s.mtimecmp.ule s.mtime from hbit s .machineTimer,
      BitVec.ule_iff_toNat_le]
  · rw [takeInterrupt, trapEntry_kept]
    rfl

/-! ## Trap vectors (R54) -/

theorem Tvec.write_of_reserved (t : Tvec) {v : Word} (h : v.getLsbD 1 = true) : t.write v = t :=
  if_pos h

theorem Tvec.toWord_write (t : Tvec) {v : Word} (h : v.getLsbD 1 = false) : (t.write v).toWord = v := by
  rw [Tvec.write, if_neg (Bool.eq_false_iff.1 h), Tvec.toWord]
  refine BitVec.eq_of_getLsbD_eq fun i hi => ?_
  simp only [BitVec.getLsbD_append, BitVec.getLsbD_extractLsb']
  obtain rfl | rfl | ⟨j, rfl⟩ : i = 0 ∨ i = 1 ∨ ∃ j, i = j + 2 := by
    rcases i with _ | _ | j
    · exact .inl rfl
    · exact .inr (.inl rfl)
    · exact .inr (.inr ⟨j, rfl⟩)
  · simp
  · simpa using h.symm
  · have hj : j < 30 := by omega
    simp [hj, Nat.add_comm]

theorem Tvec.toWord_mode (t : Tvec) : t.toWord.extractLsb' 0 2 = 0#1 ++ BitVec.ofBool t.vectored := by
  refine BitVec.eq_of_getLsbD_eq fun i hi => ?_
  simp only [Tvec.toWord, BitVec.getLsbD_extractLsb', BitVec.getLsbD_append]
  interval_cases i <;> simp

theorem Tvec.mode_not_reserved (t : Tvec) : t.toWord.extractLsb' 0 2 ∈ [0b00#2, 0b01#2] := by
  rw [t.toWord_mode]
  cases t.vectored <;> decide

theorem Tvec.baseAddress_eq (t : Tvec) : t.baseAddress = t.toWord &&& 0xFFFFFFFC#32 := by
  refine BitVec.eq_of_getLsbD_eq fun i hi => ?_
  simp only [Tvec.baseAddress, Tvec.toWord, BitVec.getLsbD_and, BitVec.getLsbD_append]
  interval_cases i <;> simp

/-- Settles O46: what holds of a trap vector holds of each of the three. -/
theorem trapVectorWrite : Obligations.TrapVectorWrite := by
  rintro s v c (rfl | rfl | rfl)
  · refine ⟨fun h => ?_, s.mtvec.toWord_write, s.mtvec.mode_not_reserved,
      fun _ => s.mtvec.baseAddress_eq, nofun, nofun⟩
    rw [csrWrite, Tvec.write_of_reserved _ h]
  · refine ⟨fun h => ?_, s.stvec.toWord_write, s.stvec.mode_not_reserved, nofun,
      fun _ => s.stvec.baseAddress_eq, nofun⟩
    rw [csrWrite, Tvec.write_of_reserved _ h]
  · refine ⟨fun h => ?_, s.utvec.toWord_write, s.utvec.mode_not_reserved, nofun, nofun,
      fun _ => s.utvec.baseAddress_eq⟩
    rw [csrWrite, Tvec.write_of_reserved _ h]

/-! ## Registers with hardwired bits (R55, R60 to R64, R68, R69) -/

/-- Settles O47: each of these registers is masked when it is written and when it is read. -/
theorem maskedRegisters : Obligations.MaskedRegisters := by
  intro s v m c hc
  simp only [List.mem_cons, Prod.mk.injEq, List.not_mem_nil, or_false] at hc
  obtain ⟨rfl, rfl⟩ | ⟨rfl, rfl⟩ | ⟨rfl, rfl⟩ | ⟨rfl, rfl⟩ | ⟨rfl, rfl⟩ | ⟨rfl, rfl⟩ | ⟨rfl, rfl⟩ |
      ⟨rfl, rfl⟩ | ⟨rfl, rfl⟩ | ⟨rfl, rfl⟩ | ⟨rfl, rfl⟩ := hc
  all_goals exact ⟨and_mask_idem v _, and_mask_and_not _ _⟩

/-! ## Counters (R70) -/

theorem highWord_append_lowWord (d : DWord) : highWord d ++ lowWord d = d := by
  unfold highWord lowWord
  rw [BitVec.extractLsb'_append_extractLsb'_eq_extractLsb' (by decide)]
  exact BitVec.extractLsb'_eq_self

@[simp] theorem lowWord_append (h l : Word) : lowWord (h ++ l) = l := BitVec.extractLsb'_append_eq_right

@[simp] theorem highWord_append (h l : Word) : highWord (h ++ l) = h := BitVec.extractLsb'_append_eq_left

/-- Settles O48: a counter is its two halves, every other register is the word written. -/
theorem plainRegisters : Obligations.PlainRegisters := by
  intro s v
  refine ⟨fun c hc => ?_, highWord_append_lowWord _, highWord_append_lowWord _,
    highWord_append_lowWord _, rfl, rfl, rfl, rfl, highWord_append _ _, lowWord_append _ _,
    highWord_append _ _, lowWord_append _ _, rfl, rfl, rfl, rfl, rfl, rfl⟩
  simp only [List.mem_cons, List.not_mem_nil, or_false] at hc
  obtain rfl | rfl | rfl | rfl | rfl | rfl | rfl | rfl | rfl | rfl | rfl | rfl | rfl := hc
  iterate 9 rfl
  · exact lowWord_append _ _
  · exact highWord_append _ _
  · exact lowWord_append _ _
  · exact highWord_append _ _

end Sys2Proof.Machine
end

section
/-! The PMP registers (R71, R72, R125), entry by entry and byte by byte, and the frame of a CSR
write (R28, R313). -/

namespace Sys2Proof.Machine

/-! ## One entry of `pmpcfg` -/

theorem pmpCfgAt_of_lt {s : State} {i : Nat} (h : i < 16) :
    s.pmpCfgAt i = if i < s.cfg.pmpEntries.val then s.pmpcfg[i] else PmpCfg.none := by
  simp [State.pmpCfgAt, List.getD, h]

theorem pmpAddrAt_of_lt {s : State} {i : Nat} (h : i < 16) :
    s.pmpAddrAt i = if i < s.cfg.pmpEntries.val then s.pmpaddr[i] else 0#32 := by
  simp [State.pmpAddrAt, List.getD, h]

/-- An entry that does not exist reads as zero (R71). -/
theorem pmpCfgAt_of_absent {s : State} {i : Nat} (h : s.cfg.pmpEntries.val ≤ i) :
    s.pmpCfgAt i = PmpCfg.none := if_neg (by omega)

theorem pmpAddrAt_of_absent {s : State} {i : Nat} (h : s.cfg.pmpEntries.val ≤ i) :
    s.pmpAddrAt i = 0#32 := if_neg (by omega)

@[simp] theorem writePmpCfg_cfg (s : State) (i : Nat) (b : Byte) : (s.writePmpCfg i b).cfg = s.cfg := by
  rw [writePmpCfg_kept]

/-- Entry `i` exists and is not locked: a write of its configuration takes effect (R71, R125). -/
def State.pmpWritable (s : State) (i : Nat) : Bool :=
  i < s.cfg.pmpEntries.val && !(s.pmpCfgAt i).l

theorem State.pmpWritable_iff (s : State) (i : Nat) :
    s.pmpWritable i = true ↔ i < s.cfg.pmpEntries.val ∧ (s.pmpCfgAt i).l = false := by
  simp [State.pmpWritable]

theorem pmpCfgAt_writePmpCfg_same (s : State) {i : Nat} (hi : i < 16) (b : Byte) :
    (s.writePmpCfg i b).pmpCfgAt i = if s.pmpWritable i then PmpCfg.ofByte b else s.pmpCfgAt i := by
  have hdef : s.writePmpCfg i b =
      if s.pmpWritable i then { s with pmpcfg := s.pmpcfg.set i (PmpCfg.ofByte b) hi } else s :=
    dif_pos hi
  rw [hdef]
  split
  · obtain ⟨hlt, -⟩ := (s.pmpWritable_iff i).1 ‹_›
    rw [pmpCfgAt_of_lt hi, if_pos hlt]
    exact Vector.getElem_set_self hi
  · rfl

theorem pmpCfgAt_writePmpCfg_other (s : State) {i j : Nat} (h : j ≠ i) (b : Byte) :
    (s.writePmpCfg i b).pmpCfgAt j = s.pmpCfgAt j := by
  unfold State.writePmpCfg
  split
  · split
    · simp [State.pmpCfgAt, List.getD, h.symm]
    · rfl
  · rfl

theorem pmpWritable_writePmpCfg_other (s : State) {i j : Nat} (h : j ≠ i) (b : Byte) :
    (s.writePmpCfg i b).pmpWritable j = s.pmpWritable j := by
  rw [State.pmpWritable, writePmpCfg_cfg, pmpCfgAt_writePmpCfg_other s h, State.pmpWritable]

/-! ## A `pmpcfg` register -/

/-- An entry of another register is left. -/
theorem pmpCfgAt_writePmpCfgWord_other (s : State) {k i : Nat} (h : i / 4 ≠ k) (v : Word) :
    (s.writePmpCfgWord k v).pmpCfgAt i = s.pmpCfgAt i := by
  unfold State.writePmpCfgWord
  repeat rw [pmpCfgAt_writePmpCfg_other _ (by omega)]

/-- Each of the four fields is written on its own: the writes of the others leave it. -/
theorem pmpCfgAt_writePmpCfgWord_same (s : State) {k j : Nat} (hk : k < 4) (hj : j < 4) (v : Word) :
    (s.writePmpCfgWord k v).pmpCfgAt (4 * k + j) =
      if s.pmpWritable (4 * k + j) then PmpCfg.ofByte (byteOf v j) else s.pmpCfgAt (4 * k + j) := by
  unfold State.writePmpCfgWord
  interval_cases j <;>
    simp (disch := omega) only [pmpCfgAt_writePmpCfg_same, pmpCfgAt_writePmpCfg_other,
      pmpWritable_writePmpCfg_other, Nat.add_zero, byteOf]

theorem csrRead_pmpcfg (s : State) (k : Fin 4) : csrRead s (.pmpcfg k) = s.pmpCfgWord k.val := rfl

/-- The fields of a `pmpcfg` register, the lowest entry in the low byte. -/
theorem byteOf_pmpCfgWord (s : State) (k : Nat) {j : Nat} (hj : j < 4) :
    byteOf (s.pmpCfgWord k) j = (s.pmpCfgAt (4 * k + j)).toByte := by
  unfold State.pmpCfgWord byteOf
  interval_cases j
  · exact BitVec.extractLsb'_append_eq_right
  · rw [BitVec.extractLsb'_append_eq_of_le (by decide), BitVec.extractLsb'_append_eq_right]
  · rw [BitVec.extractLsb'_append_eq_of_le (by decide), BitVec.extractLsb'_append_eq_of_le (by decide),
      BitVec.extractLsb'_append_eq_right]
  · rw [BitVec.extractLsb'_append_eq_of_le (by decide), BitVec.extractLsb'_append_eq_of_le (by decide),
      BitVec.extractLsb'_append_eq_of_le (by decide)]
    exact BitVec.extractLsb'_eq_self

/-! ## The byte of an entry -/

theorem PmpMode.encoding_eq_iff (m n : PmpMode) : m.encoding = n.encoding ↔ m = n := by
  cases m <;> cases n <;> decide

/-- The fields of the byte, from bit 7 down. -/
theorem PmpCfg.toByte_fields (c : PmpCfg) :
    c.toByte.getLsbD 7 = c.l ∧ c.toByte.extractLsb' 5 2 = 0#2 ∧ c.toByte.extractLsb' 3 2 = c.a.encoding ∧
      c.toByte.getLsbD 2 = c.x ∧ c.toByte.getLsbD 1 = c.w ∧ c.toByte.getLsbD 0 = c.r := by
  obtain ⟨l, a, x, w, r⟩ := c
  revert l x w r
  cases a <;> decide

/-- A written byte reads back without bits 6:5. -/
theorem PmpCfg.toByte_ofByte (b : Byte) : (PmpCfg.ofByte b).toByte = b &&& 0x9F#8 := by
  revert b
  decide

/-! ## A `pmpaddr` register -/

theorem pmpAddrAt_writePmpAddr_other (s : State) {i j : Nat} (h : j ≠ i) (v : Word) :
    (s.writePmpAddr i v).pmpAddrAt j = s.pmpAddrAt j := by
  unfold State.writePmpAddr
  split
  · split
    · simp [State.pmpAddrAt, List.getD, h.symm]
    · rfl
  · rfl

/-- A `pmpaddr` register is written where its entry is writable and the next one does not lock it as the
base of its range (R72). -/
theorem pmpAddrAt_writePmpAddr_same (s : State) {i : Nat} (hi : i < 16) (v : Word) :
    (s.writePmpAddr i v).pmpAddrAt i =
      if s.pmpWritable i && !((s.pmpCfgAt (i + 1)).l && decide ((s.pmpCfgAt (i + 1)).a = .tor)) then v
      else s.pmpAddrAt i := by
  have hdef : s.writePmpAddr i v =
      if s.pmpWritable i && !((s.pmpCfgAt (i + 1)).l && decide ((s.pmpCfgAt (i + 1)).a = .tor)) then
        { s with pmpaddr := s.pmpaddr.set i v hi }
      else s := dif_pos hi
  rw [hdef]
  split
  · rename_i hw
    obtain ⟨hlt, -⟩ := (s.pmpWritable_iff i).1 (Bool.and_eq_true_iff.1 hw).1
    rw [pmpAddrAt_of_lt hi, if_pos hlt]
    exact Vector.getElem_set_self hi
  · rfl

/-! ## The statements -/

theorem pmpCfgAt_csrWrite_pmpcfg (s : State) (v : Word) (k : Fin 4) (i : Nat) :
    (csrWrite v s (.pmpcfg k)).pmpCfgAt i =
      if i / 4 = k.val ∧ i < s.cfg.pmpEntries.val ∧ (s.pmpCfgAt i).l = false then
        PmpCfg.ofByte (byteOf v (i % 4))
      else s.pmpCfgAt i := by
  rw [csrWrite]
  by_cases hik : i / 4 = k.val
  · obtain ⟨j, hj, rfl⟩ : ∃ j < 4, i = 4 * k.val + j := ⟨i % 4, by omega, by omega⟩
    rw [pmpCfgAt_writePmpCfgWord_same s k.isLt hj, show (4 * k.val + j) % 4 = j by omega]
    simp only [hik, true_and, State.pmpWritable_iff]
  · rw [pmpCfgAt_writePmpCfgWord_other s hik, if_neg fun h => hik h.1]

theorem pmpAddrAt_csrWrite_pmpaddr (s : State) (v : Word) (k : Fin 16) (i : Nat) :
    (csrWrite v s (.pmpaddr k)).pmpAddrAt i =
      if i = k.val ∧ i < s.cfg.pmpEntries.val ∧ (s.pmpCfgAt i).l = false ∧
          ¬ ((s.pmpCfgAt (i + 1)).l = true ∧ (s.pmpCfgAt (i + 1)).a = .tor) then v
      else s.pmpAddrAt i := by
  rw [csrWrite]
  by_cases hik : i = k.val
  · subst hik
    rw [pmpAddrAt_writePmpAddr_same s k.isLt]
    simp only [Bool.and_eq_true, State.pmpWritable_iff, Bool.not_eq_true', Bool.and_eq_false_iff,
      decide_eq_false_iff_not, true_and, and_assoc, not_and_or, Bool.not_eq_true]
  · rw [pmpAddrAt_writePmpAddr_other s hik, if_neg fun h => hik h.1]

theorem byteOf_csrRead_csrWrite_pmpcfg (s : State) (v : Word) (k : Fin 4) {j : Nat} (hj : j < 4) :
    byteOf (csrRead (csrWrite v s (.pmpcfg k)) (.pmpcfg k)) j =
      if 4 * k.val + j < s.cfg.pmpEntries.val ∧ (s.pmpCfgAt (4 * k.val + j)).l = false then
        byteOf v j &&& 0x9F#8
      else byteOf (csrRead s (.pmpcfg k)) j := by
  simp only [csrRead_pmpcfg, byteOf_pmpCfgWord _ _ hj, csrWrite]
  rw [pmpCfgAt_writePmpCfgWord_same s k.isLt hj, apply_ite PmpCfg.toByte, PmpCfg.toByte_ofByte]
  simp only [State.pmpWritable_iff]

/-- Settles O49: writes entry by entry, reads byte by byte. -/
theorem pmpRegisters : Obligations.PmpRegisters := by
  refine ⟨fun s v k i _ => pmpCfgAt_csrWrite_pmpcfg s v k i,
    fun s v k i _ => pmpAddrAt_csrWrite_pmpaddr s v k i,
    fun s k j hj => byteOf_pmpCfgWord s k hj, fun s k j hj => ?_,
    fun s v k j hj => byteOf_csrRead_csrWrite_pmpcfg s v k hj, fun s i hi => ?_⟩
  · simp only [csrRead_pmpcfg, byteOf_pmpCfgWord s k hj]
    obtain ⟨hl, hzero, ha, hx, hw, hr⟩ := (s.pmpCfgAt (4 * k.val + j)).toByte_fields
    rw [ha]
    exact ⟨hl, hzero, PmpMode.encoding_eq_iff _ .off, PmpMode.encoding_eq_iff _ .tor,
      PmpMode.encoding_eq_iff _ .na4, PmpMode.encoding_eq_iff _ .napot, hx, hw, hr⟩
  · rw [pmpCfgAt_of_absent hi, pmpAddrAt_of_absent hi]
    exact ⟨rfl, rfl⟩

/-! ## The frame of a write -/

/-- Settles O41: the two PMP writes go entry by entry; every other write sets one field. -/
theorem csrWriteFrame : Obligations.CsrWriteFrame := by
  intro s v c
  cases c with
  | pmpcfg k => exact writePmpCfgWord_kept s k.val v
  | pmpaddr i => exact writePmpAddr_kept s i.val v
  | _ => rfl

end Sys2Proof.Machine
end

section
/-! Which CSR accesses are legal (R26, R300, R304 to R309). -/

namespace Sys2Proof.Machine

/-! ## Which CSRs exist (R26, R305) -/

theorem csrOfAddr_eq_some {a : CsrAddr} {c : Csr} : csrOfAddr a = some c ↔ c.addr = a :=
  ⟨addr_of_csrOfAddr, fun h => h ▸ csrOfAddr_addr c⟩

theorem csrAt_eq_some {p : Params} {a : CsrAddr} {c : Csr} :
    csrAt p a = some c ↔ c.addr = a ∧ c.existsOn p = true := by
  rw [← csrOfAddr_eq_some, csrAt]
  cases csrOfAddr a with
  | none => simp
  | some d =>
    simp only [Option.ite_none_right_eq_some, Option.some.injEq]
    constructor
    · rintro ⟨hd, rfl⟩
      exact ⟨rfl, hd⟩
    · rintro ⟨rfl, hd⟩
      exact ⟨hd, rfl⟩

/-- Only the PMP registers can be missing. -/
theorem Csr.existsOn_iff (p : Params) (c : Csr) :
    c.existsOn p = true ↔ (∀ k, c = .pmpcfg k → 4 * k.val < p.pmpEntries.val) ∧
      (∀ i, c = .pmpaddr i → i.val < p.pmpEntries.val) := by
  cases c <;> simp [Csr.existsOn]

/-! ## The checks one by one (R304, R306, R308, R309) -/

theorem csrPrivileged_iff (p : Priv) (a : CsrAddr) :
    csrPrivileged p a = true ↔ (a.extractLsb' 8 2).toNat ≤ p.encoding.toNat := BitVec.ule_iff_toNat_le

theorem csrReadOnly_iff (a : CsrAddr) : csrReadOnly a = true ↔ a.extractLsb' 10 2 = 0b11#2 :=
  decide_eq_true_iff

theorem counterReadable_iff (s : State) (c : Csr) :
    counterReadable s c = true ↔ ∀ b, counterGate c = some b → s.priv ≠ .M →
      s.mcounterenBits.getLsbD b = true ∧ (s.priv = .U → s.scounterenBits.getLsbD b = true) := by
  unfold counterReadable
  cases counterGate c with
  | none => simp
  | some b => cases s.priv <;> simp

theorem satpAccessible_iff (s : State) (c : Csr) :
    satpAccessible s c = true ↔ (c = .satp → s.priv = .S → s.mstatus.tvm = false) := by
  unfold satpAccessible
  by_cases hc : c = .satp
  · by_cases hp : s.priv = .S
    · simp [hc, hp]
    · simp [hp]
  · simp [hc]

/-! ## An illegal access (R300) -/

theorem raisedBy_csrInstr {s : State} {a : CsrAddr} {doesWrite : Bool} (h : csrAccess s a doesWrite = none)
    (w : Word) (op : CsrOp) (rd : Reg) (operand : Word) :
    RaisedBy (csrInstr w op rd a operand doesWrite s) s .illegalInstr w := by
  obtain ⟨-, hraise⟩ | ⟨c, hc, -⟩ := csrInstr_eq w op rd a operand doesWrite s
  · exact hraise
  · rw [h] at hc
    cases hc

/-- The `rd = x0` rule raises the same exception as the access check. -/
theorem raisedBy_csrModify {s : State} {a : CsrAddr} {source : BitVec 5}
    (h : csrAccess s a (decide (source ≠ 0#5)) = none) (w : Word) (op : CsrOp) (rd : Reg)
    (operand : Word) : RaisedBy (csrModify w op rd a operand source s) s .illegalInstr w := by
  unfold csrModify
  split
  · rfl
  · exact raisedBy_csrInstr h w op rd operand

/-- Settles O39: `csrAccess` is its checks, each said in the terms of its rule. -/
theorem csrAccessRule : Obligations.CsrAccessRule := by
  refine ⟨fun s a doesWrite c => ?_, fun s rd rs1 uimm a => ⟨fun h => ⟨?_, ?_⟩, fun h => ⟨?_, ?_⟩,
    fun h => ⟨?_, ?_⟩⟩⟩
  · rw [csrAccess_eq_some, csrAt_eq_some, Csr.existsOn_iff, csrPrivileged_iff, csrReadOnly_iff, not_and,
      counterReadable_iff, satpAccessible_iff]
    simp only [and_assoc]
    rfl
  · exact raisedBy_csrInstr h _ .write rd _
  · exact raisedBy_csrInstr h _ .write rd _
  · exact raisedBy_csrModify h _ .set rd _
  · exact raisedBy_csrModify h _ .clear rd _
  · exact raisedBy_csrModify h _ .set rd _
  · exact raisedBy_csrModify h _ .clear rd _

end Sys2Proof.Machine
end

section
/-! The invariant of the hart's state (R6, R22, R55, R60 to R69), kept by each operation an
instruction is made of, by the platform, and so by every step. -/

namespace Sys2Proof.Machine

/-! ## The invariant, taken apart -/

theorem State.wf_iff (s : State) :
    s.wf = true ↔ s.cfg.wf = true ∧ s.addressesAligned = true ∧ s.hardwiredZero = true ∧
      s.memoryCanonical = true := by
  simp only [State.wf, Bool.and_eq_true, and_assoc]

theorem State.addressesAligned_iff (s : State) :
    s.addressesAligned = true ↔ wordAligned s.pc = true ∧ wordAligned s.mepc = true ∧
      wordAligned s.sepc = true ∧ wordAligned s.uepc = true := by
  simp only [State.addressesAligned, Bool.and_eq_true, and_assoc]

theorem State.pc_aligned_of_wf {s : State} (h : s.wf = true) : wordAligned s.pc = true := by
  obtain ⟨-, haddr, -, -⟩ := s.wf_iff.1 h
  exact (s.addressesAligned_iff.1 haddr).1

/-! ## Operations that keep it -/

@[simp] theorem retire_wf (s : State) : s.retire.wf = s.wf := rfl

@[simp] theorem writeX_wf (s : State) (r : Reg) (v : Word) : (s.writeX r v).wf = s.wf := by
  rw [writeX_eq]
  rfl

theorem setPc_wf {s : State} (h : s.wf = true) {a : Word} (ha : wordAligned a = true) :
    (s.setPc a).wf = true := by
  obtain ⟨hcfg, haddr, hzero, hmem⟩ := s.wf_iff.1 h
  obtain ⟨-, hm, hs, hu⟩ := s.addressesAligned_iff.1 haddr
  exact (State.wf_iff _).2 ⟨hcfg, (State.addressesAligned_iff _).2 ⟨ha, hm, hs, hu⟩, hzero, hmem⟩

theorem physWrite_state_wf {s : State} (h : s.wf = true) (w : Width) (pa : PAddr) (v : Word) :
    (physWrite s w pa v).wf = true := by
  obtain ⟨hcfg, haddr, hzero, hmem⟩ := s.wf_iff.1 h
  refine (State.wf_iff _).2 ⟨?_, ?_, ?_, physWrite_wf hcfg hmem w pa v⟩ <;> rwa [physWrite_kept]

/-- A trap entry saves an aligned address and goes on at the handler's (R22, R420, R425). -/
theorem trapEntry_wf {s : State} (h : s.wf = true) (c : Cause) {epc : Word}
    (he : wordAligned epc = true) (tval : Word) : (trapEntry c epc tval s).wf = true := by
  obtain ⟨hcfg, haddr, hzero, hmem⟩ := s.wf_iff.1 h
  obtain ⟨-, hm, hs, hu⟩ := s.addressesAligned_iff.1 haddr
  have hsaved : (trapEntry c epc tval s).addressesAligned = true := by
    rw [State.addressesAligned_iff, trapEntry_pc]
    refine ⟨trapVector_aligned s _ c, ?_⟩
    unfold trapEntry
    cases targetMode s c with
    | M => exact ⟨he, hs, hu⟩
    | S => exact ⟨hm, he, hu⟩
    | U => exact ⟨hm, hs, he⟩
  refine (State.wf_iff _).2 ⟨?_, hsaved, ?_, ?_⟩ <;> rwa [trapEntry_kept]

/-- A return goes on at a saved address, whose low bits read 0 (R55, R320). -/
theorem trapReturn_wf {s : State} (h : s.wf = true) (x : Priv) : (trapReturn x s).wf = true := by
  have hpc := setPc_wf h (epcOf_aligned s x)
  rw [trapReturn_kept]
  exact hpc

theorem csrUpdate_wf {s : State} (h : s.wf = true) (op : CsrOp) (c : Csr) (operand : Word)
    (doesWrite : Bool) : (csrUpdate op c operand doesWrite s).wf = true := by
  unfold csrUpdate
  split
  · exact csrWrite_wf h _ c
  · exact h

/-- The end of a CSR instruction moves to the next one, and at most counts (R300, R70). -/
theorem completeCsr_kept {s t : State} {c : Csr} {doesWrite : Bool}
    (ht : completeCsr c doesWrite s = .next t) :
    t = { s with pc := s.pc + 4#32, minstret := t.minstret } := by
  rw [completeCsr_eq] at ht
  cases ht
  split <;> rfl

theorem completeCsr_wf {s t : State} (h : s.wf = true) {c : Csr} {doesWrite : Bool}
    (ht : completeCsr c doesWrite s = .next t) : t.wf = true := by
  have hpc := setPc_wf h (wordAligned_add_four (State.pc_aligned_of_wf h))
  rw [completeCsr_kept ht]
  exact hpc

theorem ExecCase.wf {s t : State} (ht : ExecCase s t) (h : s.wf = true) : t.wf = true := by
  have hpc := State.pc_aligned_of_wf h
  cases ht with
  | trapped e tval => exact trapEntry_wf h _ hpc tval
  | wrote rd v a ha =>
    rw [retire_wf]
    exact setPc_wf (by rwa [writeX_wf]) (ha hpc)
  | stored w va pa v hpa => exact setPc_wf (physWrite_state_wf h w pa v) (wordAligned_add_four hpc)
  | csr a c op operand doesWrite rd hc _ ht =>
    exact completeCsr_wf (by rw [writeX_wf]; exact csrUpdate_wf h op c operand doesWrite) ht
  | returned x hx => exact trapReturn_wf h x
  | waited => exact setPc_wf (s := { s with wfiStalled := true }) h (wordAligned_add_four hpc)

/-! ## The platform -/

theorem platform_wf {s : State} (h : s.wf = true) : (platform s).wf = true := by
  obtain ⟨hcfg, haddr, hzero, hmem⟩ := s.wf_iff.1 h
  refine (State.wf_iff _).2 ⟨?_, ?_, ?_, ?_⟩
  · rwa [platform_cfg]
  · rwa [platform_kept]
  · rwa [platform_kept]
  · exact agentWrites_memoryCanonical (nextInput s).writes (s := sampled s) hcfg hmem

theorem awake_wf {s : State} (h : s.wf = true) : (awake s).wf = true := platform_wf (s := s) h

/-! ## The parameters (R6) -/

@[simp] theorem awake_cfg (s : State) : (awake s).cfg = s.cfg := platform_cfg s

theorem ExecCase.cfg {s t : State} (ht : ExecCase s t) : t.cfg = s.cfg := by
  cases ht with
  | trapped e tval => exact trapEntry_cfg _ _ _ s
  | wrote rd v a ha => exact writeX_cfg s v rd
  | stored w va pa v hpa => exact physWrite_cfg s w pa v
  | csr a c op operand doesWrite rd hc _ ht =>
    rw [completeCsr_kept ht]
    exact (writeX_cfg _ _ rd).trans (csrUpdate_frame op c operand doesWrite s).cfg
  | returned x hx => cases x <;> rfl
  | waited => rfl

/-! ## One step -/

/-- What a step did, in terms of the state after the platform: nothing (the hart stays stalled), a trap or
an interrupt, or one instruction. -/
theorem step_cases_awake {s t : State} (h : step s = .next t) :
    t = platform s ∨ (∃ c tval, t = trapEntry c s.pc tval (awake s)) ∨
      ∃ w i, fetch (awake s) = .word w ∧ decode w = .ok i ∧ exec i (awake s) = .next t := by
  obtain ⟨-, -, rfl⟩ | ⟨i, -, rfl⟩ | ⟨-, ⟨r, -, rfl⟩ | ⟨w, e, -, -, rfl⟩ | hrun⟩ := step_cases h
  · exact .inl rfl
  · exact .inr (.inl ⟨.interrupt i, 0#32, by rw [takeInterrupt, awake_pc]⟩)
  · exact .inr (.inl ⟨_, _, by rw [awake_pc]⟩)
  · exact .inr (.inl ⟨_, _, by rw [awake_pc]⟩)
  · exact .inr (.inr hrun)

theorem execCase_of_exec {i : Instr} {s t : State} (h : exec i s = .next t) : ExecCase s t := by
  obtain ⟨u, hu, hcase⟩ := exec_cases i s
  rw [h] at hu
  cases hu
  exact hcase

/-- Settles O58: each of the things a step can be keeps the invariant and the parameters. -/
theorem invariantKept : Obligations.InvariantKept := by
  intro s t h hstep
  have ha := awake_wf h
  obtain rfl | ⟨c, tval, rfl⟩ | ⟨w, i, -, -, hexec⟩ := step_cases_awake hstep
  · exact ⟨platform_wf h, platform_cfg s⟩
  · exact ⟨trapEntry_wf ha c (State.pc_aligned_of_wf h) tval, by rw [trapEntry_cfg, awake_cfg]⟩
  · have hcase := execCase_of_exec hexec
    exact ⟨hcase.wf ha, by rw [hcase.cfg, awake_cfg]⟩

end Sys2Proof.Machine
end

section
/-! Who may change the mode (R23, R421). An instruction other than the three returns traps or
keeps it; a return lowers it or keeps it. -/

namespace Sys2Proof.Machine

theorem Priv.below_asymm {p q : Priv} (h : p.below q = true) : q.below p = false := by
  revert h
  cases p <;> cases q <;> decide

theorem Priv.ne_of_below {p q : Priv} (h : p.below q = true) : q ≠ p := by
  rintro rfl
  exact Bool.false_ne_true ((below_asymm h).symm.trans h)

/-! ## Instructions that keep the mode -/

/-- The outcome is an exception taken, or a next state in the mode of `s`. -/
def TrapsOrKeepsMode (s : State) (out : Out) : Prop :=
  (∃ e tval, out = raise e tval s) ∨ ∃ t, out = .next t ∧ t.priv = s.priv

theorem raise_trapsOrKeepsMode (e : Exc) (tval : Word) (s : State) :
    TrapsOrKeepsMode s (raise e tval s) := .inl ⟨e, tval, rfl⟩

theorem complete_trapsOrKeepsMode {s t : State} (h : t.priv = s.priv) :
    TrapsOrKeepsMode s (complete t) := .inr ⟨_, rfl, h⟩

theorem writeResult_trapsOrKeepsMode (w : Word) (rd : Reg) (v : Word) (s : State) :
    TrapsOrKeepsMode s (writeResult w rd v s) := by
  unfold writeResult
  split
  · exact raise_trapsOrKeepsMode _ _ s
  · exact complete_trapsOrKeepsMode (writeX_priv s v rd)

theorem jumpAndLink_trapsOrKeepsMode (rd : Reg) (a : Word) (s : State) :
    TrapsOrKeepsMode s (jumpAndLink rd a s) := by
  unfold jumpAndLink
  split
  · exact .inr ⟨_, rfl, writeX_priv s _ rd⟩
  · exact raise_trapsOrKeepsMode _ _ s

theorem branch_trapsOrKeepsMode (taken : Bool) (off : BitVec 13) (s : State) :
    TrapsOrKeepsMode s (branch taken off s) := by
  unfold branch
  split
  · split
    · exact .inr ⟨_, rfl, rfl⟩
    · exact raise_trapsOrKeepsMode _ _ s
  · exact complete_trapsOrKeepsMode rfl

theorem load_trapsOrKeepsMode (word : Word) (w : Width) (ext : Word → Word) (rd rs1 : Reg)
    (imm : BitVec 12) (s : State) : TrapsOrKeepsMode s (load word w ext rd rs1 imm s) := by
  unfold load
  split
  · exact raise_trapsOrKeepsMode _ _ s
  · split
    · exact raise_trapsOrKeepsMode _ _ s
    · exact complete_trapsOrKeepsMode (writeX_priv s _ rd)

theorem store_trapsOrKeepsMode (w : Width) (rs2 rs1 : Reg) (imm : BitVec 12) (s : State) :
    TrapsOrKeepsMode s (store w rs2 rs1 imm s) := by
  unfold store
  rw [memWrite_eq]
  cases resolve s .store w (effectiveAddress (s.readX rs1) imm) with
  | error r => exact raise_trapsOrKeepsMode _ _ s
  | ok pa => exact complete_trapsOrKeepsMode (physWrite_priv s w pa _)

theorem csrInstr_trapsOrKeepsMode (w : Word) (op : CsrOp) (rd : Reg) (a : CsrAddr) (operand : Word)
    (doesWrite : Bool) (s : State) : TrapsOrKeepsMode s (csrInstr w op rd a operand doesWrite s) := by
  obtain ⟨-, h⟩ | ⟨c, -, h⟩ := csrInstr_eq w op rd a operand doesWrite s
  · exact .inl ⟨_, _, h⟩
  · rw [h, completeCsr_eq]
    refine .inr ⟨_, rfl, ?_⟩
    have hwrite := (csrUpdate_frame op c operand doesWrite s).priv
    split <;> simpa using hwrite

theorem csrModify_trapsOrKeepsMode (w : Word) (op : CsrOp) (rd : Reg) (a : CsrAddr) (operand : Word)
    (source : BitVec 5) (s : State) : TrapsOrKeepsMode s (csrModify w op rd a operand source s) := by
  unfold csrModify
  split
  · exact raise_trapsOrKeepsMode _ _ s
  · exact csrInstr_trapsOrKeepsMode _ _ _ _ _ _ s

theorem execWfi_trapsOrKeepsMode (s : State) : TrapsOrKeepsMode s (execWfi s) := by
  unfold execWfi
  split
  · exact raise_trapsOrKeepsMode _ _ s
  · exact complete_trapsOrKeepsMode rfl

theorem execSfenceVma_trapsOrKeepsMode (rs1 rs2 : Reg) (s : State) :
    TrapsOrKeepsMode s (execSfenceVma rs1 rs2 s) := by
  unfold execSfenceVma
  split
  · exact complete_trapsOrKeepsMode rfl
  · split
    · exact raise_trapsOrKeepsMode _ _ s
    · exact complete_trapsOrKeepsMode rfl
  · exact raise_trapsOrKeepsMode _ _ s

/-- The three returns (R320). -/
def IsTrapReturn (i : Instr) : Prop := i = .mret ∨ i = .sret ∨ i = .uret

theorem exec_trapsOrKeepsMode {i : Instr} (h : ¬ IsTrapReturn i) (s : State) :
    TrapsOrKeepsMode s (exec i s) := by
  cases i with
  | mret => exact absurd (.inl rfl) h
  | sret => exact absurd (.inr (.inl rfl)) h
  | uret => exact absurd (.inr (.inr rfl)) h
  | wfi => exact execWfi_trapsOrKeepsMode s
  | sfenceVma rs1 rs2 => exact execSfenceVma_trapsOrKeepsMode rs1 rs2 s
  | fence => exact complete_trapsOrKeepsMode rfl
  | ecall | ebreak => exact raise_trapsOrKeepsMode _ _ s
  | jal | jalr => exact jumpAndLink_trapsOrKeepsMode _ _ s
  | beq | bne | blt | bge | bltu | bgeu => exact branch_trapsOrKeepsMode _ _ s
  | lb | lh | lw | lbu | lhu => exact load_trapsOrKeepsMode _ _ _ _ _ _ s
  | sb | sh | sw => exact store_trapsOrKeepsMode _ _ _ _ s
  | csrrw | csrrwi => exact csrInstr_trapsOrKeepsMode _ _ _ _ _ _ s
  | csrrs | csrrc | csrrsi | csrrci => exact csrModify_trapsOrKeepsMode _ _ _ _ _ _ s
  | lui | auipc => exact writeResult_trapsOrKeepsMode _ _ _ s
  | addi | slti | sltiu | xori | ori | andi => exact writeResult_trapsOrKeepsMode _ _ _ s
  | slli | srli | srai => exact writeResult_trapsOrKeepsMode _ _ _ s
  | add | sub | sll | slt | sltu | xor | srl | sra | or | and =>
    exact writeResult_trapsOrKeepsMode _ _ _ s

/-! ## All instructions -/

/-- A return that is not above the current mode does not raise it (R321 to R323). -/
theorem trapReturn_priv {x : Priv} {s : State} (hx : s.priv.below x = false) :
    (trapReturn x s).priv = s.priv ∨ (trapReturn x s).priv.below s.priv = true := by
  have htop (p : Priv) : p = .M ∨ p.below .M = true := by cases p <;> decide
  have hbottom (p : Priv) : .U = p ∨ Priv.U.below p = true := by cases p <;> decide
  cases x with
  | M =>
    have hM : s.priv = .M := (htop s.priv).resolve_right (by simp [hx])
    rw [hM]
    exact htop s.mstatus.mpp
  | S =>
    have hS : .S = s.priv ∨ Priv.S.below s.priv = true := by
      revert hx
      cases s.priv <;> decide
    simp only [trapReturn]
    split
    · exact hS
    · exact hbottom s.priv
  | U => exact hbottom s.priv

theorem ExecCase.mode_cases {s t : State} (h : ExecCase s t) :
    (∃ e tval, t = trapEntry (.exception e) s.pc tval s) ∨ t.priv = s.priv ∨
      t.priv.below s.priv = true := by
  cases h with
  | trapped e tval => exact .inl ⟨e, tval, rfl⟩
  | wrote rd v a ha => exact .inr (.inl (writeX_priv s v rd))
  | stored w va pa v hpa => exact .inr (.inl (physWrite_priv s w pa v))
  | csr a c op operand doesWrite rd hc _ ht =>
    refine .inr (.inl ?_)
    rw [completeCsr_kept ht]
    exact (writeX_priv _ _ rd).trans (csrUpdate_frame op c operand doesWrite s).priv
  | returned x hx => exact .inr (trapReturn_priv hx)
  | waited => exact .inr (.inl rfl)

theorem exec_mode_changed {i : Instr} {s t : State} (h : exec i s = .next t) (hp : t.priv ≠ s.priv) :
    (∃ e tval, t = trapEntry (.exception e) s.pc tval s) ∨
      (IsTrapReturn i ∧ t.priv.below s.priv = true) := by
  by_cases hi : IsTrapReturn i
  · obtain htrap | hsame | hbelow := (execCase_of_exec h).mode_cases
    · exact .inl htrap
    · exact absurd hsame hp
    · exact .inr ⟨hi, hbelow⟩
  · obtain ⟨e, tval, hraise⟩ | ⟨u, hu, hsame⟩ := exec_trapsOrKeepsMode hi s
    · rw [h] at hraise
      cases hraise
      exact .inl ⟨e, tval, rfl⟩
    · rw [h] at hu
      cases hu
      exact absurd hsame hp

/-! ## A step -/

@[simp] theorem awake_priv (s : State) : (awake s).priv = s.priv := platform_priv s

theorem step_mode_changed {s t : State} (h : step s = .next t) (hp : t.priv ≠ s.priv) :
    (∃ c tval, t = trapEntry c s.pc tval (awake s)) ∨
      (t.priv.below s.priv = true ∧ ∃ w i, fetch (awake s) = .word w ∧ decode w = .ok i ∧
        IsTrapReturn i ∧ exec i (awake s) = .next t) := by
  obtain rfl | htrap | ⟨w, i, hw, hi, hexec⟩ := step_cases_awake h
  · exact absurd (platform_priv s) hp
  · exact .inl htrap
  · obtain ⟨e, tval, ht⟩ | ⟨hret, hbelow⟩ := exec_mode_changed hexec (by rwa [awake_priv])
    · exact .inl ⟨_, tval, by rw [ht, awake_pc]⟩
    · exact .inr ⟨by rwa [awake_priv] at hbelow, w, i, hw, hi, hret, hexec⟩

/-- Settles O59: a raised mode is a changed one, and a return does not raise it. -/
theorem modeChanges : Obligations.ModeChanges := by
  refine ⟨fun i s t => exec_mode_changed, fun s t => step_mode_changed, fun s t h hraised => ?_⟩
  obtain htrap | ⟨hlowered, -⟩ := step_mode_changed h (Priv.ne_of_below hraised)
  · exact htrap
  · exact absurd hlowered (by simp [Priv.below_asymm hraised])

end Sys2Proof.Machine
end

section
/-! What a mode cannot change (R27, R306, R411, R412). The registers of a mode are gathered in a
view of the state; each operation open to a lower mode leaves the view. -/

namespace Sys2Proof.Machine

/-! ## The registers of a mode -/

/-- The fields of `mstatus` only machine mode may write, the others at zero. -/
def Mstatus.machineFields (m : Mstatus) : Mstatus :=
  { Mstatus.reset with
    tsr := m.tsr, tw := m.tw, tvm := m.tvm, mprv := m.mprv, mpp := m.mpp, mpie := m.mpie, mie := m.mie }

/-- The fields of `mstatus` that `sstatus` shows and `ustatus` does not, the others at zero. -/
def Mstatus.supervisorFields (m : Mstatus) : Mstatus :=
  { Mstatus.reset with mxr := m.mxr, sum := m.sum, spp := m.spp, spie := m.spie, sie := m.sie }

/-- The registers `MachineKept` speaks of, every other register at its reset value. -/
def machineView (s : State) : State :=
  { State.resetWith s.cfg with
    mstatus := s.mstatus.machineFields, mtvec := s.mtvec, mepc := s.mepc, mcause := s.mcause,
    mtval := s.mtval, medeleg := s.medeleg, mideleg := s.mideleg, mcounteren := s.mcounteren,
    mscratch := s.mscratch, pmpcfg := s.pmpcfg, pmpaddr := s.pmpaddr }

/-- The registers `SupervisorKept` speaks of, every other register at its reset value. -/
def supervisorView (s : State) : State :=
  { State.reset with
    mstatus := s.mstatus.supervisorFields, stvec := s.stvec, sepc := s.sepc, scause := s.scause,
    stval := s.stval, sedeleg := s.sedeleg, sideleg := s.sideleg, scounteren := s.scounteren,
    sscratch := s.sscratch, satp := s.satp }

/-- All the registers of the two views, every other register at its reset value. -/
def systemView (s : State) : State :=
  { State.resetWith s.cfg with
    mstatus := s.mstatus, mtvec := s.mtvec, mepc := s.mepc, mcause := s.mcause, mtval := s.mtval,
    medeleg := s.medeleg, mideleg := s.mideleg, mcounteren := s.mcounteren, mscratch := s.mscratch,
    pmpcfg := s.pmpcfg, pmpaddr := s.pmpaddr, stvec := s.stvec, sepc := s.sepc, scause := s.scause,
    stval := s.stval, sedeleg := s.sedeleg, sideleg := s.sideleg, scounteren := s.scounteren,
    sscratch := s.sscratch, satp := s.satp }

theorem machineView_of_systemView {s t : State} (h : systemView t = systemView s) :
    machineView t = machineView s := by
  have hview := congrArg machineView h
  exact hview

theorem supervisorView_of_systemView {s t : State} (h : systemView t = systemView s) :
    supervisorView t = supervisorView s := by
  have hview := congrArg supervisorView h
  exact hview

theorem machineKept_of_view {s t : State} (h : machineView t = machineView s) : MachineKept s t := by
  have field {α : Type} (f : State → α) : f (machineView t) = f (machineView s) := congrArg f h
  exact
    { cfg := field (·.cfg)
      statusFields := ⟨field (·.mstatus.tsr), field (·.mstatus.tw), field (·.mstatus.tvm),
        field (·.mstatus.mprv), field (·.mstatus.mpp), field (·.mstatus.mpie), field (·.mstatus.mie)⟩
      trapRegisters := ⟨field (·.mtvec), field (·.mepc), field (·.mcause), field (·.mtval)⟩
      delegation := ⟨field (·.medeleg), field (·.mideleg)⟩
      counters := field (·.mcounteren)
      scratch := field (·.mscratch)
      protection := ⟨field (·.pmpcfg), field (·.pmpaddr)⟩ }

theorem supervisorKept_of_view {s t : State} (h : supervisorView t = supervisorView s) :
    SupervisorKept s t := by
  have field {α : Type} (f : State → α) : f (supervisorView t) = f (supervisorView s) := congrArg f h
  exact
    { statusFields := ⟨field (·.mstatus.mxr), field (·.mstatus.sum), field (·.mstatus.spp),
        field (·.mstatus.spie), field (·.mstatus.sie)⟩
      trapRegisters := ⟨field (·.stvec), field (·.sepc), field (·.scause), field (·.stval)⟩
      delegation := ⟨field (·.sedeleg), field (·.sideleg)⟩
      counters := field (·.scounteren)
      scratch := field (·.sscratch)
      translation := field (·.satp) }

/-! ## Writes of `mstatus` through its views (R52, R53) -/

/-- The bits `Mstatus.machineFields` is made of. -/
def machineFieldsMask : Word := 0x00721888#32

/-- The bits `Mstatus.supervisorFields` is made of. -/
def supervisorFieldsMask : Word := 0x000C0122#32

/-- Writing back what is read changes nothing. -/
theorem Mstatus.write_toWord (m : Mstatus) : m.write m.toWord = m := by
  simp (disch := decide) only [Mstatus.write, Mstatus.toWord_mpp, Priv.ofEncoding_encoding,
    Option.getD_some, Mstatus.toWord_getLsbD]
  simp

/-- The machine-mode fields a write leaves depend on their own bits alone. -/
theorem Mstatus.machineFields_write (m : Mstatus) (v : Word) :
    (m.write v).machineFields = (m.write (v &&& machineFieldsMask)).machineFields := by
  have hmpp : (v &&& machineFieldsMask).extractLsb' 11 2 = v.extractLsb' 11 2 := by
    rw [BitVec.extractLsb'_and]
    exact BitVec.and_allOnes
  simp only [Mstatus.machineFields, Mstatus.write, hmpp]
  simp [machineFieldsMask]

theorem Mstatus.supervisorFields_write (m : Mstatus) (v : Word) :
    (m.write v).supervisorFields = (m.write (v &&& supervisorFieldsMask)).supervisorFields := by
  simp [Mstatus.supervisorFields, Mstatus.write, supervisorFieldsMask]

/-- A masked write leaves the bits outside its mask. -/
theorem maskedWrite_and_of_disjoint {mask n : Word} (h : mask &&& n = 0#32) (old v : Word) :
    maskedWrite mask old v &&& n = old &&& n := by
  refine BitVec.eq_of_getLsbD_eq fun i hi => ?_
  have h := congrArg (·.getLsbD i) h
  simp only [BitVec.getLsbD_and, BitVec.getLsbD_zero] at h ⊢
  rw [maskedWrite_getLsbD _ _ _ hi]
  cases hbit : mask.getLsbD i <;> simp_all

theorem Mstatus.machineFields_write_masked (m : Mstatus) {mask : Word}
    (h : mask &&& machineFieldsMask = 0#32) (v : Word) :
    (m.write (maskedWrite mask m.toWord v)).machineFields = m.machineFields := by
  rw [Mstatus.machineFields_write, maskedWrite_and_of_disjoint h, ← Mstatus.machineFields_write,
    Mstatus.write_toWord]

theorem Mstatus.supervisorFields_write_masked (m : Mstatus) {mask : Word}
    (h : mask &&& supervisorFieldsMask = 0#32) (v : Word) :
    (m.write (maskedWrite mask m.toWord v)).supervisorFields = m.supervisorFields := by
  rw [Mstatus.supervisorFields_write, maskedWrite_and_of_disjoint h, ← Mstatus.supervisorFields_write,
    Mstatus.write_toWord]

/-! ## CSR writes (R27, R306) -/

/-- The lowest mode that may access a CSR, as its address says: `addr[9:8]` (R27). -/
def Csr.level (c : Csr) : BitVec 2 := c.addr.extractLsb' 8 2

theorem Csr.level_pmpcfg (k : Fin 4) : (Csr.pmpcfg k).level = 0b11#2 := by
  revert k
  decide

theorem Csr.level_pmpaddr (i : Fin 16) : (Csr.pmpaddr i).level = 0b11#2 := by
  revert i
  decide

/-- A legal access is to a CSR of the current mode or a lower one. -/
theorem level_le_of_csrAccess {s : State} {a : CsrAddr} {doesWrite : Bool} {c : Csr}
    (h : csrAccess s a doesWrite = some c) : c.level.ule s.priv.encoding = true := by
  obtain ⟨hat, hpriv, -⟩ := csrAccess_eq_some.1 h
  rw [Csr.level, (csrAt_eq_some.1 hat).1]
  exact hpriv

theorem level_ne_machine {s : State} {c : Csr} (h : c.level.ule s.priv.encoding = true)
    (hp : s.priv ≠ .M) : c.level ≠ 0b11#2 := by
  intro hc
  rw [hc] at h
  revert h hp
  cases s.priv <;> decide

theorem level_eq_user {s : State} {c : Csr} (h : c.level.ule s.priv.encoding = true)
    (hp : s.priv = .U) : c.level = 0b00#2 := by
  rw [hp] at h
  revert h
  generalize c.level = l
  revert l
  decide

/-- A write of a CSR below machine level leaves the machine registers. -/
theorem csrWrite_machineView {c : Csr} (h : c.level ≠ 0b11#2) (v : Word) (s : State) :
    machineView (csrWrite v s c) = machineView s := by
  cases c with
  | pmpcfg k => exact absurd (Csr.level_pmpcfg k) h
  | pmpaddr i => exact absurd (Csr.level_pmpaddr i) h
  | sstatus =>
    simp only [machineView, csrWrite, s.mstatus.machineFields_write_masked (mask := sstatusMask) (by decide)]
  | ustatus =>
    simp only [machineView, csrWrite, s.mstatus.machineFields_write_masked (mask := ustatusMask) (by decide)]
  | mstatus | medeleg | mideleg | mie | mtvec | mcounteren | mscratch | mepc | mcause | mtval | mip =>
    exact absurd rfl h
  | _ => rfl

/-- A write of a CSR at user level leaves the supervisor registers too. -/
theorem csrWrite_supervisorView {c : Csr} (h : c.level = 0b00#2) (v : Word) (s : State) :
    supervisorView (csrWrite v s c) = supervisorView s := by
  cases c with
  | pmpcfg k => exact absurd (h.symm.trans (Csr.level_pmpcfg k)) (by decide)
  | pmpaddr i => exact absurd (h.symm.trans (Csr.level_pmpaddr i)) (by decide)
  | ustatus =>
    simp only [supervisorView, csrWrite,
      s.mstatus.supervisorFields_write_masked (mask := ustatusMask) (by decide)]
  | sstatus | mstatus | stvec | sepc | scause | stval | sedeleg | sideleg | scounteren | sscratch | satp =>
    exact absurd h (by decide)
  | _ => rfl

/-! ## Operations that leave the system registers -/

theorem writeX_systemView (s : State) (r : Reg) (v : Word) :
    systemView (s.writeX r v) = systemView s := by
  rw [writeX_eq]
  rfl

theorem physWrite_systemView (s : State) (w : Width) (pa : PAddr) (v : Word) :
    systemView (physWrite s w pa v) = systemView s := by
  rw [physWrite_kept]
  rfl

theorem completeCsr_systemView {s t : State} {c : Csr} {doesWrite : Bool}
    (ht : completeCsr c doesWrite s = .next t) : systemView t = systemView s := by
  rw [completeCsr_kept ht]
  rfl

theorem platform_systemView (s : State) : systemView (platform s) = systemView s := by
  rw [platform_kept]
  rfl

theorem awake_systemView (s : State) : systemView (awake s) = systemView s := platform_systemView s

/-! ## Traps and returns -/

/-- A trap into a handler below machine mode writes no machine register (R420). -/
theorem trapEntry_machineView {c : Cause} {epc tval : Word} {s : State}
    (h : (trapEntry c epc tval s).priv ≠ .M) : machineView (trapEntry c epc tval s) = machineView s := by
  rw [trapEntry_priv] at h
  unfold trapEntry
  cases hx : targetMode s c with
  | M => exact absurd hx h
  | S => rfl
  | U => rfl

theorem trapEntry_supervisorView {c : Cause} {epc tval : Word} {s : State}
    (h : (trapEntry c epc tval s).priv = .U) :
    supervisorView (trapEntry c epc tval s) = supervisorView s := by
  rw [trapEntry_priv] at h
  unfold trapEntry
  rw [h]
  rfl

theorem trapReturn_machineView {x : Priv} {s : State} (hx : s.priv.below x = false) (hs : s.priv ≠ .M) :
    machineView (trapReturn x s) = machineView s := by
  cases x with
  | M => exact absurd hx (by revert hs; cases s.priv <;> decide)
  | S => rfl
  | U => rfl

theorem trapReturn_supervisorView {x : Priv} {s : State} (hx : s.priv.below x = false)
    (hs : s.priv = .U) : supervisorView (trapReturn x s) = supervisorView s := by
  rw [hs] at hx
  cases x with
  | M => exact absurd hx (by decide)
  | S => exact absurd hx (by decide)
  | U => rfl

/-! ## One instruction -/

/-- What an instruction can do to the system registers: a trap, a return, one CSR write of the current
mode's or a lower level, or nothing. -/
theorem ExecCase.systemView_cases {s t : State} (h : ExecCase s t) :
    (∃ e tval, t = trapEntry (.exception e) s.pc tval s) ∨
      (∃ x, s.priv.below x = false ∧ systemView t = systemView (trapReturn x s)) ∨
      (∃ c v, c.level.ule s.priv.encoding = true ∧ systemView t = systemView (csrWrite v s c)) ∨
      systemView t = systemView s := by
  cases h with
  | trapped e tval => exact .inl ⟨e, tval, rfl⟩
  | wrote rd v a ha => exact .inr (.inr (.inr (writeX_systemView s rd v)))
  | stored w va pa v hpa => exact .inr (.inr (.inr (physWrite_systemView s w pa v)))
  | csr a c op operand doesWrite rd hc _ hend =>
    rw [completeCsr_systemView hend, writeX_systemView, csrUpdate]
    split
    · exact .inr (.inr (.inl ⟨c, _, level_le_of_csrAccess hc, rfl⟩))
    · exact .inr (.inr (.inr rfl))
  | returned x hx => exact .inr (.inl ⟨x, hx, rfl⟩)
  | waited => exact .inr (.inr (.inr rfl))

theorem ExecCase.machineView_eq {s t : State} (h : ExecCase s t) (hs : s.priv ≠ .M) (ht : t.priv ≠ .M) :
    machineView t = machineView s := by
  obtain ⟨e, tval, rfl⟩ | ⟨x, hx, hview⟩ | ⟨c, v, hlevel, hview⟩ | hview := h.systemView_cases
  · exact trapEntry_machineView ht
  · rw [machineView_of_systemView hview, trapReturn_machineView hx hs]
  · rw [machineView_of_systemView hview, csrWrite_machineView (level_ne_machine hlevel hs)]
  · exact machineView_of_systemView hview

theorem ExecCase.supervisorView_eq {s t : State} (h : ExecCase s t) (hs : s.priv = .U)
    (ht : t.priv = .U) : supervisorView t = supervisorView s := by
  obtain ⟨e, tval, rfl⟩ | ⟨x, hx, hview⟩ | ⟨c, v, hlevel, hview⟩ | hview := h.systemView_cases
  · exact trapEntry_supervisorView ht
  · rw [supervisorView_of_systemView hview, trapReturn_supervisorView hx hs]
  · rw [supervisorView_of_systemView hview, csrWrite_supervisorView (level_eq_user hlevel hs)]
  · exact supervisorView_of_systemView hview

/-! ## One step -/

theorem step_machineView {s t : State} (h : step s = .next t) (hs : s.priv ≠ .M) (ht : t.priv ≠ .M) :
    machineView t = machineView s := by
  have hawake := machineView_of_systemView (awake_systemView s)
  obtain rfl | ⟨c, tval, rfl⟩ | ⟨w, i, -, -, hexec⟩ := step_cases_awake h
  · exact machineView_of_systemView (platform_systemView s)
  · rw [trapEntry_machineView ht, hawake]
  · rw [(execCase_of_exec hexec).machineView_eq (by rwa [awake_priv]) ht, hawake]

theorem step_supervisorView {s t : State} (h : step s = .next t) (hs : s.priv = .U) (ht : t.priv = .U) :
    supervisorView t = supervisorView s := by
  have hawake := supervisorView_of_systemView (awake_systemView s)
  obtain rfl | ⟨c, tval, rfl⟩ | ⟨w, i, -, -, hexec⟩ := step_cases_awake h
  · exact supervisorView_of_systemView (platform_systemView s)
  · rw [trapEntry_supervisorView ht, hawake]
  · rw [(execCase_of_exec hexec).supervisorView_eq (by rwa [awake_priv]) ht, hawake]

/-- Settles O60: the registers of a mode are a view of the state, which every step that starts and ends
below the mode leaves. -/
theorem privilegeIsolation : Obligations.PrivilegeIsolation := fun _ _ h =>
  ⟨fun hs ht => machineKept_of_view (step_machineView h hs ht),
    fun hs ht => supervisorKept_of_view (step_supervisorView h hs ht)⟩

end Sys2Proof.Machine
end

section
/-! Physical memory: what stands at an address (R101), how the bytes of an access make a word (R102), how the
CLINT's registers read (R487, R488), and what a store of several bytes leaves; then the statements about
places and about byte order. -/

namespace Sys2Proof.Machine

/-! ## Regions of `MEM_MAP` -/

/-- The place an address inside a region of this kind leads to. -/
def placeOfKind : MemKind → Place
  | .ram => .ram
  | .rom => .rom
  | .device => .device

theorem placeOfKind_ne_vacant (k : MemKind) : placeOfKind k ≠ .vacant := by cases k <;> decide

/-- The address lies in the region. -/
def InRegion (r : Region) (a : Nat) : Prop := r.base ≤ a ∧ a < r.base + r.size

theorem regionAt_cases (regions : List Region) (a : Nat) :
    ((∀ r ∈ regions, ¬ InRegion r a) ∧ regionAt regions a = .vacant) ∨
      ∃ r ∈ regions, InRegion r a ∧ regionAt regions a = placeOfKind r.kind := by
  unfold regionAt
  split
  · rename_i hnone
    refine .inl ⟨fun r hr hheld => ?_, rfl⟩
    have hnot := List.find?_eq_none.1 hnone r hr
    simp only [Bool.and_eq_true, decide_eq_true_eq] at hnot
    exact hnot hheld
  · rename_i r hfind
    have hheld := List.find?_some hfind
    simp only [Bool.and_eq_true, decide_eq_true_eq] at hheld
    refine .inr ⟨r, List.mem_of_find?_eq_some hfind, hheld, ?_⟩
    cases r.kind <;> rfl

theorem regionAt_eq_vacant_iff (regions : List Region) (a : Nat) :
    regionAt regions a = .vacant ↔ ∀ r ∈ regions, ¬ InRegion r a := by
  obtain ⟨hnone, hv⟩ | ⟨r, hr, hheld, hk⟩ := regionAt_cases regions a
  · exact iff_of_true hv hnone
  · refine iff_of_false ?_ fun h => h r hr hheld
    rw [hk]
    exact placeOfKind_ne_vacant r.kind

theorem regionAt_of_kind {regions : List Region} {a : Nat} {kind : MemKind}
    (hheld : ∃ r ∈ regions, InRegion r a) (hkind : ∀ r ∈ regions, InRegion r a → r.kind = kind) :
    regionAt regions a = placeOfKind kind := by
  obtain ⟨hnone, -⟩ | ⟨r, hr, hra, hk⟩ := regionAt_cases regions a
  · obtain ⟨r, hr, hra⟩ := hheld
    exact absurd hra (hnone r hr)
  · rw [hk, hkind r hr hra]

/-! ## The CLINT's registers (R487, R488) -/

/-- For parameters a platform can have the timer registers are aligned, and no two of the three registers
overlap. -/
theorem clint_of_wf {p : Params} (h : p.wf = true) :
    (p.mtimeAddr.toNat % 8 = 0 ∧ p.mtimecmpAddr.toNat % 8 = 0) ∧
      (p.mtimeAddr.toNat + 8 ≤ p.mtimecmpAddr.toNat ∨ p.mtimecmpAddr.toNat + 8 ≤ p.mtimeAddr.toNat) ∧
      (p.mtimeAddr.toNat + 8 ≤ p.msipAddr.toNat ∨ p.msipAddr.toNat + 4 ≤ p.mtimeAddr.toNat) ∧
      (p.mtimecmpAddr.toNat + 8 ≤ p.msipAddr.toNat ∨ p.msipAddr.toNat + 4 ≤ p.mtimecmpAddr.toNat) := by
  simp only [Params.wf, disjointRanges, Bool.and_eq_true, decide_eq_true_eq, and_assoc] at h
  obtain ⟨-, -, -, -, hmtime, hmtimecmp, -, htimers, hmtimeMsip, hmtimecmpMsip, -⟩ := h
  exact ⟨⟨hmtime, hmtimecmp⟩, htimers, hmtimeMsip, hmtimecmpMsip⟩

theorem placeOf_msip (p : Params) {i : Nat} (hi : i < 4) :
    placeOf p (p.msipAddr.toNat + i) = .msip i := by
  rw [placeOf, if_pos (by omega), Nat.add_sub_cancel_left]

theorem placeOf_mtimecmp {p : Params} (hp : p.wf = true) {i : Nat} (hi : i < 8) :
    placeOf p (p.mtimecmpAddr.toNat + i) = .mtimecmp i := by
  obtain ⟨-, -, -, hmsip⟩ := clint_of_wf hp
  rw [placeOf, if_neg (by omega), if_pos (by omega), Nat.add_sub_cancel_left]

theorem placeOf_mtime {p : Params} (hp : p.wf = true) {i : Nat} (hi : i < 8) :
    placeOf p (p.mtimeAddr.toNat + i) = .mtime i := by
  obtain ⟨-, hmtimecmp, hmsip, -⟩ := clint_of_wf hp
  rw [placeOf, if_neg (by omega), if_neg (by omega), if_pos (by omega), Nat.add_sub_cancel_left]

theorem placeOf_outside_clint {p : Params} {a : Nat}
    (hmsip : ¬ (p.msipAddr.toNat ≤ a ∧ a < p.msipAddr.toNat + 4))
    (hmtimecmp : ¬ (p.mtimecmpAddr.toNat ≤ a ∧ a < p.mtimecmpAddr.toNat + 8))
    (hmtime : ¬ (p.mtimeAddr.toNat ≤ a ∧ a < p.mtimeAddr.toNat + 8)) :
    placeOf p a = regionAt p.memMap a := by
  rw [placeOf, if_neg hmsip, if_neg hmtimecmp, if_neg hmtime]

theorem physReadByte_mtimecmp {s : State} (h : s.cfg.wf = true) (use : ReadUse) {i : Nat} (hi : i < 8) :
    physReadByte s use (s.cfg.mtimecmpAddr.toNat + i) = s.mtimecmp.extractLsb' (8 * i) 8 := by
  simp only [physReadByte, placeOf_mtimecmp h hi, dwordByte]

theorem physReadByte_mtime {s : State} (h : s.cfg.wf = true) (use : ReadUse) {i : Nat} (hi : i < 8) :
    physReadByte s use (s.cfg.mtimeAddr.toNat + i) = s.mtime.extractLsb' (8 * i) 8 := by
  simp only [physReadByte, placeOf_mtime h hi, dwordByte]

theorem physReadByte_msip (s : State) (use : ReadUse) {i : Nat} (hi : i < 4) :
    physReadByte s use (s.cfg.msipAddr.toNat + i) =
      (if s.msipBit = true then 1#32 else 0#32).extractLsb' (8 * i) 8 := by
  simp only [physReadByte, placeOf_msip s.cfg hi]
  cases s.msipBit <;> interval_cases i <;> rfl

/-! ## Reads of several bytes (R102) -/

section Reads

variable {s : State} {use : ReadUse} {pa : PAddr} {n k : Nat} {d : BitVec n}

/-- A word whose four bytes are bytes `k` to `k + 3` of a value is 32 bits of the value. -/
theorem physRead_word_of_bytes
    (h : ∀ i < 4, physReadByte s use (pa.toNat + i) = d.extractLsb' (8 * (k + i)) 8) :
    physRead s use .word pa = d.extractLsb' (8 * k) 32 := by
  simp only [physRead, h 0 (by decide), h 1 (by decide), h 2 (by decide), h 3 (by decide)]
  rw [BitVec.extractLsb'_append_extractLsb'_eq_extractLsb' (by omega),
    BitVec.extractLsb'_append_extractLsb'_eq_extractLsb' (by omega),
    BitVec.extractLsb'_append_extractLsb'_eq_extractLsb' (by omega), Nat.add_zero]

theorem physRead_half_of_bytes
    (h : ∀ i < 2, physReadByte s use (pa.toNat + i) = d.extractLsb' (8 * (k + i)) 8) :
    physRead s use .half pa = (d.extractLsb' (8 * k) 16).setWidth 32 := by
  simp only [physRead, h 0 (by decide), h 1 (by decide)]
  rw [BitVec.extractLsb'_append_extractLsb'_eq_extractLsb' (by omega)]
  rfl

theorem physRead_byte_of_byte (h : physReadByte s use pa.toNat = d.extractLsb' (8 * k) 8) :
    physRead s use .byte pa = (d.extractLsb' (8 * k) 8).setWidth 32 := by
  simp only [physRead, Nat.add_zero, h]

end Reads

/-- Above the low part of an appended value its high part begins. -/
theorem extractLsb'_append_add {n m : Nat} (hi : BitVec n) (lo : BitVec m) (k len : Nat) :
    (hi ++ lo).extractLsb' (m + k) len = hi.extractLsb' k len := by
  rw [BitVec.extractLsb'_append_eq_of_le (Nat.le_add_right ..), Nat.add_sub_cancel_left]

/-- The bytes of four bytes put together. -/
theorem byteOf_append (b₃ b₂ b₁ b₀ : Byte) :
    byteOf (b₃ ++ b₂ ++ b₁ ++ b₀) 0 = b₀ ∧ byteOf (b₃ ++ b₂ ++ b₁ ++ b₀) 1 = b₁ ∧
      byteOf (b₃ ++ b₂ ++ b₁ ++ b₀) 2 = b₂ ∧ byteOf (b₃ ++ b₂ ++ b₁ ++ b₀) 3 = b₃ := by
  have above := extractLsb'_append_add (b₃ ++ b₂ ++ b₁) b₀
  refine ⟨BitVec.extractLsb'_append_eq_right, ?_, ?_, ?_⟩
  · exact (above 0 8).trans BitVec.extractLsb'_append_eq_right
  · exact (above 8 8).trans
      ((extractLsb'_append_add (b₃ ++ b₂) b₁ 0 8).trans BitVec.extractLsb'_append_eq_right)
  · exact (above 16 8).trans
      ((extractLsb'_append_add (b₃ ++ b₂) b₁ 8 8).trans BitVec.extractLsb'_append_eq_left)

/-- The bytes of a word that was read are the bytes at its addresses. -/
theorem byteOf_physRead_word (s : State) (use : ReadUse) (pa : PAddr) {i : Nat} (hi : i < 4) :
    byteOf (physRead s use .word pa) i = physReadByte s use (pa.toNat + i) := by
  obtain ⟨h₀, h₁, h₂, h₃⟩ := byteOf_append (physReadByte s use (pa.toNat + 3))
    (physReadByte s use (pa.toNat + 2)) (physReadByte s use (pa.toNat + 1))
    (physReadByte s use (pa.toNat + 0))
  interval_cases i
  exacts [h₀, h₁, h₂, h₃]

/-- The address four bytes into an aligned eight-byte register. -/
theorem toNat_add_four_of_aligned {a : PAddr} (h : a.toNat % 8 = 0) : (a + 4#34).toNat = a.toNat + 4 := by
  have := a.isLt
  rw [BitVec.toNat_add, BitVec.toNat_ofNat]
  omega

theorem physRead_msip (s : State) (use : ReadUse) :
    physRead s use .word s.cfg.msipAddr = if s.msipBit = true then 1#32 else 0#32 := by
  rw [physRead_word_of_bytes (k := 0) fun i hi => by rw [Nat.zero_add]; exact physReadByte_msip s use hi]
  exact BitVec.extractLsb'_eq_self

/-- The two words of an eight-byte register. -/
theorem physRead_dword {s : State} {use : ReadUse} {a : PAddr} {d : DWord} (ha : a.toNat % 8 = 0)
    (h : ∀ i < 8, physReadByte s use (a.toNat + i) = d.extractLsb' (8 * i) 8) :
    physRead s use .word a = d.extractLsb' 0 32 ∧
      physRead s use .word (a + 4#34) = d.extractLsb' 32 32 := by
  refine ⟨physRead_word_of_bytes (k := 0) fun i hi => ?_,
    physRead_word_of_bytes (k := 4) fun i hi => ?_⟩
  · rw [Nat.zero_add]
    exact h i (by omega)
  · rw [toNat_add_four_of_aligned ha, Nat.add_assoc]
    exact h (4 + i) (by omega)

/-- Settles O30: the registers come first, then the first region that holds the address. -/
theorem physicalPlaces : Obligations.PhysicalPlaces := by
  refine ⟨fun p i => placeOf_msip p, fun p i hp hi => ⟨placeOf_mtimecmp hp hi, placeOf_mtime hp hi⟩,
    fun p a hmsip hmtimecmp hmtime => ?_, fun s use h => ?_⟩
  · rw [placeOf_outside_clint hmsip hmtimecmp hmtime]
    refine ⟨(regionAt_eq_vacant_iff _ a).symm, fun kind hheld hkind => ?_⟩
    rw [regionAt_of_kind hheld fun r hr hra => hkind r hr hra.1 hra.2]
    cases kind <;> rfl
  · obtain ⟨⟨hmtime, hmtimecmp⟩, -⟩ := clint_of_wf h
    obtain ⟨hcmpLow, hcmpHigh⟩ := physRead_dword hmtimecmp fun i => physReadByte_mtimecmp h use
    obtain ⟨hlow, hhigh⟩ := physRead_dword hmtime fun i => physReadByte_mtime h use
    exact ⟨physRead_msip s use, hcmpLow, hcmpHigh, hlow, hhigh,
      fun i hi => ⟨physReadByte_mtimecmp h use hi, physReadByte_mtime h use hi⟩⟩

/-! ## A store of one byte, place by place -/

theorem mem_rising_of_memoryCanonical {s : State} (h : s.memoryCanonical = true) :
    strictlyRising (s.mem.map Prod.fst) = true := by
  simp only [State.memoryCanonical, Memory.wf, Bool.and_eq_true] at h
  obtain ⟨⟨⟨hrising, -⟩, -⟩, -⟩ := h
  exact hrising

/-- A byte of ROM takes the stored value or keeps its own (log entry 7). -/
theorem physReadByte_write_rom {s : State} (hm : strictlyRising (s.mem.map Prod.fst) = true) {a : Nat}
    (h : placeOf s.cfg a = .rom) (use : ReadUse) (b : Byte) :
    physReadByte (physWriteByte s a b) use a = b ∨
      physReadByte (physWriteByte s a b) use a = physReadByte s use a := by
  have hread : physReadByte (physWriteByte s a b) use a =
      if Config.romStoreLands s.tick a then b else physReadByte s use a := by
    simp [physReadByte, physWriteByte, markStored, storeByte, writeMainMemory, h,
      Memory.read_write_same hm]
  rw [hread]
  exact ite_eq_or_eq _ _ _

/-- Each CLINT register changes only where a byte of it is stored to. -/
theorem physWriteByte_clint_kept (s : State) (a : Nat) (b : Byte) :
    (placeOf s.cfg a ≠ .msip 0 → (physWriteByte s a b).msipBit = s.msipBit) ∧
      ((∀ off, placeOf s.cfg a ≠ .mtimecmp off) → (physWriteByte s a b).mtimecmp = s.mtimecmp) ∧
      ((∀ off, placeOf s.cfg a ≠ .mtime off) → (physWriteByte s a b).mtime = s.mtime) := by
  unfold physWriteByte storeByte
  cases placeOf s.cfg a with
  | msip off => by_cases hoff : off = 0 <;> simp [hoff, markStored]
  | mtimecmp off | mtime off | ram | rom | device | vacant => simp [markStored, writeMainMemory]

/-! ## A store of several bytes, as stores of one byte -/

/-- The state after the low `n` bytes of `v` are stored one after the other, the lowest at `pa`. -/
def storeBytes (pa : PAddr) (v : Word) (s : State) : Nat → State
  | 0 => s
  | n + 1 => physWriteByte (storeBytes pa v s n) (pa.toNat + n) (byteOf v n)

theorem physWrite_eq_storeBytes (s : State) (w : Width) (pa : PAddr) (v : Word) :
    physWrite s w pa v = storeBytes pa v s w.bytes := by cases w <;> rfl

section StoreBytes

variable {α : Type} (f : State → α) {pa : PAddr} {v : Word} {s : State}

@[simp] theorem storeBytes_cfg (pa : PAddr) (v : Word) (s : State) (n : Nat) :
    (storeBytes pa v s n).cfg = s.cfg := by
  induction n with
  | zero => rfl
  | succ n ih => rw [storeBytes, physWriteByte_cfg, ih]

theorem storeBytes_mem_rising (h : strictlyRising (s.mem.map Prod.fst) = true) (n : Nat) :
    strictlyRising ((storeBytes pa v s n).mem.map Prod.fst) = true := by
  induction n with
  | zero => exact h
  | succ n ih => exact physWriteByte_mem_rising ih _ _

/-- A store of a byte at offset `i` of an access leaves what `f` observes. -/
def KeptAt (pa : PAddr) (s : State) (i : Nat) : Prop :=
  ∀ (t : State) (b : Byte), t.cfg = s.cfg → f (physWriteByte t (pa.toNat + i) b) = f t

variable {f}

/-- What every single store leaves, the whole store leaves. -/
theorem storeBytes_kept {n : Nat} (h : ∀ i < n, KeptAt f pa s i) : f (storeBytes pa v s n) = f s := by
  induction n with
  | zero => rfl
  | succ n ih =>
    rw [storeBytes, h n n.lt_succ_self _ _ (storeBytes_cfg ..), ih fun i hi => h i (by omega)]

/-- What every single store but the one at offset `i` leaves is as that one makes it. -/
theorem storeBytes_at {n i : Nat} (hi : i < n) (h : ∀ j, j ≠ i → KeptAt f pa s j) :
    f (storeBytes pa v s n) = f (physWriteByte (storeBytes pa v s i) (pa.toNat + i) (byteOf v i)) := by
  induction n with
  | zero => exact absurd hi i.not_lt_zero
  | succ n ih =>
    obtain rfl | hne := eq_or_ne n i
    · rfl
    · rw [storeBytes, h n hne _ _ (storeBytes_cfg ..), ih (by omega)]

/-! ## What a store leaves (R101, R102) -/

theorem keptAt_physReadByte {q i : Nat} (use : ReadUse) (h : q ≠ pa.toNat + i) :
    KeptAt (physReadByte · use q) pa s i := fun t b _ => physReadByte_write_other t h use b

theorem keptAt_mem_read {q i : Nat} (h : q ≠ pa.toNat + i) : KeptAt (·.mem.read q) pa s i :=
  fun t b _ => read_mem_physWriteByte_other t h b

theorem keptAt_msipBit {i : Nat} (h : placeOf s.cfg (pa.toNat + i) ≠ .msip 0) :
    KeptAt (·.msipBit) pa s i := fun t b ht =>
  let ⟨hkept, _, _⟩ := physWriteByte_clint_kept t _ b
  hkept (ht ▸ h)

theorem keptAt_mtimecmp {i : Nat} (h : ∀ off, placeOf s.cfg (pa.toNat + i) ≠ .mtimecmp off) :
    KeptAt (·.mtimecmp) pa s i := fun t b ht =>
  let ⟨_, hkept, _⟩ := physWriteByte_clint_kept t _ b
  hkept (ht ▸ h)

theorem keptAt_mtime {i : Nat} (h : ∀ off, placeOf s.cfg (pa.toNat + i) ≠ .mtime off) :
    KeptAt (·.mtime) pa s i := fun t b ht =>
  let ⟨_, _, hkept⟩ := physWriteByte_clint_kept t _ b
  hkept (ht ▸ h)

/-- A byte of the access is read as its own store left it. -/
theorem physReadByte_storeBytes_at {n i : Nat} (hi : i < n) (use : ReadUse) :
    physReadByte (storeBytes pa v s n) use (pa.toNat + i) =
      physReadByte (physWriteByte (storeBytes pa v s i) (pa.toNat + i) (byteOf v i)) use
        (pa.toNat + i) :=
  storeBytes_at (f := (physReadByte · use (pa.toNat + i))) hi
    fun _ hj => keptAt_physReadByte use (by omega)

theorem physReadByte_storeBytes_same (hm : s.memoryCanonical = true) {n i : Nat} (hi : i < n)
    (hp : (placeOf s.cfg (pa.toNat + i)).storesBytes = true) (use : ReadUse) :
    physReadByte (storeBytes pa v s n) use (pa.toNat + i) = byteOf v i := by
  rw [physReadByte_storeBytes_at hi]
  exact physReadByte_write_same (storeBytes_mem_rising (mem_rising_of_memoryCanonical hm) i)
    (by simpa [Place.storesBytes_iff] using hp) use _

theorem physReadByte_storeBytes_rom (hm : s.memoryCanonical = true) {n i : Nat} (hi : i < n)
    (hp : placeOf s.cfg (pa.toNat + i) = .rom) (use : ReadUse) :
    physReadByte (storeBytes pa v s n) use (pa.toNat + i) = byteOf v i ∨
      physReadByte (storeBytes pa v s n) use (pa.toNat + i) = physReadByte s use (pa.toNat + i) := by
  have hbefore : physReadByte (storeBytes pa v s i) use (pa.toNat + i) =
      physReadByte s use (pa.toNat + i) :=
    storeBytes_kept (f := (physReadByte · use (pa.toNat + i)))
      fun _ hj => keptAt_physReadByte use (by omega)
  rw [physReadByte_storeBytes_at hi, ← hbefore]
  exact physReadByte_write_rom (storeBytes_mem_rising (mem_rising_of_memoryCanonical hm) i)
    (by simpa using hp) use _

theorem storeBytes_msipBit {n i : Nat} (hi : i < n) (hp : placeOf s.cfg (pa.toNat + i) = .msip 0) :
    (storeBytes pa v s n).msipBit = (byteOf v i).getLsbD 0 := by
  have hother : ∀ j, j ≠ i → KeptAt (·.msipBit) pa s j := fun j hj => keptAt_msipBit fun hpj => by
    have := (placeOf_msip_lt hp).2
    have := (placeOf_msip_lt hpj).2
    omega
  rw [storeBytes_at (f := (·.msipBit)) hi hother]
  exact physWriteByte_msipBit (by simpa using hp) _

/-- The bytes marked as stored to: those marked before, and those of the access that are not vacant. -/
theorem mem_storeBytes_stored (pa : PAddr) (v : Word) (s : State) (n a : Nat) :
    a ∈ (storeBytes pa v s n).stored ↔
      a ∈ s.stored ∨ ∃ i < n, a = pa.toNat + i ∧ placeOf s.cfg a ≠ .vacant := by
  induction n with
  | zero => simp [storeBytes]
  | succ n ih =>
    rw [storeBytes, mem_physWriteByte_stored, storeBytes_cfg, ih, or_assoc]
    simp only [Nat.lt_succ_iff_lt_or_eq, or_and_right, exists_or, exists_eq_left]
    exact or_congr_right (or_congr_right (and_congr_right fun ha => by rw [ha]))

end StoreBytes

/-! ## Byte order -/

/-- Settles O31: every byte of the word reads back as it was stored, and a read of any width puts together
the bytes at its addresses. -/
theorem littleEndian : Obligations.LittleEndian := by
  intro s use pa v hm hpa hram
  have hbyte : ∀ i < 4, physReadByte (physWrite s .word pa v) use (pa.toNat + i) = byteOf v i := by
    intro i hi
    rw [physWrite_eq_storeBytes]
    exact physReadByte_storeBytes_same hm hi (by rw [hram i hi]; rfl) use
  have haddr : ∀ k < 4, (pa + BitVec.ofNat 34 k).toNat = pa.toNat + k := by
    intro k hk
    rw [BitVec.toNat_add, BitVec.toNat_ofNat]
    omega
  refine ⟨?_, fun k hk => ?_, fun k hk => ?_⟩
  · rw [physRead_word_of_bytes (k := 0) fun i hi => by rw [Nat.zero_add]; exact hbyte i hi]
    exact BitVec.extractLsb'_eq_self
  · exact physRead_byte_of_byte (by rw [haddr k hk]; exact hbyte k hk)
  · refine physRead_half_of_bytes fun i hi => ?_
    rw [haddr k (by omega), Nat.add_assoc]
    exact hbyte (k + i) (by omega)

end Sys2Proof.Machine
end

section
/-! Physical memory protection (R122, R123): when an entry matches, in byte addresses, and what the deciding
entry permits. -/

namespace Sys2Proof.Machine

/-! ## NAPOT regions (R122) -/

theorem trailingOnesFrom_of_first_zero {v : Word} {i fuel t : Nat} (ht : t < fuel)
    (hones : ∀ j < t, v.getLsbD (i + j) = true) (hzero : v.getLsbD (i + t) = false) :
    trailingOnesFrom v i fuel = t := by
  induction fuel generalizing i t with
  | zero => exact absurd ht t.not_lt_zero
  | succ fuel ih =>
    cases t with
    | zero => simp [trailingOnesFrom, show v.getLsbD i = false from hzero]
    | succ t =>
      have hfirst : v.getLsbD i = true := hones 0 t.succ_pos
      have hrest : trailingOnesFrom v (i + 1) fuel = t :=
        ih (by omega) (fun j hj => by rw [Nat.add_right_comm]; exact hones (j + 1) (by omega))
          (by rw [Nat.add_right_comm]; exact hzero)
      simp [trailingOnesFrom, hfirst, hrest]

theorem trailingOnes_of_first_zero {v : Word} {t : Nat} (ht : t < 32)
    (hones : ∀ j < t, v.getLsbD j = true) (hzero : v.getLsbD t = false) : trailingOnes v = t :=
  trailingOnesFrom_of_first_zero ht (by simpa using hones) (by simpa using hzero)

theorem trailingOnes_allOnes : trailingOnes 0xFFFFFFFF#32 = 32 := by decide

/-! ## Word addresses -/

theorem wordAddress_toNat (pa : PAddr) : (wordAddress pa).toNat = pa.toNat / 4 := by
  have := pa.isLt
  rw [wordAddress, BitVec.extractLsb'_toNat, Nat.shiftRight_eq_div_pow]
  omega

/-- Two word addresses agree above bit `k` where their byte addresses agree above bit `k + 2`. -/
theorem wordAddress_ushiftRight_eq_iff (pa : PAddr) (addr : Word) (k : Nat) :
    wordAddress pa >>> k = addr >>> k ↔ pa.toNat / 2 ^ (k + 2) = 4 * addr.toNat / 2 ^ (k + 2) := by
  have hpow : 2 ^ (k + 2) = 4 * 2 ^ k := by ring
  rw [← BitVec.toNat_inj, BitVec.toNat_ushiftRight, BitVec.toNat_ushiftRight, wordAddress_toNat,
    Nat.shiftRight_eq_div_pow, Nat.shiftRight_eq_div_pow, Nat.div_div_eq_div_mul, hpow,
    Nat.mul_div_mul_left _ _ (by decide)]

/-! ## When an entry matches (R122) -/

section Matches

variable {s : State} {i : Nat} (pa : PAddr)

theorem pmpMatches_off (h : (s.pmpCfgAt i).a = .off) : pmpMatches s i pa = false := by
  simp only [pmpMatches, h]

theorem pmpMatches_tor (h : (s.pmpCfgAt i).a = .tor) :
    pmpMatches s i pa = true ↔
      (i = 0 ∨ 4 * (s.pmpAddrAt (i - 1)).toNat ≤ pa.toNat) ∧ pa.toNat < 4 * (s.pmpAddrAt i).toNat := by
  simp only [pmpMatches, h, Bool.and_eq_true, BitVec.ule_iff_toNat_le, BitVec.ult_iff_toNat_lt,
    wordAddress_toNat]
  refine and_congr ?_ (by omega)
  by_cases hi : i = 0
  · simp [hi]
  · simp only [hi, if_false, false_or]
    omega

theorem pmpMatches_na4 (h : (s.pmpCfgAt i).a = .na4) :
    pmpMatches s i pa = true ↔
      4 * (s.pmpAddrAt i).toNat ≤ pa.toNat ∧ pa.toNat < 4 * (s.pmpAddrAt i).toNat + 4 := by
  simp only [pmpMatches, h, decide_eq_true_eq, ← BitVec.toNat_inj, wordAddress_toNat]
  omega

theorem pmpMatches_napot (h : (s.pmpCfgAt i).a = .napot) :
    pmpMatches s i pa = true ↔
      pa.toNat / 2 ^ (trailingOnes (s.pmpAddrAt i) + 3) =
        4 * (s.pmpAddrAt i).toNat / 2 ^ (trailingOnes (s.pmpAddrAt i) + 3) := by
  simp only [pmpMatches, h, decide_eq_true_eq]
  exact wordAddress_ushiftRight_eq_iff pa _ _

/-- A NAPOT entry of 32 ones has the whole physical address space as its region. -/
theorem pmpMatches_napot_allOnes (h : (s.pmpCfgAt i).a = .napot) (hones : s.pmpAddrAt i = 0xFFFFFFFF#32) :
    pmpMatches s i pa = true := by
  rw [pmpMatches_napot pa h, hones, trailingOnes_allOnes]
  have := pa.isLt
  simp only [BitVec.toNat_ofNat]
  omega

end Matches

theorem pmpDecides_eq_some_iff (s : State) (i : Nat) (pa : PAddr) :
    pmpDecides s pa = some i ↔
      i < s.cfg.pmpEntries.val ∧ pmpMatches s i pa = true ∧ ∀ j < i, pmpMatches s j pa = false := by
  simp only [pmpDecides, List.find?_range_eq_some, List.mem_range, Bool.not_eq_true']
  exact and_left_comm

theorem pmpDecides_eq_none_iff (s : State) (pa : PAddr) :
    pmpDecides s pa = none ↔ ∀ j < s.cfg.pmpEntries.val, pmpMatches s j pa = false := by
  simp only [pmpDecides, List.find?_eq_none, List.mem_range, Bool.not_eq_true]

/-- Settles O28: mode by mode, with word addresses as byte addresses divided by four. -/
theorem pmpMatching : Obligations.PmpMatching := by
  intro s i pa
  refine ⟨pmpMatches_off pa, pmpMatches_tor pa, pmpMatches_na4 pa, fun t h ht hones hzero => ?_,
    pmpMatches_napot_allOnes pa, pmpDecides_eq_some_iff s i pa⟩
  rw [pmpMatches_napot pa h, trailingOnes_of_first_zero ht hones hzero]

/-! ## The permission check (R123) -/

theorem permits_iff (c : PmpCfg) (acc : Access) :
    c.permits acc = true ↔
      (acc = .fetch ∧ c.x = true) ∨ (acc = .load ∧ c.r = true) ∨ (acc = .store ∧ c.w = true) := by
  cases acc <;> simp [PmpCfg.permits]

theorem pmpOk_of_undecided {s : State} {pa : PAddr} (hentries : s.cfg.pmpEntries.val ≠ 0)
    (h : pmpDecides s pa = none) (acc : Access) (p : Priv) : pmpOk s pa acc p = true ↔ p = .M := by
  simp only [pmpOk, if_neg hentries, h, decide_eq_true_eq]

theorem pmpOk_of_decided {s : State} {pa : PAddr} {i : Nat} (h : pmpDecides s pa = some i) (acc : Access)
    (p : Priv) :
    pmpOk s pa acc p = true ↔
      ((s.pmpCfgAt i).l = false ∧ p = .M) ∨ (s.pmpCfgAt i).permits acc = true := by
  have hentries : s.cfg.pmpEntries.val ≠ 0 := by
    obtain ⟨hi, -⟩ := (pmpDecides_eq_some_iff s i pa).1 h
    omega
  simp only [pmpOk, if_neg hentries, h]
  by_cases hm : (s.pmpCfgAt i).l = false ∧ p = .M
  · simp [hm]
  · rw [if_neg (by simpa using hm), or_iff_right hm]

/-- Settles O29: no entries, no match, or one entry that decides. -/
theorem pmpPermission : Obligations.PmpPermission := by
  intro s pa acc p
  refine ⟨fun h => pmpOk_of_noEntries h pa acc p, fun hentries hnone => ?_,
    fun i hi hmatch hfirst => ?_⟩
  · exact pmpOk_of_undecided hentries ((pmpDecides_eq_none_iff s pa).2 hnone) acc p
  · rw [pmpOk_of_decided ((pmpDecides_eq_some_iff s i pa).2 ⟨hi, hmatch, hfirst⟩), permits_iff]

end Sys2Proof.Machine
end

section
/-! Address translation and the checks of one access (R104, R120, R130 to R142): the read of a page-table
entry, the checks of a leaf, the walk, and the order in which an access is checked. -/

namespace Sys2Proof.Machine

/-! ## Bytes that are present (R101) -/

theorem accessPresent_iff (p : Params) (w : Width) (pa : PAddr) :
    accessPresent p w pa = true ↔ ∀ k < w.bytes, placeOf p (pa.toNat + k) ≠ .vacant := by
  simp [accessPresent, accessAddresses]

theorem accessPresent_eq_false_iff (p : Params) (w : Width) (pa : PAddr) :
    accessPresent p w pa = false ↔ ∃ k < w.bytes, placeOf p (pa.toNat + k) = .vacant := by
  simp [← Bool.not_eq_true, accessPresent_iff]

/-! ## Page-table reads (R137) -/

section PageTables

variable {s : State} {va : Word} {acc : Access} {p : Priv} {level : Nat} {ppn : BitVec 22} {pte : Word}

theorem readPte_of_permitted (hpmp : pmpOk s (pteAddress ppn level va) .load .S = true)
    (hpresent : accessPresent s.cfg .word (pteAddress ppn level va) = true) :
    readPte s va acc level ppn =
      .ok (physRead s (.walk acc level) .word (pteAddress ppn level va)) := by
  simp [readPte, hpmp, hpresent]

theorem readPte_of_refused (h : pmpOk s (pteAddress ppn level va) .load .S = false ∨
      accessPresent s.cfg .word (pteAddress ppn level va) = false) :
    readPte s va acc level ppn = .error ⟨accessFaultOf acc, va⟩ := by
  obtain h | h := h <;> simp [readPte, h]

/-! ## The checks of a leaf (R132, R134) -/

theorem leafAddress_of_fault (h : leafPermOk s pte acc p = false ∨ (level = 1 ∧ ptePpn0 pte ≠ 0#10) ∨
      pteA pte = false ∨ (acc = .store ∧ pteD pte = false)) :
    leafAddress s va acc p level pte = .error ⟨pageFaultOf acc, va⟩ := by
  unfold leafAddress
  split
  · rfl
  · split
    · rfl
    · split
      · rfl
      · simp_all

theorem leafAddress_of_passed (hperm : leafPermOk s pte acc p = true)
    (haligned : level = 1 → ptePpn0 pte = 0#10) (ha : pteA pte = true)
    (hd : acc = .store → pteD pte = true) :
    leafAddress s va acc p level pte =
      if level = 1 then .ok (ptePpn1 pte ++ va.extractLsb' 12 10 ++ va.extractLsb' 0 12)
      else .ok (ptePpn pte ++ va.extractLsb' 0 12) := by
  have hdirty : (decide (acc = .store) && !pteD pte) = false := by
    by_cases hs : acc = .store
    · simp [hd hs]
    · simp [hs]
  rw [leafAddress, if_neg (by simp [hperm]), if_neg (fun ⟨hlevel, hne⟩ => hne (haligned hlevel)),
    if_neg (by simp [ha, hdirty])]

/-- The offset inside a megapage is the low 22 bits of the virtual address. -/
theorem megapage_offset (ppn1 : BitVec 12) (va : Word) :
    ppn1 ++ va.extractLsb' 12 10 ++ va.extractLsb' 0 12 = (ppn1 ++ va.extractLsb' 0 22 : PAddr) := by
  rw [BitVec.append_assoc, BitVec.extractLsb'_append_extractLsb'_eq_extractLsb' (by decide)]
  rfl

/-! ## The walk (R132) -/

theorem walkFrom_of_readPte_error {e : Raised} (h : readPte s va acc level ppn = .error e) :
    walkFrom s va acc p level ppn = .error ⟨accessFaultOf acc, va⟩ := by
  cases level <;> simp only [walkFrom, h, readPte_error h]

theorem walkFrom_of_invalid (hread : readPte s va acc level ppn = .ok pte) (h : pteInvalid pte = true) :
    walkFrom s va acc p level ppn = .error ⟨pageFaultOf acc, va⟩ := by
  cases level <;> simp only [walkFrom, hread, h, if_true]

theorem walkFrom_of_leaf (hread : readPte s va acc level ppn = .ok pte) (hvalid : pteInvalid pte = false)
    (hleaf : pteLeaf pte = true) :
    walkFrom s va acc p level ppn = leafAddress s va acc p level pte := by
  cases level <;> simp only [walkFrom, hread, hvalid, hleaf, if_true, Bool.false_eq_true, if_false]

theorem walkFrom_of_last_pointer (hread : readPte s va acc 0 ppn = .ok pte) (hleaf : pteLeaf pte = false) :
    walkFrom s va acc p 0 ppn = .error ⟨pageFaultOf acc, va⟩ := by
  simp only [walkFrom, hread, hleaf, Bool.false_eq_true, if_false, ite_self]

theorem walkFrom_of_pointer (hread : readPte s va acc (level + 1) ppn = .ok pte)
    (hvalid : pteInvalid pte = false) (hleaf : pteLeaf pte = false) :
    walkFrom s va acc p (level + 1) ppn = walkFrom s va acc p level (ptePpn pte) := by
  rw [walkFrom, hread]
  simp only [hvalid, hleaf, Bool.false_eq_true, if_false]

end PageTables

/-- Settles O25: the walk reads the root entry, and the second one where the first is a pointer. -/
theorem sv32Walk : Obligations.Sv32Walk := by
  intro s va acc p pte1 pte0
  refine ⟨fun e => walkFrom_of_readPte_error, fun hread1 => ⟨walkFrom_of_invalid hread1,
    fun hvalid hleaf => ?_, fun hvalid hpointer => ?_⟩⟩
  · have hwalk : translateSv32 s va acc p = leafAddress s va acc p 1 pte1 :=
      walkFrom_of_leaf hread1 hvalid hleaf
    refine ⟨fun h => ?_, fun hperm haligned ha hd => ?_⟩
    · rw [hwalk, leafAddress_of_fault (by simpa using h)]
    · rw [hwalk, leafAddress_of_passed hperm (fun _ => haligned) ha hd, if_pos rfl, megapage_offset]
  · have hwalk : translateSv32 s va acc p = walkFrom s va acc p 0 (ptePpn pte1) :=
      walkFrom_of_pointer hread1 hvalid hpointer
    rw [hwalk]
    refine ⟨fun e => walkFrom_of_readPte_error, fun hread0 => ⟨?_, fun hvalid0 hleaf0 hperm ha hd => ?_⟩⟩
    · intro h
      cases hvalid0 : pteInvalid pte0 with
      | true => exact walkFrom_of_invalid hread0 hvalid0
      | false =>
        cases hleaf0 : pteLeaf pte0 with
        | false => exact walkFrom_of_last_pointer hread0 hleaf0
        | true =>
          rw [walkFrom_of_leaf hread0 hvalid0 hleaf0, leafAddress_of_fault]
          simpa [hvalid0, hleaf0] using h
    · rw [walkFrom_of_leaf hread0 hvalid0 hleaf0,
        leafAddress_of_passed hperm (fun h => absurd h Nat.zero_ne_one) ha hd, if_neg Nat.zero_ne_one]

/-! ## Who may use a leaf, and for what (R134) -/

/-- The mode may use the page: U-mode pages marked for it, S-mode those not marked, and with `SUM` the
others too, but never to fetch. -/
def leafModePermits (s : State) (pte : Word) (acc : Access) : Priv → Bool
  | .U => pteU pte
  | .S => !pteU pte || (decide (acc ≠ .fetch) && s.mstatus.sum)
  | .M => true

/-- The permission bits of the leaf allow the kind of access. -/
def leafBitsPermit (s : State) (pte : Word) : Access → Bool
  | .fetch => pteX pte
  | .load => pteR pte || (s.mstatus.mxr && pteX pte)
  | .store => pteW pte

theorem leafPermOk_eq (s : State) (pte : Word) (acc : Access) (p : Priv) :
    leafPermOk s pte acc p = (leafModePermits s pte acc p && leafBitsPermit s pte acc) := by
  have hbits : leafPermOk s pte acc .M = leafBitsPermit s pte acc := by
    cases acc with
    | fetch | store => rfl
    | load => cases hmxr : s.mstatus.mxr <;> simp [leafPermOk, leafBitsPermit, hmxr]
  rw [← hbits]
  cases p with
  | M => rfl
  | U => cases hu : pteU pte <;> simp [leafPermOk, leafModePermits, hu]
  | S =>
    cases hu : pteU pte with
    | false => simp [leafPermOk, leafModePermits, hu]
    | true =>
      cases acc with
      | fetch => simp [leafPermOk, leafModePermits, hu]
      | load | store => cases hsum : s.mstatus.sum <;> simp [leafPermOk, leafModePermits, hu, hsum]

theorem leafModePermits_iff (s : State) (pte : Word) (acc : Access) (p : Priv) :
    leafModePermits s pte acc p = true ↔
      (p = .U → pteU pte = true) ∧
        (p = .S → pteU pte = true → acc ≠ .fetch ∧ s.mstatus.sum = true) := by
  cases p <;> simp [leafModePermits, imp_iff_not_or]

theorem leafBitsPermit_iff (s : State) (pte : Word) (acc : Access) :
    leafBitsPermit s pte acc = true ↔
      (acc = .fetch → pteX pte = true) ∧
        (acc = .load → pteR pte = true ∨ (s.mstatus.mxr = true ∧ pteX pte = true)) ∧
        (acc = .store → pteW pte = true) := by
  cases acc <;> simp [leafBitsPermit]

/-- Settles O26: the mode may use the page, and its bits allow the access. -/
theorem leafPermissions : Obligations.LeafPermissions := by
  intro s pte acc p
  rw [leafPermOk_eq, Bool.and_eq_true, leafModePermits_iff, leafBitsPermit_iff, and_assoc]

/-- Settles O27: the four bytes at the address of the entry, where both checks let them be read. -/
theorem pageTableReads : Obligations.PageTableReads := by
  intro s va acc level ppn a
  refine ⟨fun hpmp hpresent => ⟨_, readPte_of_permitted hpmp ((accessPresent_iff ..).2 hpresent),
    fun k hk => byteOf_physRead_word s _ a hk⟩, fun h => ?_⟩
  exact readPte_of_refused (h.imp_right (accessPresent_eq_false_iff s.cfg .word a).2)

/-! ## Which accesses are translated (R120, R130) -/

/-- Settles O24: `satp` reads as the walk uses it. -/
theorem translationApplies : Obligations.TranslationApplies := by
  intro s acc va
  refine ⟨?_, fun hmode hpriv => ?_, fun h => ?_⟩
  · cases acc <;> simp [effPriv]
  · have hmode : s.satpMode = true := hmode
    simp [physicalAddress, hmode, hpriv]
  · refine ⟨_, physicalAddress_bare va h, ?_⟩
    rw [BitVec.toNat_setWidth]
    exact Nat.mod_eq_of_lt (by omega)

/-! ## The checks of one access, in their order (R140 to R142) -/

section Resolve

variable {s : State} {acc : Access} {w : Width} {va : Word}

theorem resolve_of_misaligned {e : Exc} (he : misalignedOf acc = some e) (hva : va.toNat % w.bytes ≠ 0) :
    resolve s acc w va = .error ⟨e, va⟩ := by
  simp only [resolve, he, if_neg hva]

theorem resolve_of_aligned (h : acc = .fetch ∨ va.toNat % w.bytes = 0) :
    resolve s acc w va = checkedAddress s acc w va := by
  obtain rfl | hva := h
  · rfl
  · cases acc <;> simp only [resolve, misalignedOf, if_pos hva]

theorem checkedAddress_of_error {e : Raised} (h : physicalAddress s acc va = .error e) :
    checkedAddress s acc w va = .error e := by
  simp only [checkedAddress, h]

theorem checkedAddress_of_ok {pa : PAddr} (h : physicalAddress s acc va = .ok pa) :
    checkedAddress s acc w va =
      if accessPresent s.cfg w pa = true ∧ pmpOk s pa acc (effPriv s acc) = true then .ok pa
      else .error ⟨accessFaultOf acc, va⟩ := by
  simp only [checkedAddress, h, Bool.and_eq_true]

end Resolve

/-- Settles O23: alignment, translation, then `MEM_MAP` and PMP. -/
theorem accessCheckOrder : Obligations.AccessCheckOrder := by
  intro s acc w va
  refine ⟨?_, ?_, fun haligned => ?_⟩
  · rintro rfl hva
    exact resolve_of_misaligned rfl hva
  · rintro rfl hva
    exact resolve_of_misaligned rfl hva
  · rw [resolve_of_aligned haligned]
    refine ⟨fun e => checkedAddress_of_error, fun pa hpa => ?_⟩
    rw [checkedAddress_of_ok hpa, ← accessPresent_iff, ← accessPresent_eq_false_iff]
    refine ⟨fun hpresent hpmp => if_pos ⟨hpresent, hpmp⟩, fun h => if_neg ?_⟩
    rintro ⟨hpresent, hpmp⟩
    simp [hpresent, hpmp] at h

end Sys2Proof.Machine
end

section
/-! Loads and stores (R102, R104, R230 to R239): what the access gives, its exceptions, and its frame. -/

namespace Sys2Proof.Machine

/-! ## Loads -/

section Loads

variable {s : State} {word : Word} {w : Width} {ext : Word → Word} {rd rs1 : Reg} {imm : BitVec 12}

/-- A load completes with what it read, extended, which is `v`. -/
theorem load_of_resolve_ok {pa : PAddr} {v : Word} (hx0 : rdX0Trap s rd = false)
    (h : resolve s .load w (effectiveAddress (s.readX rs1) imm) = .ok pa)
    (hv : ext (physRead s (.access .load) w pa) = v) :
    ∃ t, load word w ext rd rs1 imm s = .next t ∧ CompletedWith s t rd v (s.pc + 4#32) := by
  refine ⟨_, ?_, completedWith_writeX s rd v _⟩
  simp [load, hx0, memRead, h, complete, hv]

theorem load_of_resolve_error {r : Raised} (hx0 : rdX0Trap s rd = false)
    (h : resolve s .load w (effectiveAddress (s.readX rs1) imm) = .error r) :
    load word w ext rd rs1 imm s = raiseRaised r s := by
  simp [load, hx0, memRead, h]

end Loads

/-- The low bits of a value extended with zeros are the value. -/
theorem extractLsb'_setWidth_self {n m : Nat} (b : BitVec n) (h : n ≤ m) :
    (b.setWidth m).extractLsb' 0 n = b := by
  rw [BitVec.extractLsb'_setWidth_of_le (by omega), BitVec.extractLsb'_eq_self]

section LoadResults

variable (s : State) (use : ReadUse) (pa : PAddr)

theorem signByte_physRead :
    signByte (physRead s use .byte pa) = (physReadByte s use (pa.toNat + 0)).signExtend 32 :=
  congrArg _ (extractLsb'_setWidth_self _ (by decide))

theorem zeroByte_physRead :
    zeroByte (physRead s use .byte pa) = (physReadByte s use (pa.toNat + 0)).setWidth 32 :=
  congrArg _ (extractLsb'_setWidth_self _ (by decide))

theorem signHalf_physRead :
    signHalf (physRead s use .half pa) =
      (physReadByte s use (pa.toNat + 1) ++ physReadByte s use (pa.toNat + 0)).signExtend 32 :=
  congrArg _ (extractLsb'_setWidth_self _ (by decide))

theorem zeroHalf_physRead :
    zeroHalf (physRead s use .half pa) =
      (physReadByte s use (pa.toNat + 1) ++ physReadByte s use (pa.toNat + 0)).setWidth 32 :=
  congrArg _ (extractLsb'_setWidth_self _ (by decide))

end LoadResults

/-- Settles O20: the five loads differ in their width and in how they extend what was read. -/
theorem loads : Obligations.Loads := by
  intro s rd rs1 imm pa hx0
  refine ⟨fun h => ⟨?_, ?_⟩, fun h => ⟨?_, ?_⟩, fun h => ?_⟩
  · exact load_of_resolve_ok hx0 h (signByte_physRead ..)
  · exact load_of_resolve_ok hx0 h (zeroByte_physRead ..)
  · exact load_of_resolve_ok hx0 h (signHalf_physRead ..)
  · exact load_of_resolve_ok hx0 h (zeroHalf_physRead ..)
  · exact load_of_resolve_ok hx0 h rfl

/-! ## Stores -/

section Stores

variable {s : State} {w : Width} {rs2 rs1 : Reg} {imm : BitVec 12}

theorem store_of_resolve_error {r : Raised}
    (h : resolve s .store w (effectiveAddress (s.readX rs1) imm) = .error r) :
    store w rs2 rs1 imm s = raiseRaised r s := by
  simp only [store, memWrite, h]

theorem mem_physWrite_stored {pa : PAddr} (hpresent : accessPresent s.cfg w pa = true) (v : Word)
    (a : Nat) : a ∈ (physWrite s w pa v).stored ↔ a ∈ s.stored ∨ InAccess w pa a := by
  rw [accessPresent_iff] at hpresent
  rw [physWrite_eq_storeBytes, mem_storeBytes_stored]
  refine or_congr_right ⟨?_, fun ⟨hlow, hhigh⟩ => ?_⟩
  · rintro ⟨i, hi, rfl, -⟩
    exact ⟨by omega, by omega⟩
  · have ha : a = pa.toNat + (a - pa.toNat) := by omega
    exact ⟨a - pa.toNat, by omega, ha, ha ▸ hpresent _ (by omega)⟩

/-- What a completed store did. -/
theorem storedAt_physWrite (hm : s.memoryCanonical = true) {pa : PAddr}
    (hpresent : accessPresent s.cfg w pa = true) (v : Word) :
    StoredAt s (((physWrite s w pa v).setPc (s.pc + 4#32)).retire) w pa v where
  bytes use i hi hp := by
    rw [physWrite_eq_storeBytes]
    exact physReadByte_storeBytes_same hm hi hp use
  romBytes use i hi hp := by
    rw [physWrite_eq_storeBytes]
    exact physReadByte_storeBytes_rom hm hi hp use
  softwareInterrupt i hi hp := by
    rw [physWrite_eq_storeBytes]
    exact storeBytes_msipBit hi hp
  otherBytes use a ha := physReadByte_physWrite_other s w pa v use ha
  otherMemory a ha := by
    rw [physWrite_eq_storeBytes]
    exact storeBytes_kept (f := (·.mem.read a)) fun i hi =>
      keptAt_mem_read fun e => ha ⟨by omega, by omega⟩
  marked a := mem_physWrite_stored hpresent v a
  msipKept h := by
    rw [physWrite_eq_storeBytes]
    exact storeBytes_kept (f := (·.msipBit)) fun i hi => keptAt_msipBit (h i hi)
  mtimecmpKept h := by
    rw [physWrite_eq_storeBytes]
    exact storeBytes_kept (f := (·.mtimecmp)) fun i hi => keptAt_mtimecmp fun off => h i off hi
  mtimeKept h := by
    rw [physWrite_eq_storeBytes]
    exact storeBytes_kept (f := (·.mtime)) fun i hi => keptAt_mtime fun off => h i off hi
  registers r := readX_congr r (physWrite_x s w pa v)
  nextAddress := rfl
  counted := by simp
  nothingElse := by
    rw [physWrite_kept]
    rfl

theorem store_of_resolve_ok (hm : s.memoryCanonical = true) {pa : PAddr}
    (h : resolve s .store w (effectiveAddress (s.readX rs1) imm) = .ok pa) :
    ∃ t, store w rs2 rs1 imm s = .next t ∧ StoredAt s t w pa (s.readX rs2) := by
  obtain ⟨-, -, hpresent, -⟩ := resolve_ok h
  refine ⟨_, ?_, storedAt_physWrite hm hpresent _⟩
  simp [store, memWrite, h, complete]

end Stores

/-- Settles O21: the three stores differ in their width. -/
theorem stores : Obligations.Stores := fun _ _ _ _ _ hm =>
  ⟨store_of_resolve_ok hm, store_of_resolve_ok hm, store_of_resolve_ok hm⟩

/-! ## Exceptions of an access (R104, R142) -/

/-- Whatever an access raises records its address. -/
theorem tval_of_resolve_error {s : State} {acc : Access} {w : Width} {va : Word} {r : Raised}
    (h : resolve s acc w va = .error r) : r.tval = va := by
  obtain ⟨m, -, -, rfl⟩ | rfl | rfl := resolve_error h <;> rfl

/-- A misaligned access raises that before anything else. -/
theorem exc_of_misaligned {s : State} {acc : Access} {w : Width} {va : Word} {r : Raised} {e : Exc}
    (h : resolve s acc w va = .error r) (he : misalignedOf acc = some e)
    (hva : va.toNat % w.bytes ≠ 0) : r.exc = e := by
  rw [resolve_of_misaligned he hva] at h
  injection h with h
  rw [← h]

theorem raisedBy_load {s : State} {word : Word} {w : Width} {ext : Word → Word} {rd rs1 : Reg}
    {imm : BitVec 12} {r : Raised} (hx0 : rdX0Trap s rd = false)
    (h : resolve s .load w (s.readX rs1 + imm.signExtend 32) = .error r) :
    RaisedBy (load word w ext rd rs1 imm s) s r.exc (s.readX rs1 + imm.signExtend 32) := by
  rw [load_of_resolve_error hx0 h, ← tval_of_resolve_error h]
  rfl

theorem raisedBy_store {s : State} {w : Width} {rs2 rs1 : Reg} {imm : BitVec 12} {r : Raised}
    (h : resolve s .store w (s.readX rs1 + imm.signExtend 32) = .error r) :
    RaisedBy (store w rs2 rs1 imm s) s r.exc (s.readX rs1 + imm.signExtend 32) := by
  rw [store_of_resolve_error h, ← tval_of_resolve_error h]
  rfl

/-- Settles O22: the instruction takes the exception its address raised. -/
theorem accessExceptions : Obligations.AccessExceptions := by
  intro s rd rs2 rs1 imm r
  refine ⟨fun hx0 => ⟨fun h => ?_, fun h => ?_, fun h => ?_⟩, fun h => ?_, fun h => ?_, fun h => ?_⟩
  · exact ⟨raisedBy_load hx0 h, raisedBy_load hx0 h⟩
  · exact ⟨raisedBy_load hx0 h, raisedBy_load hx0 h, exc_of_misaligned h rfl⟩
  · exact ⟨raisedBy_load hx0 h, exc_of_misaligned h rfl⟩
  · exact raisedBy_store h
  · exact ⟨raisedBy_store h, exc_of_misaligned h rfl⟩
  · exact ⟨raisedBy_store h, exc_of_misaligned h rfl⟩

end Sys2Proof.Machine
end

section
/-! Jumps and branches (R105, R210 to R218). -/

namespace Sys2Proof.Machine

theorem targetAligned_iff (target : Word) :
    targetAligned target = true ↔ target.extractLsb' 0 2 = 0#2 := decide_eq_true_iff

theorem jumpAndLink_outcome (rd : Reg) (target : Word) (s : State) :
    JumpOutcome (jumpAndLink rd target s) s rd target := by
  refine ⟨fun h => ⟨_, ?_, completedWith_writeX s rd (s.pc + 4#32) target⟩, fun h => ?_⟩
  · rw [jumpAndLink, if_pos ((targetAligned_iff target).2 h), completeAt]
  · rw [RaisedBy, jumpAndLink, if_neg (mt (targetAligned_iff target).1 h), raise]

/-- Settles O18: both jumps link; they differ in their target. -/
theorem jumps : Obligations.Jumps :=
  ⟨fun s rd _ => jumpAndLink_outcome rd _ s, fun s rd _ _ => jumpAndLink_outcome rd _ s⟩

/-- R212, for the condition a branch tests. -/
theorem branch_outcome {taken : Bool} {cond : Prop} (hcond : taken = true ↔ cond) (off : BitVec 13)
    (s : State) : BranchOutcome (branch taken off s) s cond (s.pc + offset13Word off) := by
  rw [← hcond]
  refine ⟨fun hnot => ⟨_, ?_, rfl⟩, fun htaken haligned => ⟨_, ?_, rfl⟩, fun htaken hmisaligned => ?_⟩
  · rw [branch, if_neg hnot]
    rfl
  · rw [branch, if_pos htaken, if_pos ((targetAligned_iff _).2 haligned)]
    rfl
  · rw [branch, if_pos htaken, if_neg (mt (targetAligned_iff _).1 hmisaligned)]
    rfl

/-- Settles O19: each branch tests its condition. -/
theorem branches : Obligations.Branches := by
  intro s rs1 rs2 off
  refine ⟨branch_outcome decide_eq_true_iff off s, branch_outcome decide_eq_true_iff off s,
    branch_outcome BitVec.slt_iff_toInt_lt off s, branch_outcome ?_ off s,
    branch_outcome BitVec.ult_iff_toNat_lt off s, branch_outcome ?_ off s⟩
  · rw [Bool.not_eq_true', ← Bool.not_eq_true, ltSigned, BitVec.slt_iff_toInt_lt, Int.not_lt]
  · rw [Bool.not_eq_true', ← Bool.not_eq_true, ltUnsigned, BitVec.ult_iff_toNat_lt, Nat.not_lt]

end Sys2Proof.Machine
end

section
/-! The one refusal of a step: the fetch of a word with a byte that was stored to (R148, R562). -/

namespace Sys2Proof.Machine

/-- A hart that does not wake ends its step with the platform's part. -/
theorem step_of_not_runs {s : State} (h : ¬ s.runs) : step s = .next (platform s) := by
  simp only [State.runs, not_or, Bool.not_eq_false, Bool.not_eq_true, ← wakeRequested_iff] at h
  obtain ⟨hstalled, hrequest, hwake⟩ := h
  simp [step, stepWith, hstalled, hrequest, hwake]

theorem isMsip_iff (p : Place) : p.isMsip = true ↔ ∃ off, p = .msip off := by
  cases p <;> simp [Place.isMsip]

theorem storedTo_iff (s : State) (w : Width) (pa : PAddr) :
    storedTo s w pa = true ↔ ∃ k < w.bytes, pa.toNat + k ∈ s.stored ∨
      ((∃ off, placeOf s.cfg (pa.toNat + k) = .msip off) ∧ s.msipStored = true) := by
  simp [storedTo, accessAddresses, byteStoredTo, isMsip_iff]

theorem fetch_eq_stale_iff (s : State) :
    fetch s = .stale ↔ ∃ pa, resolve s .fetch .word s.pc = .ok pa ∧ storedTo s .word pa = true := by
  unfold fetch
  cases hr : resolve s .fetch .word s.pc with
  | error r => simp
  | ok pa => cases hs : storedTo s .word pa <;> simp [hs]

/-- The fetch of a word with a stored byte is refused; everything else of a step that takes no interrupt
answers a next state. -/
theorem fetchDecodeRun_exec_cases (s : State) :
    (fetch s = .stale ∧ fetchDecodeRun exec s = .refused .fetchOfStoredBytes) ∨
      (fetch s ≠ .stale ∧ ∃ t, fetchDecodeRun exec s = .next t) := by
  cases hf : fetch s with
  | stale => exact .inl ⟨rfl, by rw [fetchDecodeRun, hf]⟩
  | raised r =>
    refine .inr ⟨by simp, ?_⟩
    rw [fetchDecodeRun_of_raised hf]
    exact ⟨_, rfl⟩
  | word w =>
    refine .inr ⟨by simp, ?_⟩
    cases hd : decode w with
    | error e =>
      rw [fetchDecodeRun_of_decode_error hf hd]
      exact ⟨_, rfl⟩
    | ok i =>
      obtain ⟨t, ht, -⟩ := exec_cases i s
      exact ⟨t, by rw [fetchDecodeRun_of_decode_ok hf hd, ht]⟩

/-- All a step can answer, and when. -/
theorem step_outcome_cases (s : State) :
    ((s.runs ∧ interruptTaken (awake s) = none ∧ fetch (awake s) = .stale) ∧
        step s = .refused .fetchOfStoredBytes) ∨
      (¬ (s.runs ∧ interruptTaken (awake s) = none ∧ fetch (awake s) = .stale) ∧
        ∃ t, step s = .next t) := by
  by_cases hr : s.runs
  · cases hi : interruptTaken (awake s) with
    | some i =>
      refine .inr ⟨by simp, takeInterrupt i (awake s), ?_⟩
      rw [step_of_runs hr, runUnstalled, hi]
    | none =>
      rw [step_of_runs_of_no_interrupt hr hi]
      exact (fetchDecodeRun_exec_cases (awake s)).imp (fun ⟨hf, h⟩ => ⟨⟨hr, rfl, hf⟩, h⟩)
        fun ⟨hf, h⟩ => ⟨fun ⟨_, _, hstale⟩ => hf hstale, h⟩
  · exact .inr ⟨fun ⟨h, _⟩ => hr h, _, step_of_not_runs hr⟩

/-- Settles O10: only the fetch refuses. -/
theorem stepOutcomes : Obligations.StepOutcomes := by
  intro s
  have hstale := fetch_eq_stale_iff (awake s)
  have hcfg : (awake s).cfg = s.cfg := platform_cfg s
  simp only [awake_pc, storedTo_iff, hcfg] at hstale
  obtain ⟨hall, hstep⟩ | ⟨hnot, t, hstep⟩ := step_outcome_cases s
  · rw [hstale] at hall
    exact ⟨.inl hstep, iff_of_true hstep hall⟩
  · rw [hstale] at hnot
    exact ⟨.inr ⟨t, hstep⟩, iff_of_false (by simp [hstep]) hnot⟩

end Sys2Proof.Machine
end

section
/-! The formats (R171, R172): the fields of a word, put back by their format, are the word. -/

namespace Sys2Proof

section Fields

variable {w : Word} {f7 : BitVec 7} {f3 : BitVec 3} {op : BitVec 7}

theorem encR_of_fields (h7 : funct7Of w = f7) (h3 : funct3Of w = f3) (hop : opcodeOf w = op) :
    encR f7 (rs2Of w) (rs1Of w) f3 (rdOf w) op = w := by
  subst h7 h3 hop
  refine BitVec.eq_of_getLsbD_eq fun i hi => ?_
  simp only [encR, funct7Of, rs2Of, rs1Of, funct3Of, rdOf, opcodeOf, BitVec.getLsbD_append,
    BitVec.getLsbD_extractLsb']
  interval_cases i <;> rfl

theorem encR_of_fields_rd {rd : Reg} (h7 : funct7Of w = f7) (h3 : funct3Of w = f3) (hrd : rdOf w = rd)
    (hop : opcodeOf w = op) : encR f7 (rs2Of w) (rs1Of w) f3 rd op = w :=
  hrd ▸ encR_of_fields h7 h3 hop

theorem encI_of_fields (h3 : funct3Of w = f3) (hop : opcodeOf w = op) :
    encI (immIOf w) (rs1Of w) f3 (rdOf w) op = w := by
  subst h3 hop
  refine BitVec.eq_of_getLsbD_eq fun i hi => ?_
  simp only [encI, immIOf, rs1Of, funct3Of, rdOf, opcodeOf, BitVec.getLsbD_append,
    BitVec.getLsbD_extractLsb']
  interval_cases i <;> rfl

theorem encS_of_fields (h3 : funct3Of w = f3) (hop : opcodeOf w = op) :
    encS (immSOf w) (rs2Of w) (rs1Of w) f3 op = w := by
  subst h3 hop
  refine BitVec.eq_of_getLsbD_eq fun i hi => ?_
  simp only [encS, immSOf, rs2Of, rs1Of, funct3Of, opcodeOf, BitVec.getLsbD_append,
    BitVec.getLsbD_extractLsb']
  interval_cases i <;> rfl

theorem encB_of_fields (h3 : funct3Of w = f3) (hop : opcodeOf w = 0b1100011#7) :
    encB (immBOf w) (rs2Of w) (rs1Of w) f3 = w := by
  subst h3
  rw [encB, ← hop]
  refine BitVec.eq_of_getLsbD_eq fun i hi => ?_
  simp only [immBOf, rs2Of, rs1Of, funct3Of, opcodeOf, BitVec.getLsbD_append,
    BitVec.getLsbD_extractLsb']
  interval_cases i <;> rfl

theorem encU_of_fields (hop : opcodeOf w = op) : encU (immUOf w) (rdOf w) op = w := by
  subst hop
  refine BitVec.eq_of_getLsbD_eq fun i hi => ?_
  simp only [encU, immUOf, rdOf, opcodeOf, BitVec.getLsbD_append, BitVec.getLsbD_extractLsb']
  interval_cases i <;> rfl

theorem encJ_of_fields (hop : opcodeOf w = op) : encJ (immJOf w) (rdOf w) op = w := by
  subst hop
  refine BitVec.eq_of_getLsbD_eq fun i hi => ?_
  simp only [encJ, immJOf, rdOf, opcodeOf, BitVec.getLsbD_append, BitVec.getLsbD_extractLsb']
  interval_cases i <;> rfl

end Fields

/-- The four fields of `FENCE` fill the immediate of the I format (R326). -/
theorem fenceFields_append (w : Word) :
    w.extractLsb' 28 4 ++ w.extractLsb' 24 4 ++ w.extractLsb' 20 4 = immIOf w := by
  refine BitVec.eq_of_getLsbD_eq fun i hi => ?_
  simp only [immIOf, BitVec.getLsbD_append, BitVec.getLsbD_extractLsb']
  interval_cases i <;> rfl

theorem encFence_of_fields {w : Word} {f3 : BitVec 3} {op : BitVec 7} (h3 : funct3Of w = f3)
    (hop : opcodeOf w = op) :
    encI (w.extractLsb' 28 4 ++ w.extractLsb' 24 4 ++ w.extractLsb' 20 4) (rs1Of w) f3 (rdOf w) op =
      w := by
  rw [fenceFields_append, encI_of_fields h3 hop]

/-- The bits from 20 up of an I-format word are those of its immediate. -/
theorem encI_extractLsb'_of_le (imm : BitVec 12) (rs1 : Reg) (f3 : BitVec 3) (rd : Reg) (op : BitVec 7)
    {k n : Nat} (h : 20 ≤ k) :
    (encI imm rs1 f3 rd op).extractLsb' k n = imm.extractLsb' (k - 20) n := by
  rw [encI, BitVec.extractLsb'_append_eq_of_le (by omega), BitVec.extractLsb'_append_eq_of_le (by omega),
    BitVec.extractLsb'_append_eq_of_le (by omega), BitVec.extractLsb'_append_eq_of_le (by omega)]
  rfl

/-- The immediate of `FENCE` is its three fields. -/
theorem fenceImm_fields (fm pred succ : BitVec 4) :
    (fm ++ pred ++ succ).extractLsb' 8 4 = fm ∧ (fm ++ pred ++ succ).extractLsb' 4 4 = pred ∧
      (fm ++ pred ++ succ).extractLsb' 0 4 = succ :=
  ⟨(BitVec.extractLsb'_append_eq_of_le (by decide)).trans BitVec.extractLsb'_append_eq_left,
    (BitVec.extractLsb'_append_eq_of_le (by decide)).trans BitVec.extractLsb'_append_eq_right,
    BitVec.extractLsb'_append_eq_right⟩

/-- The offset of a branch is even. -/
theorem immBOf_even (w : Word) : (!(immBOf w).getLsbD 0) = true := by
  rw [immBOf, BitVec.getLsbD_append]
  rfl

/-- The offset of `JAL` is even. -/
theorem immJOf_even (w : Word) : (!(immJOf w).getLsbD 0) = true := by
  rw [immJOf, BitVec.getLsbD_append]
  rfl

end Sys2Proof
end

section
/-! Decoding and encoding are inverse (R171 to R176). -/

namespace Sys2Proof

/-! ## The rows of the opcode table (R175, R187) -/

/-- The major opcodes in use (R173). -/
def majorOpcodes : List (BitVec 7) :=
  [0b0110111#7, 0b0010111#7, 0b1101111#7, 0b1100111#7, 0b1100011#7, 0b0000011#7, 0b0100011#7,
    0b0010011#7, 0b0110011#7, 0b0001111#7, 0b1110011#7]

/-- Where a mask keeps a whole field, the match fixes the field. -/
theorem extractLsb'_of_masked {w m p : Word} {k n : Nat} (h : w &&& m = p)
    (hm : m.extractLsb' k n = BitVec.allOnes n) : w.extractLsb' k n = p.extractLsb' k n := by
  rw [← h, BitVec.extractLsb'_and, hm, BitVec.and_allOnes]

theorem matchesWord_iff (r : OpcodeRow) (w : Word) :
    r.matchesWord w = true ↔ w &&& r.mask = r.pattern := decide_eq_true_iff

/-- No two rows have the same mnemonic. -/
theorem opcodeRow_ext {r q : OpcodeRow} (hr : r ∈ opcodeRows) (hq : q ∈ opcodeRows)
    (h : r.mnemonic = q.mnemonic) : r = q := by
  have hnodup : (opcodeRows.map OpcodeRow.mnemonic).Nodup := by decide
  exact List.inj_on_of_nodup_map hnodup hr hq h

/-- Every row fixes the major opcode. -/
theorem opcodeOf_of_matchesWord {r : OpcodeRow} {w : Word} (hr : r ∈ opcodeRows)
    (h : r.matchesWord w = true) :
    opcodeOf w = opcodeOf r.pattern ∧ opcodeOf w ∈ majorOpcodes := by
  have hrows : ∀ r ∈ opcodeRows,
      opcodeOf r.mask = BitVec.allOnes 7 ∧ opcodeOf r.pattern ∈ majorOpcodes := by decide
  obtain ⟨hmask, hmajor⟩ := hrows r hr
  have hop : opcodeOf w = opcodeOf r.pattern := extractLsb'_of_masked ((matchesWord_iff r w).1 h) hmask
  exact ⟨hop, hop ▸ hmajor⟩

/-- The word of an instruction matches the row of its mnemonic. -/
theorem encodesRow (i : Instr) : Laws.EncodesRow.Statement i := by
  cases i with
  | lui => exact Laws.EncodesRow.lui ..
  | auipc => exact Laws.EncodesRow.auipc ..
  | jal => exact Laws.EncodesRow.jal ..
  | jalr => exact Laws.EncodesRow.jalr ..
  | beq => exact Laws.EncodesRow.beq ..
  | bne => exact Laws.EncodesRow.bne ..
  | blt => exact Laws.EncodesRow.blt ..
  | bge => exact Laws.EncodesRow.bge ..
  | bltu => exact Laws.EncodesRow.bltu ..
  | bgeu => exact Laws.EncodesRow.bgeu ..
  | lb => exact Laws.EncodesRow.lb ..
  | lh => exact Laws.EncodesRow.lh ..
  | lw => exact Laws.EncodesRow.lw ..
  | lbu => exact Laws.EncodesRow.lbu ..
  | lhu => exact Laws.EncodesRow.lhu ..
  | sb => exact Laws.EncodesRow.sb ..
  | sh => exact Laws.EncodesRow.sh ..
  | sw => exact Laws.EncodesRow.sw ..
  | addi => exact Laws.EncodesRow.addi ..
  | slti => exact Laws.EncodesRow.slti ..
  | sltiu => exact Laws.EncodesRow.sltiu ..
  | xori => exact Laws.EncodesRow.xori ..
  | ori => exact Laws.EncodesRow.ori ..
  | andi => exact Laws.EncodesRow.andi ..
  | slli => exact Laws.EncodesRow.slli ..
  | srli => exact Laws.EncodesRow.srli ..
  | srai => exact Laws.EncodesRow.srai ..
  | add => exact Laws.EncodesRow.add ..
  | sub => exact Laws.EncodesRow.sub ..
  | sll => exact Laws.EncodesRow.sll ..
  | slt => exact Laws.EncodesRow.slt ..
  | sltu => exact Laws.EncodesRow.sltu ..
  | xor => exact Laws.EncodesRow.xor ..
  | srl => exact Laws.EncodesRow.srl ..
  | sra => exact Laws.EncodesRow.sra ..
  | or => exact Laws.EncodesRow.or ..
  | and => exact Laws.EncodesRow.and ..
  | fence => exact Laws.EncodesRow.fence ..
  | ecall => exact Laws.EncodesRow.ecall
  | ebreak => exact Laws.EncodesRow.ebreak
  | csrrw => exact Laws.EncodesRow.csrrw ..
  | csrrs => exact Laws.EncodesRow.csrrs ..
  | csrrc => exact Laws.EncodesRow.csrrc ..
  | csrrwi => exact Laws.EncodesRow.csrrwi ..
  | csrrsi => exact Laws.EncodesRow.csrrsi ..
  | csrrci => exact Laws.EncodesRow.csrrci ..
  | uret => exact Laws.EncodesRow.uret
  | sret => exact Laws.EncodesRow.sret
  | mret => exact Laws.EncodesRow.mret
  | wfi => exact Laws.EncodesRow.wfi
  | sfenceVma => exact Laws.EncodesRow.sfenceVma ..

theorem opcodeOf_encode_mem (i : Instr) : opcodeOf (encode i) ∈ majorOpcodes := by
  obtain ⟨r, hr, -, h⟩ := encodesRow i
  exact (opcodeOf_of_matchesWord hr h).2

/-! ## Decoding what was encoded -/

/-- A word of a major opcode in use is none of R176's. -/
theorem decode_eq_decodeMajor {w : Word} (h : opcodeOf w ∈ majorOpcodes) : decode w = decodeMajor w := by
  have hmajor : ∀ op ∈ majorOpcodes, op.extractLsb' 0 2 = 0b11#2 ∧ op ≠ opcodeOf 0xFFFFFFFF#32 := by
    decide
  obtain ⟨hlow, hones⟩ := hmajor _ h
  have hlow : w.extractLsb' 0 2 = 0b11#2 := by
    rw [← hlow, opcodeOf, BitVec.extractLsb'_extractLsb'_of_le (by decide)]
  have hzero : w.extractLsb' 0 16 ≠ 0#16 := by
    intro e
    have := congrArg (BitVec.extractLsb' 0 2) e
    rw [BitVec.extractLsb'_extractLsb'_of_le (by decide), hlow] at this
    exact absurd this (by decide)
  rw [decode, if_neg hzero, if_neg (fun e => hones (congrArg opcodeOf e)), if_neg (not_not_intro hlow)]

theorem decodeSystem_of_funct7 {w : Word} (h3 : funct3Of w = 0b000#3) (h7 : funct7Of w = 0b0001001#7)
    (hrd : rdOf w = 0#5) : decodeSystem w = .ok (.sfenceVma (rs1Of w) (rs2Of w)) := by
  have hne (v : Word) (hv : funct7Of v ≠ 0b0001001#7) : w ≠ v := fun e => hv (e ▸ h7)
  rw [decodeSystem, if_pos h3, if_neg (hne _ (by decide)), if_neg (hne _ (by decide)),
    if_neg (hne _ (by decide)), if_neg (hne _ (by decide)), if_neg (hne _ (by decide)),
    if_neg (hne _ (by decide)), if_pos ⟨h7, hrd⟩]

theorem decodeMajor_encode (i : Instr) (hwf : i.wf = true) : decodeMajor (encode i) = .ok i := by
  cases i with
  | lui | auipc | jalr => simp [encode, decodeMajor]
  | jal rd off =>
    simp [encode, decodeMajor, encJ_imm off _ _ (by simpa [Instr.wf] using hwf)]
  | beq _ _ off | bne _ _ off | blt _ _ off | bge _ _ off | bltu _ _ off | bgeu _ _ off =>
    simp [encode, decodeMajor, decodeBranch, encB_imm off _ _ _ (by simpa [Instr.wf] using hwf)]
  | lb | lh | lw | lbu | lhu => simp [encode, decodeMajor, decodeLoad]
  | sb | sh | sw => simp [encode, decodeMajor, decodeStore]
  | addi | slti | sltiu | xori | ori | andi | slli | srli | srai =>
    simp [encode, decodeMajor, decodeOpImm]
  | add | sub | sll | slt | sltu | xor | srl | sra | or | and => simp [encode, decodeMajor, decodeOp]
  | fence => simp [encode, decodeMajor, encI_extractLsb'_of_le, fenceImm_fields]
  | csrrw | csrrs | csrrc | csrrwi | csrrsi | csrrci => simp [encode, decodeMajor, decodeSystem]
  | ecall | ebreak | uret | sret | mret | wfi => rfl
  | sfenceVma rs1 rs2 => simp [encode, decodeMajor, decodeSystem_of_funct7]

/-- Settles O1: the major opcode of an encoded word is in use, and every arm reads its operands back. -/
theorem decodeEncode : Obligations.DecodeEncode := fun i hwf => by
  rw [decode_eq_decodeMajor (opcodeOf_encode_mem i), decodeMajor_encode i hwf]

/-! ## Encoding what was decoded -/

/-- The instruction is well formed and `w` is its word. -/
def Instr.HasWord (i : Instr) (w : Word) : Prop := encode i = w ∧ i.wf = true

section Decoded

variable {w : Word} {i j : Instr}

theorem hasWord_of_ok {ε : Type} (h : (.ok j : Except ε Instr) = .ok i) (henc : encode j = w)
    (hwf : j.wf = true) : i.HasWord w := Except.ok.inj h ▸ ⟨henc, hwf⟩

theorem hasWord_of_decodeBranch (hop : opcodeOf w = 0b1100011#7) (h : decodeBranch w = .ok i) :
    i.HasWord w := by
  simp only [decodeBranch] at h
  split_ifs at h with h3 h3 h3 h3 h3 h3
  all_goals exact hasWord_of_ok h (encB_of_fields h3 hop) (immBOf_even w)

theorem hasWord_of_decodeLoad (hop : opcodeOf w = 0b0000011#7) (h : decodeLoad w = .ok i) :
    i.HasWord w := by
  simp only [decodeLoad] at h
  split_ifs at h with h3 h3 h3 h3 h3
  all_goals exact hasWord_of_ok h (encI_of_fields h3 hop) rfl

theorem hasWord_of_decodeStore (hop : opcodeOf w = 0b0100011#7) (h : decodeStore w = .ok i) :
    i.HasWord w := by
  simp only [decodeStore] at h
  split_ifs at h with h3 h3 h3
  all_goals exact hasWord_of_ok h (encS_of_fields h3 hop) rfl

/-- The last arm of `decodeOpImm` tests no `funct3`: it is the one value left. -/
theorem hasWord_of_decodeOpImm (hop : opcodeOf w = 0b0010011#7) (h : decodeOpImm w = .ok i) :
    i.HasWord w := by
  simp only [decodeOpImm] at h
  split_ifs at h with h0 h2 h3 h4 h6 h7 h1 g g g
  · exact hasWord_of_ok h (encI_of_fields h0 hop) rfl
  · exact hasWord_of_ok h (encI_of_fields h2 hop) rfl
  · exact hasWord_of_ok h (encI_of_fields h3 hop) rfl
  · exact hasWord_of_ok h (encI_of_fields h4 hop) rfl
  · exact hasWord_of_ok h (encI_of_fields h6 hop) rfl
  · exact hasWord_of_ok h (encI_of_fields h7 hop) rfl
  · exact hasWord_of_ok h (encR_of_fields g h1 hop) rfl
  all_goals
    have h5 : funct3Of w = 0b101#3 := by bv_omega
    exact hasWord_of_ok h (encR_of_fields g h5 hop) rfl

/-- The last arm of `decodeOp` for `funct7` = 0 tests no `funct3`: it is the one value left. -/
theorem hasWord_of_decodeOp (hop : opcodeOf w = 0b0110011#7) (h : decodeOp w = .ok i) :
    i.HasWord w := by
  simp only [decodeOp] at h
  split_ifs at h with g h0 h1 h2 h3 h4 h5 h6 g h0 h5
  · exact hasWord_of_ok h (encR_of_fields g h0 hop) rfl
  · exact hasWord_of_ok h (encR_of_fields g h1 hop) rfl
  · exact hasWord_of_ok h (encR_of_fields g h2 hop) rfl
  · exact hasWord_of_ok h (encR_of_fields g h3 hop) rfl
  · exact hasWord_of_ok h (encR_of_fields g h4 hop) rfl
  · exact hasWord_of_ok h (encR_of_fields g h5 hop) rfl
  · exact hasWord_of_ok h (encR_of_fields g h6 hop) rfl
  · have h7 : funct3Of w = 0b111#3 := by bv_omega
    exact hasWord_of_ok h (encR_of_fields g h7 hop) rfl
  · exact hasWord_of_ok h (encR_of_fields g h0 hop) rfl
  · exact hasWord_of_ok h (encR_of_fields g h5 hop) rfl

theorem hasWord_of_decodeSystem (hop : opcodeOf w = 0b1110011#7) (h : decodeSystem w = .ok i) :
    i.HasWord w := by
  simp only [decodeSystem] at h
  split_ifs at h with h3 hw hw hw hw hw hw hfence h1 h1 h1 h1 h1 h1
  -- the six instructions that are one word each
  iterate 6 (exact hasWord_of_ok h hw.symm rfl)
  · obtain ⟨h7, hrd⟩ := hfence
    exact hasWord_of_ok h (encR_of_fields_rd h7 h3 hrd hop) rfl
  all_goals exact hasWord_of_ok h (encI_of_fields h1 hop) rfl

theorem hasWord_of_decodeMajor (h : decodeMajor w = .ok i) : i.HasWord w := by
  simp only [decodeMajor] at h
  split at h
  case isTrue hop => exact hasWord_of_ok h (encU_of_fields hop) rfl
  split at h
  case isTrue hop => exact hasWord_of_ok h (encU_of_fields hop) rfl
  split at h
  case isTrue hop => exact hasWord_of_ok h (encJ_of_fields hop) (immJOf_even w)
  split at h
  case isTrue hop =>
    split at h
    case isTrue h3 => exact hasWord_of_ok h (encI_of_fields h3 hop) rfl
    case isFalse => cases h
  split at h
  case isTrue hop => exact hasWord_of_decodeBranch hop h
  split at h
  case isTrue hop => exact hasWord_of_decodeLoad hop h
  split at h
  case isTrue hop => exact hasWord_of_decodeStore hop h
  split at h
  case isTrue hop => exact hasWord_of_decodeOpImm hop h
  split at h
  case isTrue hop => exact hasWord_of_decodeOp hop h
  split at h
  case isTrue hop =>
    split at h
    case isTrue h3 => exact hasWord_of_ok h (encFence_of_fields h3 hop) rfl
    case isFalse => cases h
  split at h
  case isTrue hop => exact hasWord_of_decodeSystem hop h
  cases h

end Decoded

/-- Settles O2: each arm of the decoder takes the fields its format puts back. -/
theorem encodeDecode : Obligations.EncodeDecode := by
  intro w i h
  unfold decode at h
  split_ifs at h
  exact hasWord_of_decodeMajor h

end Sys2Proof
end

section
/-! Decoding follows the opcode table (R175, R187): each row is the words of one instruction. -/

namespace Sys2Proof

/-! ## The words of a row -/

/-- Every word that matches the row is the word of an instruction with the row's mnemonic. -/
def OpcodeRow.Encoded (r : OpcodeRow) : Prop :=
  ∀ w, r.matchesWord w = true → ∃ i : Instr, i.HasWord w ∧ mnemonicOf i = r.mnemonic

/-- The mask of an opcode fixes it. -/
theorem opcodeOf_of_mask {w p : Word} (h : w &&& 0x0000007F#32 = p) : opcodeOf w = opcodeOf p :=
  extractLsb'_of_masked h (by decide)

/-- The mask of an opcode and a `funct3` fixes both. -/
theorem fields_of_mask_funct3 {w p : Word} (h : w &&& 0x0000707F#32 = p) :
    opcodeOf w = opcodeOf p ∧ funct3Of w = funct3Of p :=
  ⟨extractLsb'_of_masked h (by decide), extractLsb'_of_masked h (by decide)⟩

section RowFormats

/-! One lemma for each format: `mk` is the constructor of the row's instruction. That its words have the row's
fields and its mnemonic is the row's holds by computation, so the default argument proves it. -/

variable {m : String} {p : Word}

theorem encoded_U (mk : Reg → BitVec 20 → Instr)
    (hmk : ∀ rd imm, (mk rd imm).HasWord (encU imm rd (opcodeOf p)) ∧ mnemonicOf (mk rd imm) = m := by
      intros
      exact ⟨⟨rfl, rfl⟩, rfl⟩) :
    OpcodeRow.Encoded ⟨m, p, 0x0000007F#32⟩ := by
  intro w h
  have hop := opcodeOf_of_mask ((matchesWord_iff _ w).1 h)
  exact ⟨_, encU_of_fields hop ▸ hmk (rdOf w) (immUOf w)⟩

theorem encoded_J (mk : Reg → BitVec 21 → Instr)
    (hmk : ∀ rd off, (!off.getLsbD 0) = true →
      (mk rd off).HasWord (encJ off rd (opcodeOf p)) ∧ mnemonicOf (mk rd off) = m := by
      intros
      exact ⟨⟨rfl, ‹_›⟩, rfl⟩) :
    OpcodeRow.Encoded ⟨m, p, 0x0000007F#32⟩ := by
  intro w h
  have hop := opcodeOf_of_mask ((matchesWord_iff _ w).1 h)
  exact ⟨_, encJ_of_fields hop ▸ hmk (rdOf w) (immJOf w) (immJOf_even w)⟩

theorem encoded_I (mk : Reg → Reg → BitVec 12 → Instr)
    (hmk : ∀ rd rs1 imm, (mk rd rs1 imm).HasWord (encI imm rs1 (funct3Of p) rd (opcodeOf p)) ∧
      mnemonicOf (mk rd rs1 imm) = m := by
      intros
      exact ⟨⟨rfl, rfl⟩, rfl⟩) :
    OpcodeRow.Encoded ⟨m, p, 0x0000707F#32⟩ := by
  intro w h
  obtain ⟨hop, h3⟩ := fields_of_mask_funct3 ((matchesWord_iff _ w).1 h)
  exact ⟨_, encI_of_fields h3 hop ▸ hmk (rdOf w) (rs1Of w) (immIOf w)⟩

theorem encoded_S (mk : Reg → Reg → BitVec 12 → Instr)
    (hmk : ∀ rs2 rs1 imm, (mk rs2 rs1 imm).HasWord (encS imm rs2 rs1 (funct3Of p) (opcodeOf p)) ∧
      mnemonicOf (mk rs2 rs1 imm) = m := by
      intros
      exact ⟨⟨rfl, rfl⟩, rfl⟩) :
    OpcodeRow.Encoded ⟨m, p, 0x0000707F#32⟩ := by
  intro w h
  obtain ⟨hop, h3⟩ := fields_of_mask_funct3 ((matchesWord_iff _ w).1 h)
  exact ⟨_, encS_of_fields h3 hop ▸ hmk (rs2Of w) (rs1Of w) (immSOf w)⟩

theorem encoded_B (mk : Reg → Reg → BitVec 13 → Instr)
    (hbranch : opcodeOf p = 0b1100011#7 := by rfl)
    (hmk : ∀ rs1 rs2 off, (!off.getLsbD 0) = true →
      (mk rs1 rs2 off).HasWord (encB off rs2 rs1 (funct3Of p)) ∧ mnemonicOf (mk rs1 rs2 off) = m := by
      intros
      exact ⟨⟨rfl, ‹_›⟩, rfl⟩) :
    OpcodeRow.Encoded ⟨m, p, 0x0000707F#32⟩ := by
  intro w h
  obtain ⟨hop, h3⟩ := fields_of_mask_funct3 ((matchesWord_iff _ w).1 h)
  exact ⟨_, encB_of_fields h3 (hop.trans hbranch) ▸
    hmk (rs1Of w) (rs2Of w) (immBOf w) (immBOf_even w)⟩

theorem encoded_R (mk : Reg → Reg → Reg → Instr)
    (hmk : ∀ rd rs1 rs2,
      (mk rd rs1 rs2).HasWord (encR (funct7Of p) rs2 rs1 (funct3Of p) rd (opcodeOf p)) ∧
        mnemonicOf (mk rd rs1 rs2) = m := by
      intros
      exact ⟨⟨rfl, rfl⟩, rfl⟩) :
    OpcodeRow.Encoded ⟨m, p, 0xFE00707F#32⟩ := by
  intro w h
  have h := (matchesWord_iff _ w).1 h
  have h7 : funct7Of w = funct7Of p :=
    extractLsb'_of_masked h (by decide : funct7Of 0xFE00707F#32 = BitVec.allOnes 7)
  have h3 : funct3Of w = funct3Of p :=
    extractLsb'_of_masked h (by decide : funct3Of 0xFE00707F#32 = BitVec.allOnes 3)
  have hop : opcodeOf w = opcodeOf p :=
    extractLsb'_of_masked h (by decide : opcodeOf 0xFE00707F#32 = BitVec.allOnes 7)
  exact ⟨_, encR_of_fields h7 h3 hop ▸ hmk (rdOf w) (rs1Of w) (rs2Of w)⟩

/-- A row whose mask keeps the whole word. -/
theorem encoded_word (i : Instr)
    (hi : i.HasWord p ∧ mnemonicOf i = m := by exact ⟨⟨rfl, rfl⟩, rfl⟩) :
    OpcodeRow.Encoded ⟨m, p, 0xFFFFFFFF#32⟩ := by
  intro w h
  have hw : w &&& BitVec.allOnes 32 = p := (matchesWord_iff _ w).1 h
  rw [BitVec.and_allOnes] at hw
  exact ⟨i, hw ▸ hi⟩

end RowFormats

theorem encoded_fence : OpcodeRow.Encoded ⟨"FENCE", 0x0000000F#32, 0x0000707F#32⟩ := by
  intro w h
  obtain ⟨hop, h3⟩ := fields_of_mask_funct3 ((matchesWord_iff _ w).1 h)
  exact ⟨.fence (w.extractLsb' 28 4) (w.extractLsb' 24 4) (w.extractLsb' 20 4) (rs1Of w) (rdOf w),
    ⟨encFence_of_fields h3 hop, rfl⟩, rfl⟩

/-- The mask of `SFENCE.VMA` keeps `rd` as well. -/
theorem encoded_sfenceVma : OpcodeRow.Encoded ⟨"SFENCE.VMA", 0x12000073#32, 0xFE007FFF#32⟩ := by
  intro w h
  have h := (matchesWord_iff _ w).1 h
  have h7 : funct7Of w = 0b0001001#7 :=
    extractLsb'_of_masked h (by decide : funct7Of 0xFE007FFF#32 = BitVec.allOnes 7)
  have h3 : funct3Of w = 0b000#3 :=
    extractLsb'_of_masked h (by decide : funct3Of 0xFE007FFF#32 = BitVec.allOnes 3)
  have hrd : rdOf w = 0#5 :=
    extractLsb'_of_masked h (by decide : rdOf 0xFE007FFF#32 = BitVec.allOnes 5)
  have hop : opcodeOf w = 0b1110011#7 :=
    extractLsb'_of_masked h (by decide : opcodeOf 0xFE007FFF#32 = BitVec.allOnes 7)
  exact ⟨.sfenceVma (rs1Of w) (rs2Of w), ⟨encR_of_fields_rd h7 h3 hrd hop, rfl⟩, rfl⟩

theorem opcodeRowsBase_encoded : ∀ r ∈ opcodeRowsBase, r.Encoded := by
  simp only [opcodeRowsBase, List.forall_mem_cons]
  exact ⟨encoded_U .lui, encoded_U .auipc, encoded_J .jal, encoded_I .jalr, encoded_B .beq,
    encoded_B .bne, encoded_B .blt, encoded_B .bge, encoded_B .bltu, encoded_B .bgeu, encoded_I .lb,
    encoded_I .lh, encoded_I .lw, encoded_I .lbu, encoded_I .lhu, encoded_S .sb, encoded_S .sh,
    encoded_S .sw, List.forall_mem_nil _⟩

theorem opcodeRowsInteger_encoded : ∀ r ∈ opcodeRowsInteger, r.Encoded := by
  simp only [opcodeRowsInteger, List.forall_mem_cons]
  exact ⟨encoded_I .addi, encoded_I .slti, encoded_I .sltiu, encoded_I .xori, encoded_I .ori,
    encoded_I .andi, encoded_R .slli, encoded_R .srli, encoded_R .srai, encoded_R .add,
    encoded_R .sub, encoded_R .sll, encoded_R .slt, encoded_R .sltu, encoded_R .xor, encoded_R .srl,
    encoded_R .sra, encoded_R .or, encoded_R .and, List.forall_mem_nil _⟩

theorem opcodeRowsSystem_encoded : ∀ r ∈ opcodeRowsSystem, r.Encoded := by
  simp only [opcodeRowsSystem, List.forall_mem_cons]
  exact ⟨encoded_fence, encoded_word .ecall, encoded_word .ebreak,
    encoded_I (fun rd rs1 csr => .csrrw rd csr rs1),
    encoded_I (fun rd rs1 csr => .csrrs rd csr rs1),
    encoded_I (fun rd rs1 csr => .csrrc rd csr rs1),
    encoded_I (fun rd rs1 csr => .csrrwi rd csr rs1),
    encoded_I (fun rd rs1 csr => .csrrsi rd csr rs1),
    encoded_I (fun rd rs1 csr => .csrrci rd csr rs1), encoded_word .uret, encoded_word .sret,
    encoded_word .mret, encoded_word .wfi, encoded_sfenceVma, List.forall_mem_nil _⟩

theorem opcodeRows_encoded {r : OpcodeRow} (hr : r ∈ opcodeRows) : r.Encoded := by
  rw [opcodeRows, List.mem_append, List.mem_append] at hr
  obtain (hr | hr) | hr := hr
  · exact opcodeRowsBase_encoded r hr
  · exact opcodeRowsInteger_encoded r hr
  · exact opcodeRowsSystem_encoded r hr

/-! ## Decoding by the table (R175) -/

/-- A word that decodes matches the row of what it decodes to. -/
theorem matchesWord_of_decode_ok {w : Word} {i : Instr} (h : decode w = .ok i) :
    ∃ r ∈ opcodeRows, r.mnemonic = mnemonicOf i ∧ r.matchesWord w = true := by
  rw [← (encodeDecode w i h).1]
  exact encodesRow i

theorem matchesWord_iff_decode {r : OpcodeRow} (hr : r ∈ opcodeRows) (w : Word) :
    r.matchesWord w = true ↔ ∃ i, decode w = .ok i ∧ mnemonicOf i = r.mnemonic := by
  constructor
  · intro h
    obtain ⟨i, ⟨rfl, hwf⟩, hm⟩ := opcodeRows_encoded hr w h
    exact ⟨i, decodeEncode i hwf, hm⟩
  · rintro ⟨i, hd, hm⟩
    obtain ⟨q, hq, hqm, hqw⟩ := matchesWord_of_decode_ok hd
    rwa [opcodeRow_ext hr hq (hm.symm.trans hqm.symm)]

/-- Settles O3: two rows a word matches have the mnemonic of what it decodes to. -/
theorem decodesByTable : Obligations.DecodesByTable := by
  refine ⟨fun w r hr => matchesWord_iff_decode hr w, fun w r hr q hq hrw hqw => ?_⟩
  obtain ⟨i, hi, hir⟩ := (matchesWord_iff_decode hr w).1 hrw
  obtain ⟨j, hj, hjq⟩ := (matchesWord_iff_decode hq w).1 hqw
  obtain rfl : i = j := Except.ok.inj (hi.symm.trans hj)
  exact opcodeRow_ext hr hq (hir.symm.trans hjq)

end Sys2Proof
end

section
/-! The words and instructions that are illegal whatever the state holds (R176 to R178). -/

namespace Sys2Proof.Machine

/-! ## Words that are no instruction (R176, R177) -/

theorem decode_error_of_reserved {w : Word}
    (h : w.extractLsb' 0 16 = 0#16 ∨ w = 0xFFFFFFFF#32 ∨ w.extractLsb' 0 2 ≠ 0b11#2) :
    ∃ e, decode w = .error e := by
  unfold decode
  split_ifs with hzero hones hlow
  · exact ⟨_, rfl⟩
  · exact ⟨_, rfl⟩
  · exact ⟨_, rfl⟩
  · exact absurd h (not_or_intro hzero (not_or_intro hones hlow))

/-- Settles O5: the decoder refuses the three patterns before it reads the opcode. -/
theorem reservedPatternsIllegal : Obligations.ReservedPatternsIllegal := by
  intro s w hf h
  obtain ⟨e, hd⟩ := decode_error_of_reserved h
  exact fetchDecodeRun_of_decode_error hf hd

/-- No row has the opcode of the register-register instructions with the `funct7` of multiply and divide. -/
theorem funct7_ne_of_matchesWord {r : OpcodeRow} {w : Word} (hr : r ∈ opcodeRows)
    (h : r.matchesWord w = true) (hop : opcodeOf w = 0b0110011#7) : funct7Of w ≠ 0b0000001#7 := by
  have hrows : ∀ r ∈ opcodeRows, opcodeOf r.pattern = 0b0110011#7 →
      funct7Of r.mask = BitVec.allOnes 7 ∧ funct7Of r.pattern ≠ 0b0000001#7 := by decide
  obtain ⟨hmask, hne⟩ := hrows r hr ((opcodeOf_of_matchesWord hr h).1 ▸ hop)
  have h7 : funct7Of w = funct7Of r.pattern := extractLsb'_of_masked ((matchesWord_iff r w).1 h) hmask
  rwa [h7]

/-- No row has the opcode of `FENCE` with the `funct3` of `FENCE.I`. -/
theorem funct3_ne_of_matchesWord {r : OpcodeRow} {w : Word} (hr : r ∈ opcodeRows)
    (h : r.matchesWord w = true) (hop : opcodeOf w = 0b0001111#7) : funct3Of w ≠ 0b001#3 := by
  have hrows : ∀ r ∈ opcodeRows, opcodeOf r.pattern = 0b0001111#7 →
      funct3Of r.mask = BitVec.allOnes 3 ∧ funct3Of r.pattern ≠ 0b001#3 := by decide
  obtain ⟨hmask, hne⟩ := hrows r hr ((opcodeOf_of_matchesWord hr h).1 ▸ hop)
  have h3 : funct3Of w = funct3Of r.pattern := extractLsb'_of_masked ((matchesWord_iff r w).1 h) hmask
  rwa [h3]

/-- Settles O6: what decodes matches a row, and every row fixes the fields the listed words differ in. -/
theorem unlistedWordsIllegal : Obligations.UnlistedWordsIllegal := by
  refine ⟨fun s w hf hnone => ?_, fun w hw r hr => ?_⟩
  · cases hd : decode w with
    | error e => exact fetchDecodeRun_of_decode_error hf hd
    | ok i =>
      obtain ⟨r, hr, -, h⟩ := matchesWord_of_decode_ok hd
      exact absurd h (Bool.eq_false_iff.1 (hnone r hr))
  · rw [Bool.eq_false_iff]
    intro h
    have hmajor : opcodeOf w ∈ majorOpcodes := (opcodeOf_of_matchesWord hr h).2
    obtain ⟨hop, h7⟩ | ⟨hop, h3⟩ | hother | hother := hw
    · exact funct7_ne_of_matchesWord hr h hop h7
    · exact funct3_ne_of_matchesWord hr h hop h3
    · have hdisjoint : ∀ op ∈ [0b0101111#7, 0b0000111#7, 0b0100111#7, 0b1000011#7, 0b1000111#7,
          0b1001011#7, 0b1001111#7, 0b1010011#7, 0b0001011#7, 0b0101011#7, 0b1011011#7,
          0b1111011#7], op ∉ majorOpcodes := by decide
      exact hdisjoint _ hother hmajor
    · exact hother hmajor

/-! ## The `rd = x0` rule (R178, R202) -/

section RdX0

variable {s : State} {rd : Reg}

theorem rdX0Trap_eq_true (hcfg : s.cfg.rdX0Illegal = true) (hrd : decide (rd = 0#5) = true) :
    rdX0Trap s rd = true := by
  rw [rdX0Trap, hcfg, hrd, Bool.and_self]

theorem raisedBy_writeResult_of_rdX0Trap (h : rdX0Trap s rd = true) (w v : Word) :
    RaisedBy (writeResult w rd v s) s .illegalInstr w := if_pos h

theorem raisedBy_load_of_rdX0Trap (h : rdX0Trap s rd = true) (word : Word) (w : Width)
    (ext : Word → Word) (rs1 : Reg) (imm : BitVec 12) :
    RaisedBy (load word w ext rd rs1 imm s) s .illegalInstr word := if_pos h

theorem raisedBy_csrModify_of_rdX0Trap (h : rdX0Trap s rd = true) (w : Word) (op : CsrOp)
    (a : CsrAddr) (operand : Word) (source : BitVec 5) :
    RaisedBy (csrModify w op rd a operand source s) s .illegalInstr w := if_pos h

end RdX0

/-- Settles O13: the thirty instructions are one of three operations, each of which checks the rule first. -/
theorem rdX0Illegal : Obligations.RdX0Illegal := by
  intro s i hcfg hset
  cases i with
  | lui | auipc | addi | slti | sltiu | xori | ori | andi | slli | srli | srai | add | sub | sll | slt
  | sltu | xor | srl | sra | or | and =>
    exact raisedBy_writeResult_of_rdX0Trap (rdX0Trap_eq_true hcfg hset) _ _
  | lb | lh | lw | lbu | lhu =>
    exact raisedBy_load_of_rdX0Trap (rdX0Trap_eq_true hcfg hset) _ _ _ _ _
  | csrrs | csrrc | csrrsi | csrrci =>
    exact raisedBy_csrModify_of_rdX0Trap (rdX0Trap_eq_true hcfg hset) _ _ _ _ _
  | jal | jalr | beq | bne | blt | bge | bltu | bgeu | sb | sh | sw | fence | ecall | ebreak | csrrw
  | csrrwi | uret | sret | mret | wfi | sfenceVma => exact absurd hset Bool.false_ne_true

end Sys2Proof.Machine
end

section
/-! Words written out from the formats (R171 to R174). -/

namespace Sys2Proof

theorem decode_of_encode_eq {i : Instr} {w : Word} (hw : encode i = w) (hwf : i.wf = true) :
    decode w = .ok i := hw ▸ decodeEncode i hwf

/-- Settles O4: each word is that of its instruction, which is well formed. -/
theorem sampleWordsDecode : Obligations.SampleWordsDecode :=
  ⟨decode_of_encode_eq rfl rfl, decode_of_encode_eq rfl rfl, decode_of_encode_eq rfl rfl,
    decode_of_encode_eq rfl rfl, decode_of_encode_eq rfl rfl, decode_of_encode_eq rfl rfl,
    decode_of_encode_eq rfl rfl, decode_of_encode_eq rfl rfl, decode_of_encode_eq rfl rfl,
    decode_of_encode_eq rfl rfl, decode_of_encode_eq rfl rfl⟩

end Sys2Proof
end

section
/-! Upper immediates (R202 to R204). -/

namespace Sys2Proof.Machine

/-- Where the `rd = x0` rule does not apply, an instruction that writes a result completes with it. -/
theorem writeResult_completedWith {s : State} {rd : Reg} (hx0 : rdX0Trap s rd = false) (w v : Word) :
    ∃ t, writeResult w rd v s = .next t ∧ CompletedWith s t rd v (s.pc + 4#32) := by
  obtain ⟨htrap, -⟩ | ⟨-, h⟩ := writeResult_eq w rd v s
  · exact absurd (hx0.symm.trans htrap) Bool.false_ne_true
  · exact ⟨_, h, completedWith_writeX s rd v _⟩

/-- `immU` as a number: the immediate with twelve zero bits below it (R172). -/
theorem imm20Word_toNat (imm : BitVec 20) : (imm20Word imm).toNat = imm.toNat * 4096 := by
  rw [imm20Word, BitVec.toNat_append, BitVec.toNat_ofNat, Nat.zero_mod, Nat.or_zero, Nat.shiftLeft_eq]

theorem imm20Word_eq_ofNat (imm : BitVec 20) :
    imm20Word imm = BitVec.ofNat 32 (imm.toNat * 4096) := by
  rw [← imm20Word_toNat, BitVec.ofNat_toNat, BitVec.setWidth_eq]

theorem add_imm20Word_eq_ofNat (a : Word) (imm : BitVec 20) :
    a + imm20Word imm = BitVec.ofNat 32 (a.toNat + imm.toNat * 4096) := by
  rw [imm20Word_eq_ofNat, BitVec.ofNat_add, BitVec.ofNat_toNat, BitVec.setWidth_eq]

/-- Settles O14: both instructions write a result; `AUIPC` adds `pc` to the immediate. -/
theorem upperImmediates : Obligations.UpperImmediates := by
  intro s rd imm hx0
  constructor
  · rw [← imm20Word_eq_ofNat]
    exact writeResult_completedWith hx0 _ _
  · rw [← add_imm20Word_eq_ofNat]
    exact writeResult_completedWith hx0 _ _

end Sys2Proof.Machine
end

section
/-! Register-immediate instructions and shifts (R250 to R259, R271, R274, R278, R279): each result as
arithmetic on the values of its operands. -/

namespace Sys2Proof.Machine

/-- `writeResult_completedWith`, for a result said in other terms than those the instruction computes it in. -/
theorem writeResult_completedWith_of_eq {s : State} {rd : Reg} (hx0 : rdX0Trap s rd = false) (w : Word)
    {v v' : Word} (hv : v = v') :
    ∃ t, writeResult w rd v s = .next t ∧ CompletedWith s t rd v' (s.pc + 4#32) :=
  hv ▸ writeResult_completedWith hx0 w v

/-! ## Comparisons (R8, R252) -/

theorem boolWord_ltSigned (a b : Word) :
    boolWord (ltSigned a b) = if a.toInt < b.toInt then 1#32 else 0#32 :=
  if_congr BitVec.slt_iff_toInt_lt rfl rfl

theorem boolWord_ltUnsigned (a b : Word) :
    boolWord (ltUnsigned a b) = if a.toNat < b.toNat then 1#32 else 0#32 :=
  if_congr BitVec.ult_iff_toNat_lt rfl rfl

/-! ## The sign-extended immediate (R172, R250) -/

theorem imm12Word_toInt (imm : BitVec 12) : (imm12Word imm).toInt = imm.toInt :=
  BitVec.toInt_signExtend_of_le (by decide)

theorem add_imm12Word_eq_ofInt (a : Word) (imm : BitVec 12) :
    a + imm12Word imm = BitVec.ofInt 32 (a.toInt + imm.toInt) := by
  rw [← imm12Word_toInt, BitVec.ofInt_add, BitVec.ofInt_toInt, BitVec.ofInt_toInt]

theorem boolWord_ltSigned_imm12Word (a : Word) (imm : BitVec 12) :
    boolWord (ltSigned a (imm12Word imm)) = if a.toInt < imm.toInt then 1#32 else 0#32 := by
  rw [boolWord_ltSigned, imm12Word_toInt]

/-- Settles O15: all six write a result; the sum and the signed comparison are those of the immediate's
own signed value. -/
theorem registerImmediates : Obligations.RegisterImmediates := by
  intro s rd rs1 imm hx0
  refine ⟨?addi, ?slti, ?sltiu, ?xori, ?ori, ?andi⟩
  case addi => exact writeResult_completedWith_of_eq hx0 _ (add_imm12Word_eq_ofInt _ imm)
  case slti => exact writeResult_completedWith_of_eq hx0 _ (boolWord_ltSigned_imm12Word _ imm)
  case sltiu => exact writeResult_completedWith_of_eq hx0 _ (boolWord_ltUnsigned _ (imm12Word imm))
  case xori | ori | andi => exact writeResult_completedWith hx0 _ _

/-! ## Shifts (R257 to R259, R271) -/

section Shifts

variable (a : Word) (n : Nat)

theorem shiftLeft_eq_ofNat : a <<< n = BitVec.ofNat 32 (a.toNat * 2 ^ n) :=
  congrArg (BitVec.ofNat 32) (Nat.shiftLeft_eq a.toNat n)

theorem ushiftRight_eq_ofNat : a >>> n = BitVec.ofNat 32 (a.toNat / 2 ^ n) := by
  rw [← Nat.shiftRight_eq_div_pow, ← BitVec.toNat_ushiftRight, BitVec.ofNat_toNat, BitVec.setWidth_eq]

theorem sshiftRight_eq_ofInt : a.sshiftRight n = BitVec.ofInt 32 (a.toInt / 2 ^ n) := by
  rw [BitVec.sshiftRight, Int.shiftRight_eq_div_pow, Nat.cast_pow, Nat.cast_ofNat]

end Shifts

theorem shiftAmount_eq_mod (v : Word) : shiftAmount v = v.toNat % 32 :=
  BitVec.extractLsb'_toNat 0 5 v

/-- Settles O16: three operations, each by an immediate amount or by the low five bits of a register. -/
theorem shifts : Obligations.Shifts := by
  intro s rd rs1 rs2 sh hx0
  rw [← shiftAmount_eq_mod]
  refine ⟨?slli, ?srli, ?srai, ?sll, ?srl, ?sra⟩
  case slli | sll => exact writeResult_completedWith_of_eq hx0 _ (shiftLeft_eq_ofNat _ _)
  case srli | srl => exact writeResult_completedWith_of_eq hx0 _ (ushiftRight_eq_ofNat _ _)
  case srai | sra => exact writeResult_completedWith_of_eq hx0 _ (sshiftRight_eq_ofInt _ _)

end Sys2Proof.Machine
end

section
/-! Register-register instructions that do not shift (R270 to R273, R275 to R277, R280, R281): the sum and
the difference as arithmetic on the values of the sources. -/

namespace Sys2Proof.Machine

theorem add_eq_ofNat (a b : Word) : a + b = BitVec.ofNat 32 (a.toNat + b.toNat) := by
  rw [BitVec.ofNat_add, BitVec.ofNat_toNat, BitVec.ofNat_toNat, BitVec.setWidth_eq, BitVec.setWidth_eq]

theorem sub_eq_ofInt (a b : Word) : a - b = BitVec.ofInt 32 (a.toInt - b.toInt) :=
  BitVec.eq_of_toInt_eq (BitVec.toInt_sub.trans (BitVec.toInt_ofInt _).symm)

/-- Settles O17: all seven write a result; the sum is that of the unsigned values, the difference that of
the signed ones, and `SLT` and `SLTU` compare the signed and the unsigned values. -/
theorem registerRegister : Obligations.RegisterRegister := by
  intro s rd rs1 rs2 hx0
  refine ⟨?add, ?sub, ?slt, ?sltu, ?xor, ?or, ?and⟩
  case add => exact writeResult_completedWith_of_eq hx0 _ (add_eq_ofNat _ _)
  case sub => exact writeResult_completedWith_of_eq hx0 _ (sub_eq_ofInt _ _)
  case slt => exact writeResult_completedWith_of_eq hx0 _ (boolWord_ltSigned _ _)
  case sltu => exact writeResult_completedWith_of_eq hx0 _ (boolWord_ltUnsigned _ _)
  case xor | or | and => exact writeResult_completedWith hx0 _ _

end Sys2Proof.Machine
end

section
/-! Environment calls (R290, R291): each raises its exception with value 0, and a raised exception is the
trap entry of R420. -/

namespace Sys2Proof.Machine

/-- The trap entry is that of R420, mode by mode: it writes the registers of the handler's mode and leaves
those of the other two. -/
theorem trapEntry_trapEntered (c : Cause) (epc tval : Word) (s : State) :
    TrapEntered s (trapEntry c epc tval s) (targetMode s c) c epc tval := by
  unfold trapEntry
  cases targetMode s c with
  | M =>
    exact
      { mode := rfl, handler := rfl, awake := rfl, nothingElse := rfl
        machine := fun _ => ⟨rfl, rfl, rfl, rfl⟩
        machineKept := fun h => absurd rfl h
        supervisor := nofun
        supervisorKept := fun _ => ⟨rfl, rfl, rfl, rfl, rfl, rfl⟩
        user := nofun
        userKept := fun _ => ⟨rfl, rfl, rfl, rfl, rfl⟩ }
  | S =>
    exact
      { mode := rfl, handler := rfl, awake := rfl, nothingElse := rfl
        machine := nofun
        machineKept := fun _ => ⟨rfl, rfl, rfl, rfl, rfl, rfl⟩
        supervisor := fun _ => ⟨rfl, rfl, rfl, rfl⟩
        supervisorKept := fun h => absurd rfl h
        user := nofun
        userKept := fun _ => ⟨rfl, rfl, rfl, rfl, rfl⟩ }
  | U =>
    exact
      { mode := rfl, handler := rfl, awake := rfl, nothingElse := rfl
        machine := nofun
        machineKept := fun _ => ⟨rfl, rfl, rfl, rfl, rfl, rfl⟩
        supervisor := nofun
        supervisorKept := fun _ => ⟨rfl, rfl, rfl, rfl, rfl, rfl⟩
        user := fun _ => ⟨rfl, rfl, rfl, rfl⟩
        userKept := fun h => absurd rfl h }

/-- What raises an exception enters the trap of that exception, from the instruction's own address. -/
theorem RaisedBy.trapEntered {out : Out} {s : State} {e : Exc} {tval : Word}
    (h : RaisedBy out s e tval) :
    ∃ t, out = .next t ∧ TrapEntered s t (targetMode s (.exception e)) (.exception e) s.pc tval :=
  ⟨_, h, trapEntry_trapEntered _ _ _ _⟩

theorem exec_ecall_raisedBy (s : State) : RaisedBy (exec .ecall s) s (ecallExc s.priv) 0#32 := rfl

theorem exec_ebreak_raisedBy (s : State) : RaisedBy (exec .ebreak s) s .breakpoint 0#32 := rfl

/-- The exception of `ECALL`, mode by mode (R290). -/
theorem eq_ecallExc_iff (p : Priv) (e : Exc) :
    e = ecallExc p ↔
      (p = .U ∧ e = .ecallFromU) ∨ (p = .S ∧ e = .ecallFromS) ∨ (p = .M ∧ e = .ecallFromM) := by
  cases p <;> simp [ecallExc]

/-- Settles O32: both instructions raise an exception, `ECALL` the one of the current mode. -/
theorem environmentCalls : Obligations.EnvironmentCalls := by
  refine ⟨decode_of_encode_eq rfl rfl, decode_of_encode_eq rfl rfl,
    fun s => ⟨fun e he => ?ecall, ?ebreak⟩⟩
  case ecall =>
    obtain rfl := (eq_ecallExc_iff s.priv e).2 he
    exact (exec_ecall_raisedBy s).trapEntered
  case ebreak => exact (exec_ebreak_raisedBy s).trapEntered

end Sys2Proof.Machine
end

section
/-! The CSR instructions (R300 to R312): what an access that is legal leaves, with and without a write, and
the debug CSRs, which this hart does not have (R307). -/

namespace Sys2Proof.Machine

/-! ## The end of a CSR instruction (R70, R300) -/

theorem csrInstr_of_csrAccess {s : State} {a : CsrAddr} {doesWrite : Bool} {c : Csr}
    (h : csrAccess s a doesWrite = some c) (w : Word) (op : CsrOp) (rd : Reg) (operand : Word) :
    csrInstr w op rd a operand doesWrite s =
      completeCsr c doesWrite ((csrUpdate op c operand doesWrite s).writeX rd (csrRead s c)) := by
  rw [csrInstr, h]

theorem csrModify_of_not_rdX0Trap {s : State} {rd : Reg} (hx0 : rdX0Trap s rd = false) (w : Word)
    (op : CsrOp) (a : CsrAddr) (operand : Word) (source : BitVec 5) :
    csrModify w op rd a operand source s = csrInstr w op rd a operand (decide (source ≠ 0#5)) s :=
  if_neg (Bool.eq_false_iff.1 hx0)

theorem completeCsr_next (c : Csr) (doesWrite : Bool) (s : State) :
    ∃ t, completeCsr c doesWrite s = .next t :=
  ⟨_, completeCsr_eq c doesWrite s⟩

theorem completeCsr_minstret {s t : State} {c : Csr} {doesWrite : Bool}
    (ht : completeCsr c doesWrite s = .next t) :
    t.minstret = if doesWrite && c.isInstret then s.minstret else s.minstret + 1#64 := by
  rw [completeCsr_eq] at ht
  cases ht
  split <;> rfl

/-! ## An access that writes (R301 to R303, R310 to R313) -/

/-- Only `minstret` and its upper half hold the count. -/
theorem csrWrite_minstret {c : Csr} (h : c.isInstret = false) (v : Word) (s : State) :
    (csrWrite v s c).minstret = s.minstret := by
  have hframe := csrWriteFrame s v c
  cases c with
  | minstret | minstreth => cases h
  | _ => exact (congrArg State.minstret hframe :)

/-- No byte of memory is made of the state that holds a CSR. -/
theorem CsrFrame.physReadByte_eq {s t : State} (h : CsrFrame s t) (use : ReadUse) (a : Nat) :
    physReadByte t use a = physReadByte s use a := by
  unfold physReadByte
  rw [h.cfg, h.msipBit, h.mtimecmp, h.mtime, h.mem, h.tick]

/-- The end of a CSR instruction that wrote `v`: the write is `csrWrite`, the rest is `x[rd]`, the program
counter and the count. -/
theorem csrCompleted_of_completeCsr {s t : State} {c : Csr} {rd : Reg} {v : Word}
    (ht : completeCsr c true ((csrWrite v s c).writeX rd (csrRead s c)) = .next t) :
    CsrCompleted s t (csrWrite v s c) rd c true := by
  have hframe := csrWrite_frame v s c
  have hkept := completeCsr_kept ht
  have hreadX (r : Reg) : t.readX r = ((csrWrite v s c).writeX rd (csrRead s c)).readX r := by
    rw [hkept]
    rfl
  exact
    { result := fun h => by rw [hreadX, writeX_readX_same _ _ _ h]
      zero := readX_zero t
      otherRegisters := fun r h => by
        rw [hreadX, writeX_readX_other _ _ _ h, readX_congr r hframe.x]
      nextAddress := by rw [hkept, writeX_pc, hframe.pc]
      counted := by
        rw [completeCsr_minstret ht, writeX_minstret, Bool.true_and]
        split
        · rfl
        · rw [csrWrite_minstret (Bool.eq_false_iff.2 ‹_›)]
      memoryKept := fun use a => by
        rw [← hframe.physReadByte_eq, hkept, writeX_eq]
        rfl
      nothingElse := by
        rw [hkept, writeX_eq] }

/-- A legal access that writes completes, with the value its form computes. -/
theorem csrInstr_csrCompleted {s : State} {a : CsrAddr} {c : Csr} (h : csrAccess s a true = some c)
    (w : Word) (op : CsrOp) (rd : Reg) (operand : Word) :
    ∃ t, csrInstr w op rd a operand true s = .next t ∧
      CsrCompleted s t (csrWrite (op.newValue (csrModifyBase s c) operand) s c) rd c true := by
  obtain ⟨t, ht⟩ := completeCsr_next c true ((csrUpdate op c operand true s).writeX rd (csrRead s c))
  exact ⟨t, (csrInstr_of_csrAccess h w op rd operand).trans ht, csrCompleted_of_completeCsr ht⟩

/-- Settles O36: for `CSRRW` and `CSRRWI` the value computed is the operand itself. -/
theorem csrReadWrite : Obligations.CsrReadWrite := fun _ rd _ _ _ _ h =>
  ⟨csrInstr_csrCompleted h _ .write rd _, csrInstr_csrCompleted h _ .write rd _⟩

/-! ## The value a set or clear form starts from (R65, R302, R303) -/

theorem csrModifyBase_of_ne_mip {c : Csr} (h : c ≠ .mip) (s : State) :
    csrModifyBase s c = csrRead s c := by
  unfold csrModifyBase
  split
  · exact absurd rfl h
  · rfl

/-- Of `SEIP` it is the software half, so that the PLIC's line is never latched. -/
theorem csrModifyBase_mip_getLsbD (s : State) {i : Nat} (hi : i < 32) :
    (csrModifyBase s .mip).getLsbD i =
      if i = 9 then s.mipSw.getLsbD 9 else (csrRead s .mip).getLsbD i := by
  have hseip : (0x200#32).getLsbD i = decide (i = 9) := by
    rw [show 0x200#32 = BitVec.twoPow 32 9 from rfl, BitVec.getLsbD_twoPow]
    simp [eq_comm]
  simp only [csrModifyBase, csrRead, BitVec.getLsbD_or, BitVec.getLsbD_and, BitVec.getLsbD_not, hseip]
  by_cases h9 : i = 9
  · simp [h9]
  · simp [h9, hi]

theorem eq_csrModifyBase {s : State} {c : Csr} {base : Word} (hread : c ≠ .mip → base = csrRead s c)
    (hmip : c = .mip → ∀ i < 32, base.getLsbD i =
      if i = 9 then s.mipSw.getLsbD 9 else (csrRead s .mip).getLsbD i) :
    base = csrModifyBase s c := by
  by_cases hc : c = .mip
  · subst hc
    exact BitVec.eq_of_getLsbD_eq fun i hi =>
      (hmip rfl i hi).trans (csrModifyBase_mip_getLsbD s hi).symm
  · rw [hread hc, csrModifyBase_of_ne_mip hc]

/-- A set or clear form with a nonzero source field writes. -/
theorem csrModify_csrCompleted {s : State} {rd : Reg} {a : CsrAddr} {c : Csr} {source : BitVec 5}
    (hx0 : rdX0Trap s rd = false) (h : csrAccess s a true = some c) (hsource : source ≠ 0#5)
    (w : Word) (op : CsrOp) (operand : Word) :
    ∃ t, csrModify w op rd a operand source s = .next t ∧
      CsrCompleted s t (csrWrite (op.newValue (csrModifyBase s c) operand) s c) rd c true := by
  rw [csrModify_of_not_rdX0Trap hx0, decide_eq_true hsource]
  exact csrInstr_csrCompleted h w op rd operand

/-- Settles O37: `base` is the value the set and clear forms start from, for `mip` bit by bit. -/
theorem csrSetClear : Obligations.CsrSetClear := by
  intro s rd rs1 uimm a c base hx0 h hread hmip
  obtain rfl := eq_csrModifyBase hread hmip
  exact ⟨fun hrs1 => ⟨csrModify_csrCompleted hx0 h hrs1 _ .set _,
      csrModify_csrCompleted hx0 h hrs1 _ .clear _⟩,
    fun huimm => ⟨csrModify_csrCompleted hx0 h huimm _ .set _,
      csrModify_csrCompleted hx0 h huimm _ .clear _⟩⟩

/-! ## An access that only reads (R302 to R304) -/

/-- With a zero source field a set or clear form writes `x[rd]` and nothing else. -/
theorem csrModify_completedWith {s : State} {rd : Reg} {a : CsrAddr} {c : Csr}
    (hx0 : rdX0Trap s rd = false) (h : csrAccess s a false = some c) (w : Word) (op : CsrOp)
    (operand : Word) :
    ∃ t, csrModify w op rd a operand 0#5 s = .next t ∧
      CompletedWith s t rd (csrRead s c) (s.pc + 4#32) := by
  refine ⟨_, ?_, completedWith_writeX s rd (csrRead s c) _⟩
  calc csrModify w op rd a operand 0#5 s
      = csrInstr w op rd a operand false s := csrModify_of_not_rdX0Trap hx0 w op a operand 0#5
    _ = completeCsr c false (s.writeX rd (csrRead s c)) := csrInstr_of_csrAccess h w op rd operand
    _ = _ := by rw [completeCsr_eq, writeX_pc, Bool.false_and, if_neg Bool.false_ne_true]

/-- Settles O38: all four forms are one operation, which does not write. -/
theorem csrPureRead : Obligations.CsrPureRead := fun _ _ _ _ hx0 h =>
  ⟨csrModify_completedWith hx0 h _ .set _, csrModify_completedWith hx0 h _ .clear _,
    csrModify_completedWith hx0 h _ .set _, csrModify_completedWith hx0 h _ .clear _⟩

/-! ## The debug CSRs (R75, R307) -/

/-- No CSR of the hart has an address from 0x7B0 to 0x7B3. -/
theorem Csr.addr_not_debug (c : Csr) : ¬ (0x7B0 ≤ c.addr.toNat ∧ c.addr.toNat ≤ 0x7B3) := by
  cases c with
  | pmpcfg k => revert k; decide
  | pmpaddr i => revert i; decide
  | _ => decide

theorem csrAccess_debug {a : CsrAddr} (hlow : 0x7B0 ≤ a.toNat) (hhigh : a.toNat ≤ 0x7B3) (s : State)
    (doesWrite : Bool) : csrAccess s a doesWrite = none := by
  refine Option.eq_none_iff_forall_ne_some.2 fun c hc => ?_
  obtain ⟨hat, -⟩ := csrAccess_eq_some.1 hc
  obtain ⟨rfl, -⟩ := csrAt_eq_some.1 hat
  exact c.addr_not_debug ⟨hlow, hhigh⟩

/-- Settles O40: such an access reaches no CSR, so each form raises as R300 says. -/
theorem debugCsrsIllegal : Obligations.DebugCsrsIllegal := by
  intro s rd rs1 uimm a hlow hhigh
  have hnone := csrAccess_debug hlow hhigh s
  obtain ⟨hwrite, hregister, himmediate⟩ := csrAccessRule.2 s rd rs1 uimm a
  obtain ⟨hrw, hrwi⟩ := hwrite (hnone _)
  obtain ⟨hrs, hrc⟩ := hregister (hnone _)
  obtain ⟨hrsi, hrci⟩ := himmediate (hnone _)
  exact ⟨hrw, hrs, hrc, hrwi, hrsi, hrci⟩

end Sys2Proof.Machine
end

section
/-! Trap returns, waits and fences (R321 to R326): where each is legal and what it leaves, where it raises
`IllegalInstr`; and the step of a hart that waits (R324). -/

namespace Sys2Proof.Machine

theorem raisedBy_raiseIllegal (w : Word) (s : State) : RaisedBy (raiseIllegal w s) s .illegalInstr w := rfl

/-! ## Trap returns (R321 to R323) -/

section TrapReturns

variable {s : State}

theorem exec_mret_of_legal (h : s.priv = .M) : exec .mret s = returnFrom .M s := by
  change execMret s = _
  rw [execMret, h]

theorem raisedBy_mret (h : s.priv ≠ .M) : RaisedBy (exec .mret s) s .illegalInstr (encode .mret) := by
  change RaisedBy (execMret s) _ _ _
  unfold execMret
  cases hp : s.priv with
  | M => exact absurd hp h
  | S => exact raisedBy_raiseIllegal _ s
  | U => exact raisedBy_raiseIllegal _ s

theorem exec_sret_of_legal (h : s.priv = .M ∨ (s.priv = .S ∧ s.mstatus.tsr = false)) :
    exec .sret s = returnFrom .S s := by
  change execSret s = _
  obtain hM | ⟨hS, htsr⟩ := h
  · rw [execSret, hM]
  · simp [execSret, hS, htsr]

theorem raisedBy_sret (h : s.priv = .U ∨ (s.priv = .S ∧ s.mstatus.tsr = true)) :
    RaisedBy (exec .sret s) s .illegalInstr (encode .sret) := by
  change RaisedBy (execSret s) _ _ _
  obtain hU | ⟨hS, htsr⟩ := h
  · simp [execSret, hU, raisedBy_raiseIllegal]
  · simp [execSret, hS, htsr, raisedBy_raiseIllegal]

theorem exec_uret : exec .uret s = returnFrom .U s := rfl

end TrapReturns

/-- Settles O33: where it is legal, each instruction is the trap return of its mode, then the count. -/
theorem trapReturns : Obligations.TrapReturns := by
  refine ⟨decode_of_encode_eq rfl rfl, decode_of_encode_eq rfl rfl, decode_of_encode_eq rfl rfl,
    fun s => ⟨fun h => ?mret, fun h => raisedBy_mret h, fun h => ?sret, fun h => raisedBy_sret h, ?uret⟩⟩
  case mret => exact exec_mret_of_legal h
  case sret => exact exec_sret_of_legal h
  case uret => exact exec_uret

/-! ## Waiting (R324) -/

theorem exec_wfi_of_legal {s : State} (h : s.priv = .M ∨ s.mstatus.tw = false) :
    exec .wfi s = complete { s with wfiStalled := true } := by
  change execWfi s = _
  obtain hM | htw := h
  · simp [execWfi, hM]
  · simp [execWfi, htw]

theorem raisedBy_wfi {s : State} (hp : s.priv ≠ .M) (htw : s.mstatus.tw = true) :
    RaisedBy (exec .wfi s) s .illegalInstr (encode .wfi) := by
  change RaisedBy (execWfi s) _ _ _
  simp [execWfi, hp, htw, raisedBy_raiseIllegal]

/-- Settles O34: a legal `WFI` completes from the stalled state. -/
theorem wfiRule : Obligations.WfiRule :=
  fun _ => ⟨fun h => exec_wfi_of_legal h, fun hp htw => raisedBy_wfi hp htw⟩

/-- What runs a stalled hart's step: a request or a spurious wake-up. -/
theorem State.runs_iff_of_wfiStalled {s : State} (h : s.wfiStalled = true) :
    s.runs ↔ mipWord (platform s) &&& csrRead (platform s) .mie ≠ 0#32 ∨
      (nextInput s).env.wake = true := by
  simp [State.runs, h]

/-- Settles O11: a stalled hart's step runs exactly when it wakes. -/
theorem stalledStep : Obligations.StalledStep := by
  intro s hstalled
  have hruns := State.runs_iff_of_wfiStalled hstalled
  refine ⟨fun hrequest hwake => step_of_not_runs ?waits, fun hwakes => ⟨step_of_runs ?wakes, rfl⟩⟩
  case waits =>
    rw [hruns, not_or, not_not, Bool.not_eq_true]
    exact ⟨hrequest, hwake⟩
  case wakes => exact hruns.2 hwakes

/-! ## Fences (R325, R326) -/

/-- An instruction that only completes goes on at the next instruction, is counted, and does nothing else. -/
theorem complete_completedOnly (s : State) : ∃ t, complete s = .next t ∧ CompletedOnly s t (s.pc + 4#32) :=
  ⟨_, rfl, rfl⟩

theorem exec_fence (fm pred succ : BitVec 4) (rs1 rd : Reg) (s : State) :
    exec (.fence fm pred succ rs1 rd) s = complete s := rfl

section Sfence

variable {s : State} (rs1 rs2 : Reg)

theorem exec_sfenceVma_of_legal (h : s.priv = .M ∨ (s.priv = .S ∧ s.mstatus.tvm = false)) :
    exec (.sfenceVma rs1 rs2) s = complete s := by
  change execSfenceVma rs1 rs2 s = _
  obtain hM | ⟨hS, htvm⟩ := h
  · rw [execSfenceVma, hM]
  · simp [execSfenceVma, hS, htvm]

theorem raisedBy_sfenceVma (h : s.priv = .U ∨ (s.priv = .S ∧ s.mstatus.tvm = true)) :
    RaisedBy (exec (.sfenceVma rs1 rs2) s) s .illegalInstr (encode (.sfenceVma rs1 rs2)) := by
  change RaisedBy (execSfenceVma rs1 rs2 s) _ _ _
  obtain hU | ⟨hS, htvm⟩ := h
  · simp [execSfenceVma, hU, raisedBy_raiseIllegal]
  · simp [execSfenceVma, hS, htvm, raisedBy_raiseIllegal]

end Sfence

/-- Settles O35: `FENCE` and a legal `SFENCE.VMA` only complete. -/
theorem fenceRules : Obligations.FenceRules := by
  refine ⟨fun s rs1 rs2 => ⟨fun h => ?legal, fun h => raisedBy_sfenceVma rs1 rs2 h⟩,
    fun s fm pred succ rs1 rd => ?fence⟩
  case legal =>
    rw [exec_sfenceVma_of_legal rs1 rs2 h]
    exact complete_completedOnly s
  case fence =>
    rw [exec_fence]
    exact complete_completedOnly s

end Sys2Proof.Machine
end

section
/-! Taking a trap (R410, R413, R420, R425): which mode's handler takes it and where that handler stands; and
the return that undoes the entry (R430). -/

namespace Sys2Proof.Machine

/-! ## The entry (R56, R420) -/

/-- The code of a cause leaves bit 31 of `xcause` to the interrupt flag. -/
theorem Cause.word_eq (c : Cause) :
    c.word = (if c.isInterrupt = true then 0x80000000#32 else 0#32) + BitVec.ofNat 32 c.code := by
  cases c with
  | exception e => cases e <;> rfl
  | interrupt i => cases i <;> rfl

/-- Settles O50: the entry is said register by register, and the cause is a flag and a code. -/
theorem trapEntryRule : Obligations.TrapEntryRule :=
  fun s c epc tval => ⟨trapEntry_trapEntered c epc tval s, c.word_eq⟩

/-! ## The handler's mode (R410, R413) -/

theorem delegatedByM_eq (s : State) (c : Cause) : delegatedByM s c =
    (csrRead s (if c.isInterrupt = true then .mideleg else .medeleg)).getLsbD c.code := by
  cases c <;> rfl

theorem delegatedByS_eq (s : State) (c : Cause) : delegatedByS s c =
    (csrRead s (if c.isInterrupt = true then .sideleg else .sedeleg)).getLsbD c.code := by
  cases c <;> rfl

section TargetMode

variable {s : State}

theorem targetMode_of_machine (h : s.priv = .M) (c : Cause) : targetMode s c = .M := by
  rw [targetMode, h]

theorem targetMode_of_supervisor (h : s.priv = .S) (c : Cause) :
    targetMode s c = if delegatedByM s c = true then .S else .M := by
  rw [targetMode, h]

theorem targetMode_of_user (h : s.priv = .U) (c : Cause) : targetMode s c =
    if delegatedByM s c = true then (if delegatedByS s c = true then .U else .S) else .M := by
  rw [targetMode, h]

/-- What M-mode does not delegate it handles, whatever the mode of the hart. -/
theorem targetMode_of_not_delegated {c : Cause} (h : delegatedByM s c = false) :
    targetMode s c = .M := by
  cases hp : s.priv with
  | M => exact targetMode_of_machine hp c
  | S => simp [targetMode_of_supervisor hp, h]
  | U => simp [targetMode_of_user hp, h]

end TargetMode

/-- A trap does not lower the mode (R410). -/
theorem targetMode_not_below (s : State) (c : Cause) : (targetMode s c).below s.priv = false := by
  cases hp : s.priv with
  | M => rw [targetMode_of_machine hp]; rfl
  | S => rw [targetMode_of_supervisor hp]; split <;> rfl
  | U => cases targetMode s c <;> rfl

/-- Settles O51: each row is the branch of R413 that its delegation bits choose. -/
theorem targetModeRule : Obligations.TargetModeRule := by
  intro s c dm ds hdm hds
  rw [← delegatedByM_eq] at hdm
  rw [← delegatedByS_eq] at hds
  subst hdm hds
  refine ⟨fun hp => targetMode_of_machine hp c, fun _ hm => targetMode_of_not_delegated hm,
    fun hp hm => ?supervisor, fun _ hm => targetMode_of_not_delegated hm, fun hp hm hs => ?toSupervisor,
    fun hp hm hs => ?toUser, fun hexc hint _ _ => targetMode_of_not_delegated ?none,
    targetMode_not_below s c⟩
  case supervisor => rw [targetMode_of_supervisor hp, if_pos hm]
  case toSupervisor => rw [targetMode_of_user hp, if_pos hm, if_neg (Bool.eq_false_iff.1 hs)]
  case toUser => rw [targetMode_of_user hp, if_pos hm, if_pos hs]
  case none =>
    rw [delegatedByM_eq]
    split
    · rw [hint, BitVec.getLsbD_zero]
    · rw [hexc, BitVec.getLsbD_zero]

/-! ## The handler's address (R425) -/

theorem Tvec.toWord_mode_eq_vectored (t : Tvec) :
    t.toWord.extractLsb' 0 2 = 0b01#2 ↔ t.vectored = true := by
  rw [t.toWord_mode]
  cases t.vectored <;> decide

theorem trapVector_of_vectored {s : State} {x : Priv} {c : Cause} (hc : c.isInterrupt = true)
    (hv : (s.tvecOf x).vectored = true) :
    trapVector s x c = (s.tvecOf x).baseAddress + BitVec.ofNat 32 (4 * c.code) := by
  simp [trapVector, hc, hv]

theorem trapVector_of_direct {s : State} {x : Priv} {c : Cause}
    (h : c.isInterrupt = false ∨ (s.tvecOf x).vectored = false) :
    trapVector s x c = (s.tvecOf x).baseAddress := by
  obtain hc | hv := h
  · simp [trapVector, hc]
  · simp [trapVector, hv]

/-- Settles O52: the register reads as its base address, and as vectored in its low bits. -/
theorem handlerAddress : Obligations.HandlerAddress := by
  intro s c x tvec base htvec hbase
  have hread : tvec = (s.tvecOf x).toWord := by
    rw [htvec]
    cases x <;> rfl
  subst hread
  rw [← Tvec.baseAddress_eq] at hbase
  subst hbase
  rw [ne_eq, Tvec.toWord_mode_eq_vectored, Bool.not_eq_true]
  exact ⟨trapVector_of_vectored, trapVector_of_direct⟩

/-! ## The entry and then the return (R430) -/

theorem and_epcMask_of_aligned {a : Word} (h : a.extractLsb' 0 2 = 0#2) : a &&& epcMask = a := by
  refine BitVec.eq_of_getLsbD_eq fun i hi => ?_
  have hmask : ∀ i < 32, epcMask.getLsbD i = decide (2 ≤ i) := by decide
  rw [BitVec.getLsbD_and, hmask i hi]
  by_cases hlow : i < 2
  · have hbit := congrArg (·.getLsbD i) h
    simp only [BitVec.getLsbD_extractLsb', hlow, Nat.zero_add, BitVec.getLsbD_zero, decide_true,
      Bool.true_and] at hbit
    rw [hbit, Bool.false_and]
  · rw [decide_eq_true (Nat.not_lt.1 hlow), Bool.and_true]

section Returns

variable {s t : State} {c : Cause} {epc tval : Word}

/-- `MRET` after an entry into M-mode. -/
theorem TrapEntered.mret (h : TrapEntered s t .M c epc tval) (hepc : epc.extractLsb' 0 2 = 0#2) :
    ∃ u, exec .mret t = .next u ∧ u.pc = epc ∧ u.priv = s.priv ∧
      u.mstatus = { s.mstatus with mpie := true, mpp := .U } ∧ u.mcause = c.word ∧
      u.mtval = tval ∧ u.mepc = epc := by
  obtain ⟨hmepc, hmcause, hmtval, hstatus⟩ := h.machine rfl
  refine ⟨_, exec_mret_of_legal h.mode, ?_, ?_, ?_, hmcause, hmtval, hmepc⟩
  · rw [retire_pc, trapReturn_pc, State.epcOf, hmepc, and_epcMask_of_aligned hepc]
  · simp [trapReturn, hstatus]
  · simp [trapReturn, hstatus]

/-- `SRET` after an entry into S-mode, from a mode that `SPP` can hold. -/
theorem TrapEntered.sret (h : TrapEntered s t .S c epc tval) (hepc : epc.extractLsb' 0 2 = 0#2)
    (htsr : s.mstatus.tsr = false) (hfrom : s.priv ≠ .M) :
    ∃ u, exec .sret t = .next u ∧ u.pc = epc ∧ u.priv = s.priv ∧
      u.mstatus = { s.mstatus with spie := true, spp := false } ∧ u.scause = c.word ∧
      u.stval = tval ∧ u.sepc = epc := by
  obtain ⟨hsepc, hscause, hstval, hstatus⟩ := h.supervisor rfl
  have hlegal : t.mstatus.tsr = false := by rw [hstatus, htsr]
  refine ⟨_, exec_sret_of_legal (.inr ⟨h.mode, hlegal⟩), ?_, ?_, ?_, hscause, hstval, hsepc⟩
  · rw [retire_pc, trapReturn_pc, State.epcOf, hsepc, and_epcMask_of_aligned hepc]
  · cases hp : s.priv with
    | M => exact absurd hp hfrom
    | S => simp [trapReturn, hstatus, hp]
    | U => simp [trapReturn, hstatus, hp]
  · simp [trapReturn, hstatus]

/-- `URET` after an entry into U-mode, which only U-mode makes. -/
theorem TrapEntered.uret (h : TrapEntered s t .U c epc tval) (hepc : epc.extractLsb' 0 2 = 0#2)
    (hfrom : s.priv = .U) :
    ∃ u, exec .uret t = .next u ∧ u.pc = epc ∧ u.priv = s.priv ∧
      u.mstatus = { s.mstatus with upie := true } ∧ u.ucause = c.word ∧ u.utval = tval ∧
      u.uepc = epc := by
  obtain ⟨huepc, hucause, hutval, hstatus⟩ := h.user rfl
  refine ⟨_, exec_uret, ?_, ?_, ?_, hucause, hutval, huepc⟩
  · rw [retire_pc, trapReturn_pc, State.epcOf, huepc, and_epcMask_of_aligned hepc]
  · exact hfrom.symm
  · simp [trapReturn, hstatus]

end Returns

/-- Settles O53: each return reads what the entry into its mode wrote. No trap lowers the mode, so `SPP` can
hold the mode a trap into S-mode came from, and a trap into U-mode came from U-mode. -/
theorem trapThenReturn : Obligations.TrapThenReturn := by
  rintro s t c epc tval hepc rfl
  have hentered := trapEntry_trapEntered c epc tval s
  have hfrom := targetMode_not_below s c
  refine ⟨fun hM => ?machine, fun hS htsr => ?supervisor, fun hU => ?user⟩
  case machine =>
    rw [hM] at hentered
    exact hentered.mret hepc
  case supervisor =>
    rw [hS] at hentered hfrom
    exact hentered.sret hepc htsr fun hp => by rw [hp] at hfrom; cases hfrom
  case user =>
    rw [hU] at hentered hfrom
    refine hentered.uret hepc ?_
    revert hfrom
    cases s.priv <;> decide

end Sys2Proof.Machine
end

section
/-! Precise exceptions (R11, R70, R404): an instruction is counted, or traps and does nothing else; only
where it accesses `minstret` can its count be another. -/

namespace Sys2Proof.Machine

/-- The outcome is an exception taken, or a next state in which one more instruction is counted. -/
def TrapsOrCounts (s : State) (out : Out) : Prop :=
  (∃ e tval, RaisedBy out s e tval) ∨ ∃ t, out = .next t ∧ t.minstret = s.minstret + 1#64

section

variable {s t : State} {out : Out}

theorem RaisedBy.trapsOrCounts {e : Exc} {tval : Word} (h : RaisedBy out s e tval) :
    TrapsOrCounts s out := .inl ⟨e, tval, h⟩

theorem raise_trapsOrCounts (e : Exc) (tval : Word) (s : State) : TrapsOrCounts s (raise e tval s) :=
  .inl ⟨e, tval, rfl⟩

theorem complete_trapsOrCounts (h : t.minstret = s.minstret) : TrapsOrCounts s (complete t) :=
  .inr ⟨_, rfl, congrArg (· + 1#64) h⟩

end

/-! ## The operations instructions are made of -/

theorem writeResult_trapsOrCounts (w : Word) (rd : Reg) (v : Word) (s : State) :
    TrapsOrCounts s (writeResult w rd v s) := by
  unfold writeResult
  split
  · exact raise_trapsOrCounts _ _ s
  · exact complete_trapsOrCounts (writeX_minstret s v rd)

theorem jumpAndLink_trapsOrCounts (rd : Reg) (target : Word) (s : State) :
    TrapsOrCounts s (jumpAndLink rd target s) := by
  obtain ⟨haligned, hmisaligned⟩ := jumpAndLink_outcome rd target s
  by_cases h : target.extractLsb' 0 2 = 0#2
  · obtain ⟨t, ht, hdone⟩ := haligned h
    exact .inr ⟨t, ht, hdone.counted⟩
  · exact (hmisaligned h).trapsOrCounts

theorem branch_trapsOrCounts (taken : Bool) (off : BitVec 13) (s : State) :
    TrapsOrCounts s (branch taken off s) := by
  unfold branch
  split
  · split
    · exact .inr ⟨_, rfl, rfl⟩
    · exact raise_trapsOrCounts _ _ s
  · exact complete_trapsOrCounts rfl

theorem load_trapsOrCounts (word : Word) (w : Width) (ext : Word → Word) (rd rs1 : Reg)
    (imm : BitVec 12) (s : State) : TrapsOrCounts s (load word w ext rd rs1 imm s) := by
  unfold load
  split
  · exact raise_trapsOrCounts _ _ s
  · split
    · exact raise_trapsOrCounts _ _ s
    · exact complete_trapsOrCounts (writeX_minstret s _ rd)

theorem store_trapsOrCounts (w : Width) (rs2 rs1 : Reg) (imm : BitVec 12) (s : State) :
    TrapsOrCounts s (store w rs2 rs1 imm s) := by
  unfold store
  rw [memWrite_eq]
  cases resolve s .store w (effectiveAddress (s.readX rs1) imm) with
  | error r => exact raise_trapsOrCounts _ _ s
  | ok pa => exact complete_trapsOrCounts (physWrite_minstret s w pa _)

/-! ## CSR instructions (R70, R300) -/

/-- The addresses of the two halves of the count of completed instructions. -/
def IsInstretAddr (a : CsrAddr) : Prop := a = 0xB02#12 ∨ a = 0xB82#12

theorem isInstretAddr_of_isInstret {c : Csr} (h : c.isInstret = true) : IsInstretAddr c.addr := by
  cases c with
  | minstret => exact .inl rfl
  | minstreth => exact .inr rfl
  | _ => cases h

theorem csrUpdate_minstret {c : Csr} (h : c.isInstret = false) (op : CsrOp) (operand : Word)
    (doesWrite : Bool) (s : State) : (csrUpdate op c operand doesWrite s).minstret = s.minstret := by
  unfold csrUpdate
  split
  · exact csrWrite_minstret h _ s
  · rfl

theorem csrInstr_trapsOrCounts {a : CsrAddr} (ha : ¬ IsInstretAddr a) (w : Word) (op : CsrOp) (rd : Reg)
    (operand : Word) (doesWrite : Bool) (s : State) :
    TrapsOrCounts s (csrInstr w op rd a operand doesWrite s) := by
  cases h : csrAccess s a doesWrite with
  | none => exact (raisedBy_csrInstr h w op rd operand).trapsOrCounts
  | some c =>
    obtain ⟨hat, -⟩ := csrAccess_eq_some.1 h
    obtain ⟨rfl, -⟩ := csrAt_eq_some.1 hat
    have hc : c.isInstret = false := Bool.eq_false_iff.2 (mt isInstretAddr_of_isInstret ha)
    rw [csrInstr_of_csrAccess h, completeCsr, hc, Bool.and_false]
    exact complete_trapsOrCounts ((writeX_minstret _ _ rd).trans (csrUpdate_minstret hc ..))

theorem csrModify_trapsOrCounts {a : CsrAddr} (ha : ¬ IsInstretAddr a) (w : Word) (op : CsrOp) (rd : Reg)
    (operand : Word) (source : BitVec 5) (s : State) :
    TrapsOrCounts s (csrModify w op rd a operand source s) := by
  unfold csrModify
  split
  · exact raise_trapsOrCounts _ _ s
  · exact csrInstr_trapsOrCounts ha ..

/-! ## Trap returns, waits and fences (R320 to R325) -/

theorem returnFrom_trapsOrCounts (x : Priv) (s : State) : TrapsOrCounts s (returnFrom x s) := by
  refine .inr ⟨_, rfl, ?_⟩
  rw [retire_minstret, trapReturn_kept]

theorem execMret_trapsOrCounts (s : State) : TrapsOrCounts s (execMret s) := by
  unfold execMret
  split
  · exact returnFrom_trapsOrCounts .M s
  · exact raise_trapsOrCounts _ _ s
  · exact raise_trapsOrCounts _ _ s

theorem execSret_trapsOrCounts (s : State) : TrapsOrCounts s (execSret s) := by
  unfold execSret
  split
  · exact returnFrom_trapsOrCounts .S s
  · split
    · exact raise_trapsOrCounts _ _ s
    · exact returnFrom_trapsOrCounts .S s
  · exact raise_trapsOrCounts _ _ s

theorem execWfi_trapsOrCounts (s : State) : TrapsOrCounts s (execWfi s) := by
  unfold execWfi
  split
  · exact raise_trapsOrCounts _ _ s
  · exact complete_trapsOrCounts rfl

theorem execSfenceVma_trapsOrCounts (rs1 rs2 : Reg) (s : State) :
    TrapsOrCounts s (execSfenceVma rs1 rs2 s) := by
  unfold execSfenceVma
  split
  · exact complete_trapsOrCounts rfl
  · split
    · exact raise_trapsOrCounts _ _ s
    · exact complete_trapsOrCounts rfl
  · exact raise_trapsOrCounts _ _ s

/-! ## All instructions -/

/-- A CSR instruction at one of the two addresses of the count. -/
def AccessesInstret (i : Instr) : Prop :=
  ∃ a, IsInstretAddr a ∧ ∃ rd rs, i = .csrrw rd a rs ∨ i = .csrrs rd a rs ∨ i = .csrrc rd a rs ∨
    i = .csrrwi rd a rs ∨ i = .csrrsi rd a rs ∨ i = .csrrci rd a rs

theorem exec_trapsOrCounts {i : Instr} (h : ¬ AccessesInstret i) (s : State) :
    TrapsOrCounts s (exec i s) := by
  cases i with
  | csrrw rd a rs | csrrwi rd a rs =>
    exact csrInstr_trapsOrCounts (fun ha => h ⟨a, ha, rd, rs, by simp⟩) ..
  | csrrs rd a rs | csrrc rd a rs | csrrsi rd a rs | csrrci rd a rs =>
    exact csrModify_trapsOrCounts (fun ha => h ⟨a, ha, rd, rs, by simp⟩) ..
  | mret => exact execMret_trapsOrCounts s
  | sret => exact execSret_trapsOrCounts s
  | uret => exact returnFrom_trapsOrCounts .U s
  | wfi => exact execWfi_trapsOrCounts s
  | sfenceVma => exact execSfenceVma_trapsOrCounts _ _ s
  | fence => exact complete_trapsOrCounts rfl
  | ecall | ebreak => exact raise_trapsOrCounts _ _ s
  | jal | jalr => exact jumpAndLink_trapsOrCounts _ _ s
  | beq | bne | blt | bge | bltu | bgeu => exact branch_trapsOrCounts _ _ s
  | lb | lh | lw | lbu | lhu => exact load_trapsOrCounts _ _ _ _ _ _ s
  | sb | sh | sw => exact store_trapsOrCounts _ _ _ _ s
  | lui | auipc | addi | slti | sltiu | xori | ori | andi | slli | srli | srai | add | sub | sll | slt
  | sltu | xor | srl | sra | or | and => exact writeResult_trapsOrCounts _ _ _ s

/-- Settles O54: an instruction that does not access the count traps or is counted; of the others it is only
said that they have a next state. -/
theorem preciseExceptions : Obligations.PreciseExceptions := by
  intro i s
  by_cases h : AccessesInstret i
  · obtain ⟨t, ht, -⟩ := exec_cases i s
    exact ⟨t, ht, .inr (.inr h)⟩
  · obtain ⟨e, tval, hraised⟩ | ⟨t, ht, hcounted⟩ := exec_trapsOrCounts h s
    · exact ⟨_, hraised, .inl ⟨e, tval, rfl⟩⟩
    · exact ⟨t, ht, .inr (.inl hcounted)⟩

end Sys2Proof.Machine
end


section
/-! Which interrupt is taken (R407, R495, R496, R500, R501): the pending and enabled interrupts as
one word of bits for each destination mode, and the mode whose handler takes the one selected. -/

namespace Sys2Proof.Machine

/-! ## Where an interrupt is destined (R500) -/

section Destination

variable (s : State) (i : Interrupt)

theorem destination_eq_machine_iff :
    destination s i = .M ↔ s.midelegBits.getLsbD i.code = false := by
  unfold destination
  split_ifs <;> simp_all

theorem destination_eq_supervisor_iff : destination s i = .S ↔
    s.midelegBits.getLsbD i.code = true ∧ s.sidelegBits.getLsbD i.code = false := by
  unfold destination
  split_ifs <;> simp_all

theorem destination_eq_user_iff : destination s i = .U ↔
    s.midelegBits.getLsbD i.code = true ∧ s.sidelegBits.getLsbD i.code = true := by
  unfold destination
  split_ifs <;> simp_all

end Destination

/-! ## The interrupts destined for a mode, as bits of a word (R495, R500) -/

theorem Interrupt.mem_interruptOrder (i : Interrupt) : i ∈ interruptOrder := by cases i <;> decide

theorem mipWord_getLsbD_code (s : State) (i : Interrupt) : (mipWord s).getLsbD i.code = mipBit s i := by
  rw [mipWord_getLsbD s i.code_lt]
  cases i <;> simp [interruptOrder, Interrupt.code]

/-- The pending and locally enabled interrupts destined for mode `x`, each at the bit of its code. -/
def destinedSet (s : State) : Priv → Word
  | .M => csrRead s .mip &&& csrRead s .mie &&& ~~~(csrRead s .mideleg)
  | .S => csrRead s .mip &&& csrRead s .mie &&& csrRead s .mideleg &&& ~~~(csrRead s .sideleg)
  | .U => csrRead s .mip &&& csrRead s .mie &&& csrRead s .mideleg &&& csrRead s .sideleg

theorem destinedSet_getLsbD_code_iff (s : State) (x : Priv) (i : Interrupt) :
    (destinedSet s x).getLsbD i.code = true ↔ pendingEnabled s i = true ∧ destination s i = x := by
  have hmip : (csrRead s .mip).getLsbD i.code = mipBit s i := mipWord_getLsbD_code s i
  have hpend : (csrRead s .mip &&& csrRead s .mie).getLsbD i.code = pendingEnabled s i := by
    rw [BitVec.getLsbD_and, hmip, Bool.and_comm]
    rfl
  have hmideleg : csrRead s .mideleg = s.midelegBits := rfl
  have hsideleg : csrRead s .sideleg = s.sidelegBits := rfl
  cases x with
  | M =>
    rw [destinedSet, BitVec.getLsbD_and, hpend]
    simp [hmideleg, i.code_lt, destination_eq_machine_iff]
  | S =>
    rw [destinedSet, BitVec.getLsbD_and, BitVec.getLsbD_and, hpend]
    simp [hmideleg, hsideleg, i.code_lt, destination_eq_supervisor_iff, and_assoc]
  | U =>
    rw [destinedSet, BitVec.getLsbD_and, BitVec.getLsbD_and, hpend]
    simp [hmideleg, hsideleg, destination_eq_user_iff, and_assoc]

/-- Every bit of the word is the code of an interrupt. -/
theorem exists_code_of_destinedSet_getLsbD {s : State} {x : Priv} {k : Nat}
    (h : (destinedSet s x).getLsbD k = true) : ∃ i : Interrupt, i.code = k := by
  have hk : k < 32 := BitVec.lt_of_getLsbD h
  obtain ⟨delegation, hset⟩ : ∃ d, destinedSet s x = (mipWord s &&& csrRead s .mie) &&& d := by
    cases x with
    | M => exact ⟨_, rfl⟩
    | S => exact ⟨_, BitVec.and_assoc ..⟩
    | U => exact ⟨_, BitVec.and_assoc ..⟩
  rw [hset, BitVec.getLsbD_and, Bool.and_eq_true] at h
  obtain ⟨hpend, -⟩ := h
  obtain ⟨i, -, hcode, -⟩ := (mip_and_mie_getLsbD s hk).1 hpend
  exact ⟨i, hcode⟩

/-! ## The first in the order of Table 4 (R501) -/

/-- The first code, in the order of Table 4, whose bit is set. -/
def firstCode (set : Word) : Option Nat := [11, 3, 7, 9, 1, 5, 8, 0, 4].find? (fun k => set.getLsbD k)

theorem highest_map_code (s : State) (x : Priv) :
    (highest s x).map Interrupt.code = firstCode (destinedSet s x) := by
  have horder : [11, 3, 7, 9, 1, 5, 8, 0, 4] = interruptOrder.map Interrupt.code := rfl
  rw [highest, firstCode, horder, List.find?_map]
  congr 2
  funext i
  rw [Bool.eq_iff_iff, Function.comp_apply, destinedSet_getLsbD_code_iff, Bool.and_eq_true,
    decide_eq_true_eq]

theorem firstCode_isSome_of_ne_zero {s : State} {x : Priv} (h : destinedSet s x ≠ 0#32) :
    (firstCode (destinedSet s x)).isSome = true := by
  obtain ⟨k, hk⟩ : ∃ k, (destinedSet s x).getLsbD k = true := by
    by_contra! hnone
    exact h (BitVec.eq_of_getLsbD_eq fun k _ => by simpa using hnone k)
  obtain ⟨i, rfl⟩ := exists_code_of_destinedSet_getLsbD hk
  rw [firstCode, List.find?_isSome]
  exact ⟨i.code, List.mem_map_of_mem i.mem_interruptOrder, hk⟩

/-! ## Destination modes in their order (R496, R500) -/

theorem globallyEnabled_machine_iff (s : State) :
    globallyEnabled s .M = true ↔ s.priv ≠ .M ∨ s.mstatus.mie = true := by
  cases hp : s.priv <;> simp [globallyEnabled, machineEnabled, hp]

theorem globallyEnabled_supervisor_iff (s : State) :
    globallyEnabled s .S = true ↔ s.priv = .U ∨ (s.priv = .S ∧ s.mstatus.sie = true) := by
  cases hp : s.priv <;> simp [globallyEnabled, supervisorEnabled, hp]

theorem globallyEnabled_user_iff (s : State) :
    globallyEnabled s .U = true ↔ s.priv = .U ∧ s.mstatus.uie = true := by
  cases hp : s.priv <;> simp [globallyEnabled, userEnabled, hp]

/-- In M-mode only the interrupts for M-mode can be enabled. -/
theorem eq_machine_of_globallyEnabled {s : State} {x : Priv} (hp : s.priv = .M)
    (h : globallyEnabled s x = true) : x = .M := by
  cases x with
  | M => rfl
  | S => simp [globallyEnabled_supervisor_iff, hp] at h
  | U => simp [globallyEnabled_user_iff, hp] at h

theorem interruptTaken_eq_or (s : State) :
    interruptTaken s = (offered s .M).or ((offered s .S).or (offered s .U)) := by
  unfold interruptTaken
  cases offered s .M <;> cases offered s .S <;> rfl

/-- A mode that is globally enabled and has an interrupt decides; any other leaves it to the rest. -/
theorem offered_map_code_or (s : State) (x : Priv) (rest : Option Nat) :
    ((offered s x).map Interrupt.code).or rest =
      if globallyEnabled s x = true ∧ destinedSet s x ≠ 0#32 then firstCode (destinedSet s x)
      else rest := by
  by_cases hen : globallyEnabled s x = true
  · rw [offered, if_pos hen, highest_map_code]
    by_cases hset : destinedSet s x = 0#32
    · have hnone : firstCode (destinedSet s x) = none := by rw [hset]; rfl
      rw [hnone, if_neg (fun h => h.2 hset), Option.none_or]
    · rw [if_pos ⟨hen, hset⟩, Option.or_of_isSome (firstCode_isSome_of_ne_zero hset)]
  · rw [offered, if_neg hen, if_neg (fun h => hen h.1)]
    rfl

theorem interruptTaken_map_code (s : State) : (interruptTaken s).map Interrupt.code =
    if globallyEnabled s .M = true ∧ destinedSet s .M ≠ 0#32 then firstCode (destinedSet s .M)
    else if globallyEnabled s .S = true ∧ destinedSet s .S ≠ 0#32 then firstCode (destinedSet s .S)
    else if globallyEnabled s .U = true ∧ destinedSet s .U ≠ 0#32 then firstCode (destinedSet s .U)
    else none := by
  rw [interruptTaken_eq_or, Option.map_or, Option.map_or, offered_map_code_or, offered_map_code_or,
    ← offered_map_code_or s .U none, Option.or_none]

/-! ## The handler's mode (R413, R500) -/

theorem offered_eq_some {s : State} {x : Priv} {i : Interrupt} (h : offered s x = some i) :
    globallyEnabled s x = true ∧ destination s i = x := by
  unfold offered at h
  split at h
  next hen =>
    have hfound := List.find?_some h
    simp only [Bool.and_eq_true, decide_eq_true_eq] at hfound
    exact ⟨hen, hfound.2⟩
  next => cases h

/-- The interrupt taken is destined for a mode that is globally enabled. -/
theorem globallyEnabled_destination_of_taken {s : State} {i : Interrupt} (h : interruptTaken s = some i) :
    globallyEnabled s (destination s i) = true := by
  simp only [interruptTaken_eq_or, Option.or_eq_some_iff] at h
  obtain ⟨x, hx⟩ : ∃ x, offered s x = some i := by
    obtain h | ⟨-, h | ⟨-, h⟩⟩ := h <;> exact ⟨_, h⟩
  obtain ⟨hen, rfl⟩ := offered_eq_some hx
  exact hen

/-- Interrupts destined for a mode below that of the hart are never enabled, so the destination is the
target mode. -/
theorem destination_eq_targetMode {s : State} {i : Interrupt}
    (h : globallyEnabled s (destination s i) = true) :
    destination s i = targetMode s (.interrupt i) := by
  have hM : delegatedByM s (.interrupt i) = s.midelegBits.getLsbD i.code := rfl
  have hS : delegatedByS s (.interrupt i) = s.sidelegBits.getLsbD i.code := rfl
  cases hp : s.priv with
  | M => rw [targetMode_of_machine hp, eq_machine_of_globallyEnabled hp h]
  | S =>
    rw [targetMode_of_supervisor hp, hM]
    cases hd : destination s i with
    | M => simp [(destination_eq_machine_iff s i).1 hd]
    | S => simp [(destination_eq_supervisor_iff s i).1 hd]
    | U => simp [hd, globallyEnabled_user_iff, hp] at h
  | U => rw [targetMode_of_user hp, hM, hS, destination]

/-- Settles O55: the sets are the words of destined interrupts, and the first code of one is the highest
interrupt in it. -/
theorem interruptSelection : Obligations.InterruptSelection := by
  refine ⟨fun s => ?_, fun s i h => ⟨?_, targetMode_not_below s _⟩, fun s i hr hi => ?_⟩
  · have hselect := interruptTaken_map_code s
    simp only [globallyEnabled_machine_iff, globallyEnabled_supervisor_iff, globallyEnabled_user_iff]
      at hselect
    exact hselect
  · exact destination_eq_targetMode (globallyEnabled_destination_of_taken h)
  · rw [step_of_runs hr, runUnstalled, hi]
    simp only [takeInterrupt, awake_pc]

end Sys2Proof.Machine
end

section
/-! After reset (R90, R543, R544): M-mode with interrupts off takes no interrupt, and PMP without a locked
entry refuses M-mode nothing. -/

namespace Sys2Proof.Machine

theorem interruptTaken_of_machine_off {s : State} (hp : s.priv = .M) (hmie : s.mstatus.mie = false) :
    interruptTaken s = none := by
  cases h : interruptTaken s with
  | none => rfl
  | some i =>
    have hen := globallyEnabled_destination_of_taken h
    rw [eq_machine_of_globallyEnabled hp hen, globallyEnabled_machine_iff] at hen
    simp [hp, hmie] at hen

/-- Only a locked entry holds for M-mode (R123). -/
theorem pmpOk_machine_of_unlocked {s : State} (h : ∀ i, (s.pmpCfgAt i).l = false) (pa : PAddr)
    (acc : Access) : pmpOk s pa acc .M = true := by
  by_cases hentries : s.cfg.pmpEntries.val = 0
  · exact pmpOk_of_noEntries hentries pa acc .M
  · cases hd : pmpDecides s pa with
    | none => exact (pmpOk_of_undecided hentries hd acc .M).2 rfl
    | some i => exact (pmpOk_of_decided hd acc .M).2 (.inl ⟨h i, rfl⟩)

/-- In M-mode without a locked entry a fetch reads at `pc` itself, where the bytes there are present. -/
theorem resolve_fetch_of_machine_unlocked {s : State} (hp : s.priv = .M)
    (h : ∀ i, (s.pmpCfgAt i).l = false) (w : Width) (va : Word) :
    resolve s .fetch w va = if accessPresent s.cfg w (va.setWidth 34) = true then .ok (va.setWidth 34)
      else .error ⟨.instrAccessFault, va⟩ := by
  have hpriv : effPriv s .fetch = .M := hp
  have hpmp := pmpOk_machine_of_unlocked h (va.setWidth 34) .fetch
  rw [resolve_of_aligned (.inl rfl), checkedAddress_of_ok (physicalAddress_bare va (.inr hpriv)), hpriv]
  simp only [hpmp, and_true]
  rfl

/-- Settles O56: the two rules above, at the reset vector. -/
theorem afterReset : Obligations.AfterReset := by
  intro s h
  have hunlocked : ∀ i, (s.pmpCfgAt i).l = false := fun i => (h.protectionOff i).2
  have hfetch := resolve_fetch_of_machine_unlocked h.mode hunlocked .word s.pc
  have haddr : (s.pc.setWidth 34).toNat = s.cfg.resetVector.toNat := by
    rw [← h.address, BitVec.toNat_setWidth]
    exact Nat.mod_eq_of_lt (by omega)
  refine ⟨h.mode, h.address, interruptTaken_of_machine_off h.mode h.interruptsOff,
    interruptTaken_of_machine_off ?_ ?_, fun hpresent => ?_, fun hvacant => ?_⟩
  · rw [platform_priv, h.mode]
  · rw [platform_mstatus, h.interruptsOff]
  · rw [hfetch, if_pos]
    rw [accessPresent_iff, haddr]
    exact hpresent
  · rw [hfetch, if_neg]
    rw [Bool.not_eq_true, accessPresent_eq_false_iff, haddr]
    exact hvacant

end Sys2Proof.Machine
end
